-- ==== Sys2Proof/Word.lean ====
section
/-! DEFINITION. The word types and the records that the rules speak of (00_scope.md R6, R8, R12). -/

namespace Sys2Proof

/-- A byte of the stream or of OUT, and one colour or alpha channel (R6). -/
abbrev Byte := BitVec 8

/-- A host register (10_state.md R22). -/
abbrev Word := BitVec 32

/-- The index `i = 4*by + bx` of a pixel inside a block (00_scope.md R13). -/
abbrev PixelIx := Fin 16

/-- An RGB colour: three unsigned 8-bit channels (R12). -/
structure Rgb where
  r : Byte
  g : Byte
  b : Byte
  deriving DecidableEq, Repr, Inhabited

/-- An RGBA pixel: four unsigned 8-bit channels (R12). -/
structure Rgba where
  r : Byte
  g : Byte
  b : Byte
  a : Byte
  deriving DecidableEq, Repr, Inhabited

/-- PIX[0..15], the sixteen pixels of one block (42_dxt1.md R160, 43_dxt5.md R200). -/
abbrev Pixels := Vector Rgba 16

/-- The block register BLK (10_state.md R31): the fields of the block being decoded. `a0`, `a1` and `amask` are used
by DXT5 only. -/
structure Block where
  a0 : Byte
  a1 : Byte
  amask : BitVec 48
  c0raw : BitVec 16
  c1raw : BitVec 16
  cidx : BitVec 32
  deriving DecidableEq, Repr, Inhabited

/-- Everything that has a value only inside one block step: BLK and the mode flags (10_state.md R31, R32), and the
pixels that the block decoder hands to the assembler (R179, R249). -/
structure Transient where
  blk : Block
  opaque4 : Bool
  alpha8 : Bool
  pix : Pixels
  deriving DecidableEq, Repr, Inhabited

end Sys2Proof
end

