-- ==== Sys2Proof/Config.lean ====
section
/-! DEFINITION. The parameters of 00_scope.md R7 and the free values: constants WITHOUT A BODY, so that nothing can be
proved of the value of one. DIM_BITS is 32 (the width of `Word`); BLOCK_UNITS is 1 (log entry 10). -/

namespace Sys2Proof

/-- FIELD_ORDER (R7): the byte order in which the multi-byte fields are assembled (20_memory.md R53, R54). -/
inductive FieldOrder where
  | le
  | be
  deriving DecidableEq, Repr, Inhabited

/-- How far OUT_CAPACITY lies above the 4 that 00_scope.md R7 gives as its least value. OPEN in the spec (U16): no
body (log entry 6). -/
opaque Config.spareCapacity : Nat

/-- OUT_CAPACITY of the machine that `State.reset` describes: 'an integer at least 4' (R7). -/
def Config.outCapacity : Nat := 4 + Config.spareCapacity

/-- FREE VALUE (U9, U13, U14; log entry 2). What a byte of OUT that has no defined value reads as: the epoch says which
event left it undefined, the second argument is its address. -/
opaque Config.freeOutByte : Nat → Nat → Byte

/-- FREE VALUE (U10, U11; log entry 3). CURSOR after an error. -/
opaque Config.freeCursor : Nat → Nat

/-- FREE VALUE (U12; log entry 4). BLK, OPAQUE4, ALPHA8 and the block's pixels between block steps. -/
opaque Config.freeTransient : Nat → Transient

/-- FREE VALUE (log entry 11). RAMP7 for a selector outside 2..7, for which 41_interpolate.md R143 gives no value. -/
opaque Config.freeRamp7 : BitVec 3 → Byte → Byte → Byte

/-- FREE VALUE (log entry 11). RAMP5 for a selector outside 2..5, for which 41_interpolate.md R144 gives no value. -/
opaque Config.freeRamp5 : BitVec 3 → Byte → Byte → Byte

end Sys2Proof
end

