-- ==== Sys2Proof/Syntax.lean ====
section
/-! DEFINITION. What can be asked of the decoder: the rows of spec/opcode_table.json (`Instr`), the host actions of
30_encoding.md R93 (`HostAction`), and the events that the agenda of the state is made of (`Event`, log entry 1). -/

namespace Sys2Proof

/-- The opcode table, one constructor per row. The operand of a selector word is the index `i` of the pixel it stands
at (30_encoding.md R88, R89); the operands of a combinational unit are its inputs; DXT1_BLOCK, DXT5_BLOCK, ASSEMBLE and
the two commands take theirs from the state. -/
inductive Instr where
  /-- DECODE_DXT1 (44_assembler.md R270) -/
  | decodeDxt1
  /-- DECODE_DXT5 (44_assembler.md R271) -/
  | decodeDxt5
  /-- DXT1.C4.S0 (42_dxt1.md R170) -/
  | dxt1C4S0 (i : PixelIx)
  /-- DXT1.C4.S1 (42_dxt1.md R171) -/
  | dxt1C4S1 (i : PixelIx)
  /-- DXT1.C4.S2 (42_dxt1.md R172) -/
  | dxt1C4S2 (i : PixelIx)
  /-- DXT1.C4.S3 (42_dxt1.md R173) -/
  | dxt1C4S3 (i : PixelIx)
  /-- DXT1.C3.S0 (42_dxt1.md R174) -/
  | dxt1C3S0 (i : PixelIx)
  /-- DXT1.C3.S1 (42_dxt1.md R175) -/
  | dxt1C3S1 (i : PixelIx)
  /-- DXT1.C3.S2 (42_dxt1.md R176) -/
  | dxt1C3S2 (i : PixelIx)
  /-- DXT1.C3.S3 (42_dxt1.md R177) -/
  | dxt1C3S3 (i : PixelIx)
  /-- DXT5.C.S0 (43_dxt5.md R220) -/
  | dxt5CS0 (i : PixelIx)
  /-- DXT5.C.S1 (43_dxt5.md R221) -/
  | dxt5CS1 (i : PixelIx)
  /-- DXT5.C.S2 (43_dxt5.md R222) -/
  | dxt5CS2 (i : PixelIx)
  /-- DXT5.C.S3 (43_dxt5.md R223) -/
  | dxt5CS3 (i : PixelIx)
  /-- DXT5.A8.S0 (43_dxt5.md R230) -/
  | dxt5A8S0 (i : PixelIx)
  /-- DXT5.A8.S1 (43_dxt5.md R231) -/
  | dxt5A8S1 (i : PixelIx)
  /-- DXT5.A8.S2 (43_dxt5.md R232) -/
  | dxt5A8S2 (i : PixelIx)
  /-- DXT5.A8.S3 (43_dxt5.md R233) -/
  | dxt5A8S3 (i : PixelIx)
  /-- DXT5.A8.S4 (43_dxt5.md R234) -/
  | dxt5A8S4 (i : PixelIx)
  /-- DXT5.A8.S5 (43_dxt5.md R235) -/
  | dxt5A8S5 (i : PixelIx)
  /-- DXT5.A8.S6 (43_dxt5.md R236) -/
  | dxt5A8S6 (i : PixelIx)
  /-- DXT5.A8.S7 (43_dxt5.md R237) -/
  | dxt5A8S7 (i : PixelIx)
  /-- DXT5.A6.S0 (43_dxt5.md R240) -/
  | dxt5A6S0 (i : PixelIx)
  /-- DXT5.A6.S1 (43_dxt5.md R241) -/
  | dxt5A6S1 (i : PixelIx)
  /-- DXT5.A6.S2 (43_dxt5.md R242) -/
  | dxt5A6S2 (i : PixelIx)
  /-- DXT5.A6.S3 (43_dxt5.md R243) -/
  | dxt5A6S3 (i : PixelIx)
  /-- DXT5.A6.S4 (43_dxt5.md R244) -/
  | dxt5A6S4 (i : PixelIx)
  /-- DXT5.A6.S5 (43_dxt5.md R245) -/
  | dxt5A6S5 (i : PixelIx)
  /-- DXT5.A6.S6 (43_dxt5.md R246) -/
  | dxt5A6S6 (i : PixelIx)
  /-- DXT5.A6.S7 (43_dxt5.md R247) -/
  | dxt5A6S7 (i : PixelIx)
  /-- EXPAND565 (40_expand565.md R120) -/
  | expand565 (c : BitVec 16)
  /-- AVG2 (41_interpolate.md R140) -/
  | avg2 (a b : Byte)
  /-- WEIGHTED3 (41_interpolate.md R141): the first operand has weight 1, the second weight 2 -/
  | weighted3 (oneThird twoThirds : Byte)
  /-- RAMP7 (41_interpolate.md R143) -/
  | ramp7 (ai : BitVec 3) (a0 a1 : Byte)
  /-- RAMP5 (41_interpolate.md R144) -/
  | ramp5 (ai : BitVec 3) (a0 a1 : Byte)
  /-- DXT1_BLOCK (42_dxt1.md R160) -/
  | dxt1Block
  /-- DXT5_BLOCK (43_dxt5.md R200) -/
  | dxt5Block
  /-- ASSEMBLE (44_assembler.md R256) -/
  | assemble
  deriving DecidableEq, Repr

/-- The formats of the opcode table (30_encoding.md R81, R90). Which one a word is read in is fixed by where it stands:
a write of CMD, a place in CIDX of a DXT1 or a DXT5 block, a place in AMASK. `unit` is the model's own numbering of the
rows that have no encoding (log entry 12). -/
inductive Fmt where
  | cmd
  | dxt1Csel
  | dxt5Csel
  | dxt5Asel
  | unit
  deriving DecidableEq, Repr

/-- The five host registers (10_state.md R22). -/
inductive HostReg where
  | cmd
  | width
  | height
  | status
  | errcode
  deriving DecidableEq, Repr

/-- One host action (30_encoding.md R93; 70_reset_and_hazards.md R345). A register access names its offset and its
width in bits, so that the accesses of 10_state.md R28 can be written down (and refused). -/
inductive HostAction where
  /-- `WR`: a register write -/
  | write (offset width : Nat) (value : Word)
  /-- `RD`: a register read -/
  | read (offset width : Nat)
  /-- `STREAM`: presents the byte sequence for the next START -/
  | stream (bytes : List Byte)
  /-- `WAIT`: repeats `RD STATUS` until STATE is DONE or ERROR -/
  | wait
  /-- `MEMRD`: `MemRead(addr, n)` -/
  | memRead (addr n : Nat)
  /-- reset is asserted (70_reset_and_hazards.md R330) -/
  | reset
  deriving DecidableEq, Repr

/-- One entry of the agenda: whose turn it is (log entry 1). -/
inductive Event where
  /-- the host takes one action -/
  | host (a : HostAction)
  /-- the decoder engine has a turn: a block step when STATE = BUSY, nothing otherwise (44_assembler.md R262, R264) -/
  | engine
  /-- a word of the opcode table is presented by itself, in the named format (log entry 12) -/
  | word (f : Fmt) (bytes : List Byte)
  deriving DecidableEq, Repr

end Sys2Proof
end

