-- ==== Sys2Proof/WellFormed.lean ====
section
/-! DEFINITION. Which instructions are well formed, in that the spec states their result: the selector of RAMP7 lies in
2..7 and that of RAMP5 in 2..5 (41_interpolate.md R143, R144). Every other operand is in range by its type. The decoder
and `exec` refuse no instruction for want of this: outside the domain the result is a free value (log entry 11). -/

namespace Sys2Proof

/-- The domain of RAMP7 (41_interpolate.md R143). -/
def ramp7Domain (ai : BitVec 3) : Bool := 2 ≤ ai.toNat

/-- The domain of RAMP5 (41_interpolate.md R144). -/
def ramp5Domain (ai : BitVec 3) : Bool := 2 ≤ ai.toNat && ai.toNat ≤ 5

/-- An instruction whose operands lie where the spec states its result. -/
def WellFormed : Instr → Bool
  | .decodeDxt1 | .decodeDxt5 => true
  | .dxt1C4S0 _ | .dxt1C4S1 _ | .dxt1C4S2 _ | .dxt1C4S3 _ | .dxt1C3S0 _ | .dxt1C3S1 _ | .dxt1C3S2 _ | .dxt1C3S3 _ => true
  | .dxt5CS0 _ | .dxt5CS1 _ | .dxt5CS2 _ | .dxt5CS3 _ => true
  | .dxt5A8S0 _ | .dxt5A8S1 _ | .dxt5A8S2 _ | .dxt5A8S3 _ | .dxt5A8S4 _ | .dxt5A8S5 _ | .dxt5A8S6 _ | .dxt5A8S7 _ => true
  | .dxt5A6S0 _ | .dxt5A6S1 _ | .dxt5A6S2 _ | .dxt5A6S3 _ | .dxt5A6S4 _ | .dxt5A6S5 _ | .dxt5A6S6 _ | .dxt5A6S7 _ => true
  | .expand565 _ => true
  | .avg2 _ _ | .weighted3 _ _ => true
  | .ramp7 ai _ _ => ramp7Domain ai
  | .ramp5 ai _ _ => ramp5Domain ai
  | .dxt1Block | .dxt5Block | .assemble => true

end Sys2Proof
end

