-- ==== Sys2Proof/Decode.lean ====
section
/-! DEFINITION. Decoding, total on any bytes and rejecting by name, and the encoder: the command word (30_encoding.md
R80-R82), the selector words (R90) and the model's own numbering of the units (log entry 12). -/

namespace Sys2Proof

/-- Why a word is no row of the opcode table. -/
inductive DecodeError where
  /-- a CMD word with START = 0: 'not a command' (30_encoding.md R82) -/
  | noStart
  /-- START = 1 with bits 3:2 or 31:5 non-zero (R82) -/
  | reservedBits
  /-- START = 1 with FORMAT = 2 or 3 (R82) -/
  | reservedFormat
  /-- a selector with bits above its width (R90; 41_interpolate.md R143, R144) -/
  | selectorTooWide
  /-- a pixel index above 15 (00_scope.md R13) -/
  | pixelIndex
  /-- a number that no unit has (log entry 12) -/
  | unknownUnit
  /-- fewer bytes than the word needs -/
  | truncated
  deriving DecidableEq, Repr

/-- The byte offset of a register (10_state.md R22). -/
def HostReg.offset : HostReg → Nat
  | .cmd => 0x00
  | .width => 0x04
  | .height => 0x08
  | .status => 0x0C
  | .errcode => 0x10

/-- CMD[1:0], FORMAT (10_state.md R23). -/
def cmdFormat (w : Word) : BitVec 2 := w.extractLsb' 0 2

/-- CMD[4], START (10_state.md R23). -/
def cmdStart (w : Word) : Bool := w.getLsbD 4

/-- Bits 3:2 and 31:5 of a command word, which must be 0 (10_state.md R23). -/
def cmdReservedZero (w : Word) : Bool := w.extractLsb' 2 2 == 0 && w.extractLsb' 5 27 == 0

/-- The command word (30_encoding.md R80-R82). -/
def decodeCommand (w : Word) : Except DecodeError Instr :=
  if !cmdStart w then .error .noStart
  else if !cmdReservedZero w then .error .reservedBits
  else if cmdFormat w = 0 then .ok .decodeDxt1
  else if cmdFormat w = 1 then .ok .decodeDxt5
  else .error .reservedFormat

/-- The DXT1 colour selector word `{OPAQUE4, sel}` (30_encoding.md R90). -/
def dxt1Selector (w : BitVec 3) (i : PixelIx) : Instr :=
  if w = 4 then .dxt1C4S0 i
  else if w = 5 then .dxt1C4S1 i
  else if w = 6 then .dxt1C4S2 i
  else if w = 7 then .dxt1C4S3 i
  else if w = 0 then .dxt1C3S0 i
  else if w = 1 then .dxt1C3S1 i
  else if w = 2 then .dxt1C3S2 i
  else .dxt1C3S3 i

/-- The DXT5 colour selector word `sel` (30_encoding.md R90). -/
def dxt5Selector (w : BitVec 2) (i : PixelIx) : Instr :=
  if w = 0 then .dxt5CS0 i
  else if w = 1 then .dxt5CS1 i
  else if w = 2 then .dxt5CS2 i
  else .dxt5CS3 i

/-- The DXT5 alpha selector word `{ALPHA8, asel}` (30_encoding.md R90). -/
def alphaSelector (w : BitVec 4) (i : PixelIx) : Instr :=
  if w = 8 then .dxt5A8S0 i
  else if w = 9 then .dxt5A8S1 i
  else if w = 10 then .dxt5A8S2 i
  else if w = 11 then .dxt5A8S3 i
  else if w = 12 then .dxt5A8S4 i
  else if w = 13 then .dxt5A8S5 i
  else if w = 14 then .dxt5A8S6 i
  else if w = 15 then .dxt5A8S7 i
  else if w = 0 then .dxt5A6S0 i
  else if w = 1 then .dxt5A6S1 i
  else if w = 2 then .dxt5A6S2 i
  else if w = 3 then .dxt5A6S3 i
  else if w = 4 then .dxt5A6S4 i
  else if w = 5 then .dxt5A6S5 i
  else if w = 6 then .dxt5A6S6 i
  else .dxt5A6S7 i

/-- A selector word presented by itself: the word in the low `n` bits of one byte, then the pixel index. -/
def decodeSelector (n : Nat) (row : BitVec n → PixelIx → Instr) : List Byte → Except DecodeError (Instr × List Byte)
  | w :: i :: rest =>
    if 2 ^ n ≤ w.toNat then .error .selectorTooWide
    else if h : i.toNat < 16 then .ok (row (BitVec.ofNat n w.toNat) ⟨i.toNat, h⟩, rest)
    else .error .pixelIndex
  | _ => .error .truncated

/-- The ramp selector of a unit word: three bits in one byte (41_interpolate.md R143, R144). Every selector decodes, also
one for which the rule states no result (log entry 11). -/
def decodeRampSelector (b : Byte) : Except DecodeError (BitVec 3) :=
  if b.toNat < 8 then .ok (BitVec.ofNat 3 b.toNat) else .error .selectorTooWide

/-- A unit word: the number of the unit in the order of the opcode table, then its operands (log entry 12). -/
def decodeUnit : List Byte → Except DecodeError (Instr × List Byte)
  | [] => .error .truncated
  | n :: args =>
    if n = 0 then
      match args with
      | lo :: hi :: rest => .ok (.expand565 (hi ++ lo), rest)
      | _ => .error .truncated
    else if n = 1 then
      match args with
      | a :: b :: rest => .ok (.avg2 a b, rest)
      | _ => .error .truncated
    else if n = 2 then
      match args with
      | a :: b :: rest => .ok (.weighted3 a b, rest)
      | _ => .error .truncated
    else if n = 3 then
      match args with
      | ai :: a0 :: a1 :: rest => (decodeRampSelector ai).map fun ai => (.ramp7 ai a0 a1, rest)
      | _ => .error .truncated
    else if n = 4 then
      match args with
      | ai :: a0 :: a1 :: rest => (decodeRampSelector ai).map fun ai => (.ramp5 ai a0 a1, rest)
      | _ => .error .truncated
    else if n = 5 then .ok (.dxt1Block, args)
    else if n = 6 then .ok (.dxt5Block, args)
    else if n = 7 then .ok (.assemble, args)
    else .error .unknownUnit

/-- Decoding in a format: the instruction and the bytes after it. The four bytes of a command word are given least
significant first (log entry 12). -/
def decode : Fmt → List Byte → Except DecodeError (Instr × List Byte)
  | .cmd, b0 :: b1 :: b2 :: b3 :: rest => (decodeCommand (b3 ++ b2 ++ b1 ++ b0)).map fun i => (i, rest)
  | .cmd, _ => .error .truncated
  | .dxt1Csel, bytes => decodeSelector 3 dxt1Selector bytes
  | .dxt5Csel, bytes => decodeSelector 2 dxt5Selector bytes
  | .dxt5Asel, bytes => decodeSelector 4 alphaSelector bytes
  | .unit, bytes => decodeUnit bytes

/-- The 32-bit word that four bytes in the format of a command are, command or not (30_encoding.md R80-R82). -/
def commandWord : Fmt → List Byte → Option Word
  | .cmd, b0 :: b1 :: b2 :: b3 :: _ => some (b3 ++ b2 ++ b1 ++ b0)
  | _, _ => none

/-! The encoder, written from the same tables. -/

/-- The format that an instruction's row names. -/
def Instr.fmt : Instr → Fmt
  | .decodeDxt1 | .decodeDxt5 => .cmd
  | .dxt1C4S0 _ | .dxt1C4S1 _ | .dxt1C4S2 _ | .dxt1C4S3 _ | .dxt1C3S0 _ | .dxt1C3S1 _ | .dxt1C3S2 _ | .dxt1C3S3 _ => .dxt1Csel
  | .dxt5CS0 _ | .dxt5CS1 _ | .dxt5CS2 _ | .dxt5CS3 _ => .dxt5Csel
  | .dxt5A8S0 _ | .dxt5A8S1 _ | .dxt5A8S2 _ | .dxt5A8S3 _ | .dxt5A8S4 _ | .dxt5A8S5 _ | .dxt5A8S6 _ | .dxt5A8S7 _ => .dxt5Asel
  | .dxt5A6S0 _ | .dxt5A6S1 _ | .dxt5A6S2 _ | .dxt5A6S3 _ | .dxt5A6S4 _ | .dxt5A6S5 _ | .dxt5A6S6 _ | .dxt5A6S7 _ => .dxt5Asel
  | .expand565 _ | .avg2 _ _ | .weighted3 _ _ | .ramp7 _ _ _ | .ramp5 _ _ _ => .unit
  | .dxt1Block | .dxt5Block | .assemble => .unit

/-- A selector word and its pixel index as two bytes. -/
def encodeSelector (w : Byte) (i : PixelIx) : List Byte := [w, BitVec.ofNat 8 i.val]

/-- The bytes of an instruction. -/
def encode : Instr → List Byte
  | .decodeDxt1 => [0x10, 0, 0, 0]
  | .decodeDxt5 => [0x11, 0, 0, 0]
  | .dxt1C4S0 i => encodeSelector 4 i
  | .dxt1C4S1 i => encodeSelector 5 i
  | .dxt1C4S2 i => encodeSelector 6 i
  | .dxt1C4S3 i => encodeSelector 7 i
  | .dxt1C3S0 i => encodeSelector 0 i
  | .dxt1C3S1 i => encodeSelector 1 i
  | .dxt1C3S2 i => encodeSelector 2 i
  | .dxt1C3S3 i => encodeSelector 3 i
  | .dxt5CS0 i => encodeSelector 0 i
  | .dxt5CS1 i => encodeSelector 1 i
  | .dxt5CS2 i => encodeSelector 2 i
  | .dxt5CS3 i => encodeSelector 3 i
  | .dxt5A8S0 i => encodeSelector 8 i
  | .dxt5A8S1 i => encodeSelector 9 i
  | .dxt5A8S2 i => encodeSelector 10 i
  | .dxt5A8S3 i => encodeSelector 11 i
  | .dxt5A8S4 i => encodeSelector 12 i
  | .dxt5A8S5 i => encodeSelector 13 i
  | .dxt5A8S6 i => encodeSelector 14 i
  | .dxt5A8S7 i => encodeSelector 15 i
  | .dxt5A6S0 i => encodeSelector 0 i
  | .dxt5A6S1 i => encodeSelector 1 i
  | .dxt5A6S2 i => encodeSelector 2 i
  | .dxt5A6S3 i => encodeSelector 3 i
  | .dxt5A6S4 i => encodeSelector 4 i
  | .dxt5A6S5 i => encodeSelector 5 i
  | .dxt5A6S6 i => encodeSelector 6 i
  | .dxt5A6S7 i => encodeSelector 7 i
  | .expand565 c => [0, c.extractLsb' 0 8, c.extractLsb' 8 8]
  | .avg2 a b => [1, a, b]
  | .weighted3 a b => [2, a, b]
  | .ramp7 ai a0 a1 => [3, ai.zeroExtend 8, a0, a1]
  | .ramp5 ai a0 a1 => [4, ai.zeroExtend 8, a0, a1]
  | .dxt1Block => [5]
  | .dxt5Block => [6]
  | .assemble => [7]

/-! The words of spec/opcode_table.json, as the table numbers their bits. -/

/-- The low `n` bytes of a number, least significant first. -/
def lowBytes : Nat → Nat → List Byte
  | 0, _ => []
  | n + 1, w => BitVec.ofNat 8 w :: lowBytes n (w / 256)

/-- The format of a table row by its number of bits. Eight bits is a selector word rounded up to a byte, which does not
say which table it stands in (log entry 13): 8..15 is an alpha selector word in any case, 0..7 is read as a DXT1 colour
selector word. -/
def tableFmt (nbits w : Nat) : Fmt :=
  if nbits = 32 then .cmd
  else if nbits = 2 then .dxt5Csel
  else if nbits = 3 then .dxt1Csel
  else if nbits = 4 then .dxt5Asel
  else if nbits = 8 then (if w < 8 then .dxt1Csel else .dxt5Asel)
  else .unit

/-- The bytes of a table word: its own bits, and zeros for the operands it has above them. -/
def tableBytes (w : Nat) : List Byte := lowBytes 4 w

/-- The decoder on a word of the opcode table. -/
def decodeTableWord (nbits w : Nat) : Option Instr :=
  match decode (tableFmt nbits w) (tableBytes w) with
  | .ok (i, _) => some i
  | .error _ => none

/-- The event that presents a table word: a command is a 32-bit write of CMD, any other row is presented by itself. -/
def tableEvent (nbits w : Nat) : Event :=
  match tableFmt nbits w with
  | .cmd => .host (.write HostReg.cmd.offset 32 (BitVec.ofNat 32 w))
  | f => .word f (tableBytes w)

end Sys2Proof
end

