-- ==== Sys2Proof/Machine/State.lean ====
section
/-! DEFINITION. The state of the decoder as plain data (10_state.md R20), why a step can stop, and the state after
reset (10_state.md R36). -/

namespace Sys2Proof.Machine

/-- STATUS.STATE (10_state.md R26). -/
inductive Phase where
  /-- no decode call since reset -/
  | idle
  /-- a decode call is in progress -/
  | busy
  /-- the last call completed and OUT holds its image -/
  | done
  /-- the last call failed and ERRCODE holds the cause -/
  | error
  deriving DecidableEq, Repr

/-- ERRCODE.CODE (10_state.md R27, 60_exceptions.md R300). -/
inductive ErrCode where
  | none
  | arg
  | io
  | buf
  | cmd
  deriving DecidableEq, Repr

/-- The errors that a rule raises (60_exceptions.md R300). -/
inductive HwError where
  /-- CmdError (R302) -/
  | cmdError
  /-- ArgError (R303) -/
  | argError
  /-- IoError (R304) -/
  | ioError
  /-- BufError (R305) -/
  | bufError
  deriving DecidableEq, Repr

/-- OUT (10_state.md R34): `capacity` bytes, of which `cells` lists those that have a defined value. An address that is
not listed has any value (R36, U13): it reads as the free value that `epoch` names (log entry 2). -/
structure Memory where
  capacity : Nat
  epoch : Nat
  cells : List Host.Cell
  deriving DecidableEq, Repr

/-- The values of CMD, WIDTH and HEIGHT that a call was started with: 'immutable per decode call' (10_state.md R24, R25),
read by its START (44_assembler.md R260). -/
structure CallArgs where
  cmd : Word
  width : Word
  height : Word
  deriving DecidableEq, Repr

/-- What the host got back from a read (70_reset_and_hazards.md R345). -/
inductive Reply where
  | reg (offset : Nat) (value : Word)
  | mem (addr : Nat) (bytes : List Byte)
  deriving DecidableEq, Repr

/-- Why the machine stops with a fault. -/
inductive Fault where
  /-- Raised by MemWrite (20_memory.md R58), for ASSEMBLE, when the address is at or above OUT_CAPACITY: an address that
  does not exist. Safe: it cannot happen in a call, since START checks the size (60_exceptions.md R305). -/
  | outAddress (addr : Nat)
  deriving DecidableEq, Repr

/-- Why a step has no meaning. -/
inductive Refusal where
  /-- Raised by exec for an instruction that has no meaning yet. Safe. -/
  | notModelled (mnemonic : String)
  /-- Raised by a host access at an offset outside the register map (10_state.md R28, U3). Safe. -/
  | hostOffset (offset : Nat)
  /-- Raised by a host access that is not 32 bits wide (10_state.md R28, U3). Safe. -/
  | hostWidth (width : Nat)
  /-- Raised by a host write to STATUS or ERRCODE (10_state.md R28, U4). Safe. -/
  | readOnlyWrite (offset : Nat)
  /-- Raised by a host write of CMD, WIDTH or HEIGHT, and by both commands, while STATE = BUSY (10_state.md R28,
  70_reset_and_hazards.md R341, U5). Safe. -/
  | busyWrite
  /-- Raised by a host read of OUT while STATE = BUSY (70_reset_and_hazards.md R343, U7). Safe. -/
  | busyOutRead
  /-- Raised by a host read of OUT that reaches past OUT_CAPACITY-1 (20_memory.md R59). Safe. -/
  | outReadPastEnd
  /-- Raised by a host read of no bytes: 'any length n >= 1' (20_memory.md R62). Safe. -/
  | emptyOutRead
  /-- Raised by a word presented by itself that is no word of its format: too few bytes, a selector or pixel index with
  bits above its width, or a number that no unit has (log entry 12). No operand of a row raises it. Safe. -/
  | badWord (why : DecodeError)
  deriving DecidableEq, Repr

/-- The state. The first group is the spec's (10_state.md R20); the second is its parameter FIELD_ORDER and its input
stream (00_scope.md R7); the third is the model's own (log entries 1, 4, 5, 8, 9). -/
structure State where
  /-- CMD, offset 0x00, with bit 4 cleared (R23) -/
  cmd : Word
  /-- WIDTH, offset 0x04 (R24) -/
  width : Word
  /-- HEIGHT, offset 0x08 (R25) -/
  height : Word
  /-- STATUS.STATE, offset 0x0C (R26) -/
  phase : Phase
  /-- ERRCODE.CODE, offset 0x10 (R27) -/
  errcode : ErrCode
  /-- CURSOR (R29) -/
  cursor : Nat
  /-- BLK_X (R30) -/
  blkX : Nat
  /-- BLK_Y (R30) -/
  blkY : Nat
  /-- BLK (R31) -/
  blk : Block
  /-- OPAQUE4 (R32) -/
  opaque4 : Bool
  /-- ALPHA8 (R32) -/
  alpha8 : Bool
  /-- OUT (R34), with OUT_CAPACITY -/
  out : Memory
  /-- FIELD_ORDER (R7, 20_memory.md R53, R54): no step changes it -/
  fieldOrder : FieldOrder
  /-- S, the stream of the current call (20_memory.md R51) -/
  stream : List Byte
  /-- the stream presented for the next START (20_memory.md R51, 30_encoding.md R93) -/
  presented : List Byte
  /-- the arguments of the last call that began: what `width`, `height` and FORMAT were read as during that call (R35).
  START writes it with the registers, and the counters that the call leaves speak of it (R37 item 3; log entry 9) -/
  call : CallArgs
  /-- PIX[0..15], handed from the block decoder to the assembler (R160, R200, R256) -/
  pix : Pixels
  /-- the output of EXPAND565 when driven by itself -/
  unitRgb : Rgb
  /-- the output of AVG2, WEIGHTED3, RAMP7 and RAMP5 when driven by themselves -/
  unitVal : Byte
  /-- the events still to come, oldest first -/
  agenda : List Event
  /-- what the host got back, newest first -/
  replies : List Reply
  /-- the number of the next free value -/
  fresh : Nat
  deriving DecidableEq, Repr

/-- What one step answers. -/
abbrev Result := Host.Outcome State Fault Refusal

/-- The state after reset (10_state.md R36). BLK, the mode flags, the pixels, the unit outputs and the call's arguments have no
reset value in the spec: zero (log entries 5, 8, 9). No byte of OUT has a defined value (log entry 2). -/
def State.reset : State where
  cmd := 0
  width := 0
  height := 0
  phase := .idle
  errcode := .none
  cursor := 0
  blkX := 0
  blkY := 0
  blk := ⟨0, 0, 0, 0, 0, 0⟩
  opaque4 := false
  alpha8 := false
  out := ⟨Config.outCapacity, 0, []⟩
  fieldOrder := .le
  stream := []
  presented := []
  call := ⟨0, 0, 0⟩
  pix := Vector.replicate 16 ⟨0, 0, 0, 0⟩
  unitRgb := ⟨0, 0, 0⟩
  unitVal := 0
  agenda := []
  replies := []
  fresh := 0

end Sys2Proof.Machine
end

