-- ==== Sys2Proof/Machine/Operands.lean ====
section
/-! DEFINITION. Operands: the assembly of multi-byte fields (20_memory.md R53, R54), the bit fields of colours and index
tables (30_encoding.md R87-R89), and the quantities derived from the registers (10_state.md R35). -/

namespace Sys2Proof.Machine

/-- `le(b)`: the first byte holds bits 7:0 (20_memory.md R53). -/
def leValue : List Byte → Nat
  | [] => 0
  | b :: bs => b.toNat + 256 * leValue bs

/-- `be(b)`: the first byte holds the most significant bits (20_memory.md R54). -/
def beValue (bs : List Byte) : Nat := leValue bs.reverse

/-- The value of a field in the byte order FIELD_ORDER (00_scope.md R7). -/
def fieldValue (o : FieldOrder) (bs : List Byte) : Nat :=
  match o with
  | .le => leValue bs
  | .be => beValue bs

/-- `R5 = c[15:11]` (30_encoding.md R87). -/
def red5 (c : BitVec 16) : Nat := (c.extractLsb' 11 5).toNat

/-- `G6 = c[10:5]` (30_encoding.md R87). -/
def green6 (c : BitVec 16) : Nat := (c.extractLsb' 5 6).toNat

/-- `B5 = c[4:0]` (30_encoding.md R87). -/
def blue5 (c : BitVec 16) : Nat := (c.extractLsb' 0 5).toNat

/-- `sel(i) = CIDX[2*i+1 : 2*i]` (30_encoding.md R88). -/
def colourSel (cidx : BitVec 32) (i : PixelIx) : BitVec 2 := cidx.extractLsb' (2 * i.val) 2

/-- `asel(i) = AMASK[3*i+2 : 3*i]` (30_encoding.md R89). -/
def alphaSel (amask : BitVec 48) (i : PixelIx) : BitVec 3 := amask.extractLsb' (3 * i.val) 3

/-- The column of a pixel inside its block (00_scope.md R13). -/
def pixelCol (i : PixelIx) : Nat := i.val % 4

/-- The row of a pixel inside its block (00_scope.md R13). -/
def pixelRow (i : PixelIx) : Nat := i.val / 4

/-- `width = sext(WIDTH)` (10_state.md R24, R35). -/
def State.widthInt (s : State) : Int := s.width.toInt

/-- `height = sext(HEIGHT)` (10_state.md R25, R35). -/
def State.heightInt (s : State) : Int := s.height.toInt

/-- The width as a count of pixels: 0 for a width that START rejects. -/
def State.widthPx (s : State) : Nat := s.widthInt.toNat

/-- The height as a count of pixels: 0 for a height that START rejects. -/
def State.heightPx (s : State) : Nat := s.heightInt.toNat

/-- `ceil(n/4)` (44_assembler.md R250). -/
def blocksAcross (n : Nat) : Nat := (n + 3) / 4

/-- BX_CNT (10_state.md R35). -/
def State.bxCnt (s : State) : Nat := blocksAcross s.widthPx

/-- BY_CNT (10_state.md R35). -/
def State.byCnt (s : State) : Nat := blocksAcross s.heightPx

/-- NBLOCKS (10_state.md R35). -/
def State.nBlocks (s : State) : Nat := s.bxCnt * s.byCnt

/-- BS for a FORMAT: 8 for DXT1, 16 for DXT5 (10_state.md R35, 30_encoding.md R83). -/
def blockSize (fmt : BitVec 2) : Nat := if fmt = 0 then 8 else 16

/-- BS of the current call (10_state.md R35). -/
def State.blockBytes (s : State) : Nat := blockSize (cmdFormat s.cmd)

/-- OUT_BYTES (10_state.md R35), exact. -/
def State.outBytes (s : State) : Nat := 4 * s.widthPx * s.heightPx

/-- The registers with the values that a call reads (10_state.md R35). -/
def State.registers (s : State) : CallArgs := ⟨s.cmd, s.width, s.height⟩

/-- The state with the registers as the last call read them (10_state.md R24, R35): BX_CNT, BY_CNT, NBLOCKS and BS of
`s.asCalled` are those of that call, whatever the host has written to the registers since (log entry 9). -/
def State.asCalled (s : State) : State := { s with cmd := s.call.cmd, width := s.call.width, height := s.call.height }

/-- `addr(px, py) = 4*(py*width + px)` (20_memory.md R60). -/
def pixelAddr (width px py : Nat) : Nat := 4 * (py * width + px)

end Sys2Proof.Machine
end

