-- ==== Sys2Proof/Machine/Flags.lean ====
section
/-! DEFINITION. The mode flags (10_state.md R32). There are no other flags or condition codes. -/

namespace Sys2Proof.Machine

/-- `OPAQUE4 = (C0RAW > C1RAW)`, unsigned (42_dxt1.md R164). -/
def opaque4Flag (b : Block) : Bool := b.c1raw < b.c0raw

/-- `ALPHA8 = (A0 > A1)`, unsigned (43_dxt5.md R204). -/
def alpha8Flag (b : Block) : Bool := b.a1 < b.a0

end Sys2Proof.Machine
end

