-- ==== Sys2Proof/Machine/Ops.lean ====
section
/-! DEFINITION. The named operations over memory, the stream and the registers, and the error action. -/

namespace Sys2Proof.Machine

/-! OUT (20_memory.md R58-R60). -/

/-- The value listed for an address, if there is one. -/
def cellAt (a : Nat) : List Host.Cell → Option Byte
  | [] => none
  | c :: cs => if c.1 = a then some c.2 else cellAt a cs

/-- Lists a value for an address, keeping the addresses rising. -/
def insertCell (a : Nat) (b : Byte) : List Host.Cell → List Host.Cell
  | [] => [(a, b)]
  | c :: cs =>
    if a < c.1 then (a, b) :: c :: cs
    else if a = c.1 then (a, b) :: cs
    else c :: insertCell a b cs

/-- `OUT[a]` (10_state.md R34): the listed value, else the free value of the epoch (log entry 2). -/
def Memory.read (m : Memory) (a : Nat) : Byte :=
  match cellAt a m.cells with
  | some b => b
  | none => Config.freeOutByte m.epoch a

/-- `OUT[a .. a+n-1]`. -/
def Memory.readBytes (m : Memory) (a : Nat) : Nat → List Byte
  | 0 => []
  | n + 1 => m.read a :: Memory.readBytes m (a + 1) n

/-- The cells listed one after another. -/
def insertCells : List Host.Cell → List Host.Cell → List Host.Cell
  | [], old => old
  | c :: cs, old => insertCells cs (insertCell c.1 c.2 old)

/-- Writes bytes at existing addresses; the first address at or above OUT_CAPACITY faults. -/
def Memory.writeCells (cs : List Host.Cell) (m : Memory) : Except Fault Memory :=
  match cs.find? fun c => m.capacity ≤ c.1 with
  | some c => .error (.outAddress c.1)
  | none => .ok { m with cells := insertCells cs m.cells }

/-- The four bytes of `MemWrite(addr, 4, (r, g, b, a))` (20_memory.md R58). -/
def pixelCells (addr : Nat) (p : Rgba) : List Host.Cell :=
  [(addr, p.r), (addr + 1, p.g), (addr + 2, p.b), (addr + 3, p.a)]

/-- The canonical form of OUT: strictly rising addresses, all below OUT_CAPACITY. -/
abbrev Memory.wf (m : Memory) : Prop :=
  (m.cells.map Prod.fst).Pairwise (· < ·) ∧ ∀ c ∈ m.cells, c.1 < m.capacity

/-- OUT with every byte at any value (U9, U13, U14; log entry 2). OUT itself has the even epochs: this one has an epoch
that no earlier byte was read under. -/
def Memory.forget (m : Memory) : Memory := { m with epoch := m.epoch + 2, cells := [] }

/-- What a host read of OUT sees where the spec says that it sees any value (20_memory.md R59; log entry 2): an odd epoch,
which OUT itself never has. -/
def Memory.anyView (m : Memory) : Memory := { m with epoch := m.epoch + 1, cells := [] }

/-! The stream (20_memory.md R52). -/

/-- `StreamRead(n)`: the next `n` bytes, or IoError when fewer remain. -/
def streamRead (n : Nat) (s : State) : Except HwError (List Byte × State) :=
  if s.stream.length - s.cursor < n then .error .ioError
  else .ok ((s.stream.drop s.cursor).take n, { s with cursor := s.cursor + n })

/-- One field of `n` bytes: a StreamRead assembled in the order FIELD_ORDER (30_encoding.md R85, R86). -/
def readField (n : Nat) (s : State) : Except HwError (Nat × State) :=
  (streamRead n s).map fun r => (fieldValue s.fieldOrder r.1, r.2)

/-! The registers (10_state.md R22-R27). -/

/-- STATUS as a 32-bit word: STATE in 1:0, the rest 0 (R26). -/
def statusWord : Phase → Word
  | .idle => 0
  | .busy => 1
  | .done => 2
  | .error => 3

/-- ERRCODE as a 32-bit word: CODE in 2:0, the rest 0 (R27). -/
def errcodeWord : ErrCode → Word
  | .none => 0
  | .arg => 1
  | .io => 2
  | .buf => 3
  | .cmd => 4

/-- A CMD word with START read as 0 (R23). -/
def clearStart (w : Word) : Word := w &&& 0xFFFFFFEF

/-- The register at an offset (R22), as the host reads it. -/
def State.readReg (s : State) (offset : Nat) : Option Word :=
  if offset = HostReg.cmd.offset then some (clearStart s.cmd)
  else if offset = HostReg.width.offset then some s.width
  else if offset = HostReg.height.offset then some s.height
  else if offset = HostReg.status.offset then some (statusWord s.phase)
  else if offset = HostReg.errcode.offset then some (errcodeWord s.errcode)
  else none

/-! The block's pixels. -/

/-- `PIX[i] <- p`. -/
def State.setPixel (s : State) (i : PixelIx) (p : Rgba) : State := { s with pix := s.pix.set i.val p }

/-- `PIX[i]`. -/
def State.pixel (s : State) (i : PixelIx) : Rgba := s.pix[i.val]

/-- `rgb(i) <- c`: the colour of pixel `i`, its alpha kept (43_dxt5.md R212, R220-R223). -/
def State.setPixelRgb (s : State) (i : PixelIx) (c : Rgb) : State :=
  s.setPixel i ⟨c.r, c.g, c.b, (s.pixel i).a⟩

/-- `alpha(i) <- v`: the alpha of pixel `i`, its colour kept (43_dxt5.md R212, R230-R247). -/
def State.setPixelAlpha (s : State) (i : PixelIx) (v : Byte) : State :=
  s.setPixel i ⟨(s.pixel i).r, (s.pixel i).g, (s.pixel i).b, v⟩

/-- The end of a block step: BLK, the mode flags and the pixels have no defined value any more (10_state.md R31, R32,
U12; log entry 4). -/
def State.endBlock (s : State) : State :=
  let f := Config.freeTransient s.fresh
  { s with blk := f.blk, opaque4 := f.opaque4, alpha8 := f.alpha8, pix := f.pix, fresh := s.fresh + 1 }

/-! Taking an error (60_exceptions.md R306). -/

/-- The code of an error (60_exceptions.md R300). -/
def HwError.code : HwError → ErrCode
  | .argError => .arg
  | .ioError => .io
  | .bufError => .buf
  | .cmdError => .cmd

/-- `raise E` (60_exceptions.md R306): ERRCODE is the code, STATE is ERROR, and OUT and CURSOR have any value
(log entries 2, 3). -/
def State.raise (s : State) (e : HwError) : State :=
  { s with
    errcode := e.code
    phase := .error
    cursor := Config.freeCursor s.fresh
    out := s.out.forget
    fresh := s.fresh + 1 }

/-- The way out of ERROR by a START that passes (60_exceptions.md R308, 44_assembler.md R260): ERRCODE is NONE, the
call begins at the first block, and its arguments are the registers' values at that time (10_state.md R24, R35). -/
def State.beginCall (s : State) : State :=
  { s with errcode := .none, cursor := 0, blkX := 0, blkY := 0, phase := .busy, call := s.registers }

/-- Reset (70_reset_and_hazards.md R330): the state of 10_state.md R36. The parameters, what the host has presented, its
agenda and its replies are not the decoder's state and stay (log entry 7); OUT has any value (log entry 2). -/
def State.hostReset (s : State) : State :=
  { State.reset with
    out := s.out.forget
    fieldOrder := s.fieldOrder
    presented := s.presented
    agenda := s.agenda
    replies := s.replies
    fresh := s.fresh }

end Sys2Proof.Machine
end

