-- ==== Sys2Proof/Machine/Assembler.lean ====
section
/-! DEFINITION. The output assembler (44_assembler.md R252-R258). -/

namespace Sys2Proof.Machine

/-- `px = 4*BLK_X + bx` (44_assembler.md R252). -/
def State.pixelX (s : State) (i : PixelIx) : Nat := 4 * s.blkX + pixelCol i

/-- `py = 4*BLK_Y + by` (44_assembler.md R252). -/
def State.pixelY (s : State) (i : PixelIx) : Nat := 4 * s.blkY + pixelRow i

/-- A pixel is in bounds when `px < width` and `py < height` (44_assembler.md R253). -/
def State.inBounds (s : State) (i : PixelIx) : Bool := s.pixelX i < s.widthPx && s.pixelY i < s.heightPx

/-- The address that pixel `i` of the current block is written at (20_memory.md R60). -/
def State.pixelAddress (s : State) (i : PixelIx) : Nat := pixelAddr s.widthPx (s.pixelX i) (s.pixelY i)

/-- The bytes that ASSEMBLE writes for one pixel: four, or none when it is discarded (44_assembler.md R253, R256). -/
def State.cellsOfPixel (s : State) (i : PixelIx) : List Host.Cell :=
  if s.inBounds i then pixelCells (s.pixelAddress i) (s.pixel i) else []

/-- The bytes that ASSEMBLE writes, in the order of its two loops (44_assembler.md R256). -/
def State.cellsOfBlock (s : State) : List Host.Cell := (List.finRange 16).flatMap s.cellsOfPixel

/-- `ASSEMBLE(PIX, BLK_X, BLK_Y)` (44_assembler.md R256). -/
def assemble (s : State) : Except Fault State :=
  (s.out.writeCells s.cellsOfBlock).map fun m => { s with out := m }

/-- ASSEMBLE (44_assembler.md R256). -/
def execAssemble (s : State) : Result :=
  match assemble s with
  | .ok t => .next t
  | .error f => .fault f

end Sys2Proof.Machine
end

