-- ==== Sys2Proof/Machine/Commands.lean ====
section
/-! DEFINITION. START handling and the two decode commands (44_assembler.md R260, R270, R271). -/

namespace Sys2Proof.Machine

/-- The checks of START in their order (44_assembler.md R260, 60_exceptions.md R302, R303, R305, R307): the error it
raises, if any. -/
def startError (w : Word) (s : State) : Option HwError :=
  if !cmdReservedZero w || cmdFormat w = 2 || cmdFormat w = 3 then some .cmdError
  else if s.widthInt ≤ 0 || s.heightInt ≤ 0 then some .argError
  else if (s.out.capacity : Int) < 4 * s.widthInt * s.heightInt then some .bufError
  else none

/-- What START does before its checks: CMD is stored with bit 4 cleared (44_assembler.md R260), and the stream that the
host presented is the stream of this START (20_memory.md R51; log entry 7). -/
def State.acceptStart (s : State) (w : Word) : State :=
  { s with cmd := clearStart w, stream := s.presented, presented := [] }

/-- `START(w)` while STATE is not BUSY (44_assembler.md R260). -/
def startCall (w : Word) (s : State) : State :=
  match startError w s with
  | some e => (s.acceptStart w).raise e
  | none => (s.acceptStart w).beginCall

/-- The host's write of CMD with START = 1: refused while STATE = BUSY (10_state.md R28, 44_assembler.md R260). -/
def start (w : Word) (s : State) : Result :=
  if s.phase = .busy then .refused .busyWrite else .next (startCall w s)

/-- DECODE_DXT1 (44_assembler.md R270): `START(0x00000010)`; the block steps that follow are the engine's. -/
def execDecodeDxt1 (s : State) : Result := start 0x00000010 s

/-- DECODE_DXT5 (44_assembler.md R271): `START(0x00000011)`; the block steps that follow are the engine's. -/
def execDecodeDxt5 (s : State) : Result := start 0x00000011 s

end Sys2Proof.Machine
end

