-- ==== Sys2Proof/Machine/Expand.lean ====
section
/-! DEFINITION. The RGB565 to RGB888 expander (40_expand565.md). -/

namespace Sys2Proof.Machine

/-- `E5(v)` (40_expand565.md R121): truncating divisions over natural numbers. -/
def e5 (v : Nat) : Nat := ((v * 255 + 16) / 32 + (v * 255 + 16)) / 32

/-- `E6(v)` (40_expand565.md R122). -/
def e6 (v : Nat) : Nat := ((v * 255 + 32) / 64 + (v * 255 + 32)) / 64

/-- `EXPAND565(c)` (40_expand565.md R120); `BitVec.ofNat 8` is its `& 0xFF`. -/
def expand565 (c : BitVec 16) : Rgb :=
  ⟨BitVec.ofNat 8 (e5 (red5 c)), BitVec.ofNat 8 (e6 (green6 c)), BitVec.ofNat 8 (e5 (blue5 c))⟩

/-- `c0 = EXPAND565(C0RAW)` (42_dxt1.md R165, 43_dxt5.md R205). -/
def blockC0 (b : Block) : Rgb := expand565 b.c0raw

/-- `c1 = EXPAND565(C1RAW)` (42_dxt1.md R165, 43_dxt5.md R205). -/
def blockC1 (b : Block) : Rgb := expand565 b.c1raw

/-- EXPAND565 driven by itself (40_expand565.md R120). -/
def execExpand565 (c : BitVec 16) (s : State) : Result := .next { s with unitRgb := expand565 c }

end Sys2Proof.Machine
end

