-- ==== Sys2Proof/Machine/Interpolate.lean ====
section
/-! DEFINITION. The weighted blend unit (41_interpolate.md): unsigned 8-bit operands, truncating divisions over natural
numbers. -/

namespace Sys2Proof.Machine

/-- `AVG2(a, b)` (41_interpolate.md R140). -/
def avg2 (a b : Byte) : Byte := BitVec.ofNat 8 ((a.toNat + b.toNat) / 2)

/-- `WEIGHTED3(oneThird, twoThirds)` (41_interpolate.md R141). -/
def weighted3 (oneThird twoThirds : Byte) : Byte := BitVec.ofNat 8 ((oneThird.toNat + 2 * twoThirds.toNat) / 3)

/-- `AVG2_RGB` (41_interpolate.md R142): lane by lane. -/
def avg2Rgb (x y : Rgb) : Rgb := ⟨avg2 x.r y.r, avg2 x.g y.g, avg2 x.b y.b⟩

/-- `W3_RGB` (41_interpolate.md R142): lane by lane. -/
def w3Rgb (x y : Rgb) : Rgb := ⟨weighted3 x.r y.r, weighted3 x.g y.g, weighted3 x.b y.b⟩

/-- `RAMP7(ai, a0, a1)` (41_interpolate.md R143); outside 2..7 a free value (log entry 11). -/
def ramp7 (ai : BitVec 3) (a0 a1 : Byte) : Byte :=
  if ramp7Domain ai then BitVec.ofNat 8 (((8 - ai.toNat) * a0.toNat + (ai.toNat - 1) * a1.toNat) / 7)
  else Config.freeRamp7 ai a0 a1

/-- `RAMP5(ai, a0, a1)` (41_interpolate.md R144); outside 2..5 a free value (log entry 11). -/
def ramp5 (ai : BitVec 3) (a0 a1 : Byte) : Byte :=
  if ramp5Domain ai then BitVec.ofNat 8 (((6 - ai.toNat) * a0.toNat + (ai.toNat - 1) * a1.toNat) / 5)
  else Config.freeRamp5 ai a0 a1

/-- AVG2 driven by itself (41_interpolate.md R140). -/
def execAvg2 (a b : Byte) (s : State) : Result := .next { s with unitVal := avg2 a b }

/-- WEIGHTED3 driven by itself (41_interpolate.md R141). -/
def execWeighted3 (oneThird twoThirds : Byte) (s : State) : Result :=
  .next { s with unitVal := weighted3 oneThird twoThirds }

/-- RAMP7 driven by itself (41_interpolate.md R143). -/
def execRamp7 (ai : BitVec 3) (a0 a1 : Byte) (s : State) : Result := .next { s with unitVal := ramp7 ai a0 a1 }

/-- RAMP5 driven by itself (41_interpolate.md R144). -/
def execRamp5 (ai : BitVec 3) (a0 a1 : Byte) (s : State) : Result := .next { s with unitVal := ramp5 ai a0 a1 }

end Sys2Proof.Machine
end

