-- ==== Sys2Proof/Machine/Dxt1.lean ====
section
/-! DEFINITION. The DXT1 block decoder (42_dxt1.md): the colour of each selector in each mode, the selector words driven
by themselves, and DXT1_BLOCK. -/

namespace Sys2Proof.Machine

/-- `(c, a)`: a colour with an alpha (42_dxt1.md R166). -/
def withAlpha (c : Rgb) (a : Byte) : Rgba := ⟨c.r, c.g, c.b, a⟩

/-- Opaque mode, selector 0 (42_dxt1.md R170). -/
def dxt1C4S0Pixel (b : Block) : Rgba := withAlpha (blockC0 b) 255

/-- Opaque mode, selector 1 (42_dxt1.md R171). -/
def dxt1C4S1Pixel (b : Block) : Rgba := withAlpha (blockC1 b) 255

/-- Opaque mode, selector 2: nearer `c0` (42_dxt1.md R172). -/
def dxt1C4S2Pixel (b : Block) : Rgba := withAlpha (w3Rgb (blockC1 b) (blockC0 b)) 255

/-- Opaque mode, selector 3: nearer `c1` (42_dxt1.md R173). -/
def dxt1C4S3Pixel (b : Block) : Rgba := withAlpha (w3Rgb (blockC0 b) (blockC1 b)) 255

/-- Punch-through mode, selector 0 (42_dxt1.md R174; alpha 255 by D28). -/
def dxt1C3S0Pixel (b : Block) : Rgba := withAlpha (blockC0 b) 255

/-- Punch-through mode, selector 1 (42_dxt1.md R175; alpha 255 by D28). -/
def dxt1C3S1Pixel (b : Block) : Rgba := withAlpha (blockC1 b) 255

/-- Punch-through mode, selector 2: the midpoint (42_dxt1.md R176). -/
def dxt1C3S2Pixel (b : Block) : Rgba := withAlpha (avg2Rgb (blockC0 b) (blockC1 b)) 255

/-- Punch-through mode, selector 3: transparent black (42_dxt1.md R177, 90_conflicts.md C1). -/
def dxt1C3S3Pixel (_b : Block) : Rgba := ⟨0, 0, 0, 0⟩

/-- DXT1.C4.S0 (42_dxt1.md R170). -/
def execDxt1C4S0 (i : PixelIx) (s : State) : Result := .next (s.setPixel i (dxt1C4S0Pixel s.blk))

/-- DXT1.C4.S1 (42_dxt1.md R171). -/
def execDxt1C4S1 (i : PixelIx) (s : State) : Result := .next (s.setPixel i (dxt1C4S1Pixel s.blk))

/-- DXT1.C4.S2 (42_dxt1.md R172). -/
def execDxt1C4S2 (i : PixelIx) (s : State) : Result := .next (s.setPixel i (dxt1C4S2Pixel s.blk))

/-- DXT1.C4.S3 (42_dxt1.md R173). -/
def execDxt1C4S3 (i : PixelIx) (s : State) : Result := .next (s.setPixel i (dxt1C4S3Pixel s.blk))

/-- DXT1.C3.S0 (42_dxt1.md R174). -/
def execDxt1C3S0 (i : PixelIx) (s : State) : Result := .next (s.setPixel i (dxt1C3S0Pixel s.blk))

/-- DXT1.C3.S1 (42_dxt1.md R175). -/
def execDxt1C3S1 (i : PixelIx) (s : State) : Result := .next (s.setPixel i (dxt1C3S1Pixel s.blk))

/-- DXT1.C3.S2 (42_dxt1.md R176). -/
def execDxt1C3S2 (i : PixelIx) (s : State) : Result := .next (s.setPixel i (dxt1C3S2Pixel s.blk))

/-- DXT1.C3.S3 (42_dxt1.md R177). -/
def execDxt1C3S3 (i : PixelIx) (s : State) : Result := .next (s.setPixel i (dxt1C3S3Pixel s.blk))

/-- `DXT1_PALETTE(OPAQUE4, c0, c1)` (42_dxt1.md R166). -/
def dxt1Palette (opaque4 : Bool) (b : Block) (sel : BitVec 2) : Rgba :=
  if opaque4 then
    if sel = 0 then dxt1C4S0Pixel b
    else if sel = 1 then dxt1C4S1Pixel b
    else if sel = 2 then dxt1C4S2Pixel b
    else dxt1C4S3Pixel b
  else
    if sel = 0 then dxt1C3S0Pixel b
    else if sel = 1 then dxt1C3S1Pixel b
    else if sel = 2 then dxt1C3S2Pixel b
    else dxt1C3S3Pixel b

/-- The sixteen pixels of a DXT1 block: `PIX[i] = PAL[sel(i)]` (42_dxt1.md R167). -/
def dxt1Pixels (b : Block) : Pixels :=
  Vector.ofFn fun i : PixelIx => dxt1Palette (opaque4Flag b) b (colourSel b.cidx i)

/-- `DXT1_FETCH()` (30_encoding.md R85). -/
def dxt1Fetch (s : State) : Except HwError State := do
  let (c0, s) ← readField 2 s
  let (c1, s) ← readField 2 s
  let (ix, s) ← readField 4 s
  return { s with blk := { s.blk with c0raw := BitVec.ofNat 16 c0, c1raw := BitVec.ofNat 16 c1, cidx := BitVec.ofNat 32 ix } }

/-- `DXT1_BLOCK()` (42_dxt1.md R160): the fetch, the mode, the pixels. IoError leaves nothing computed. -/
def dxt1Block (s : State) : Except HwError State :=
  (dxt1Fetch s).map fun s => { s with opaque4 := opaque4Flag s.blk, pix := dxt1Pixels s.blk }

/-- DXT1_BLOCK (42_dxt1.md R160); IoError by 60_exceptions.md R304, R306. -/
def execDxt1Block (s : State) : Result :=
  match dxt1Block s with
  | .ok t => .next t
  | .error e => .next (s.raise e)

end Sys2Proof.Machine
end

