-- ==== Sys2Proof/Machine/Dxt5.lean ====
section
/-! DEFINITION. The DXT5 block decoder (43_dxt5.md): the colour of each selector, the alpha of each selector in each
ramp, the selector words driven by themselves, and DXT5_BLOCK. -/

namespace Sys2Proof.Machine

/-- Colour selector 0, in any order of C0RAW and C1RAW (43_dxt5.md R220). -/
def dxt5CS0Rgb (b : Block) : Rgb := blockC0 b

/-- Colour selector 1, in any order of C0RAW and C1RAW (43_dxt5.md R221). -/
def dxt5CS1Rgb (b : Block) : Rgb := blockC1 b

/-- Colour selector 2, in any order of C0RAW and C1RAW (43_dxt5.md R222). -/
def dxt5CS2Rgb (b : Block) : Rgb := w3Rgb (blockC1 b) (blockC0 b)

/-- Colour selector 3, in any order of C0RAW and C1RAW (43_dxt5.md R223). -/
def dxt5CS3Rgb (b : Block) : Rgb := w3Rgb (blockC0 b) (blockC1 b)

/-- 7-step ramp, alpha selector 0 (43_dxt5.md R230). -/
def dxt5A8S0Alpha (b : Block) : Byte := b.a0

/-- 7-step ramp, alpha selector 1 (43_dxt5.md R231). -/
def dxt5A8S1Alpha (b : Block) : Byte := b.a1

/-- 7-step ramp, alpha selector 2 (43_dxt5.md R232). -/
def dxt5A8S2Alpha (b : Block) : Byte := ramp7 2 b.a0 b.a1

/-- 7-step ramp, alpha selector 3 (43_dxt5.md R233). -/
def dxt5A8S3Alpha (b : Block) : Byte := ramp7 3 b.a0 b.a1

/-- 7-step ramp, alpha selector 4 (43_dxt5.md R234). -/
def dxt5A8S4Alpha (b : Block) : Byte := ramp7 4 b.a0 b.a1

/-- 7-step ramp, alpha selector 5 (43_dxt5.md R235). -/
def dxt5A8S5Alpha (b : Block) : Byte := ramp7 5 b.a0 b.a1

/-- 7-step ramp, alpha selector 6 (43_dxt5.md R236). -/
def dxt5A8S6Alpha (b : Block) : Byte := ramp7 6 b.a0 b.a1

/-- 7-step ramp, alpha selector 7 (43_dxt5.md R237). -/
def dxt5A8S7Alpha (b : Block) : Byte := ramp7 7 b.a0 b.a1

/-- 5-step ramp, alpha selector 0 (43_dxt5.md R240). -/
def dxt5A6S0Alpha (b : Block) : Byte := b.a0

/-- 5-step ramp, alpha selector 1 (43_dxt5.md R241). -/
def dxt5A6S1Alpha (b : Block) : Byte := b.a1

/-- 5-step ramp, alpha selector 2 (43_dxt5.md R242). -/
def dxt5A6S2Alpha (b : Block) : Byte := ramp5 2 b.a0 b.a1

/-- 5-step ramp, alpha selector 3 (43_dxt5.md R243). -/
def dxt5A6S3Alpha (b : Block) : Byte := ramp5 3 b.a0 b.a1

/-- 5-step ramp, alpha selector 4 (43_dxt5.md R244). -/
def dxt5A6S4Alpha (b : Block) : Byte := ramp5 4 b.a0 b.a1

/-- 5-step ramp, alpha selector 5 (43_dxt5.md R245). -/
def dxt5A6S5Alpha (b : Block) : Byte := ramp5 5 b.a0 b.a1

/-- 5-step ramp, alpha selector 6 (43_dxt5.md R246). -/
def dxt5A6S6Alpha (_b : Block) : Byte := 0

/-- 5-step ramp, alpha selector 7 (43_dxt5.md R247). -/
def dxt5A6S7Alpha (_b : Block) : Byte := 255

/-- DXT5.C.S0 (43_dxt5.md R220). -/
def execDxt5CS0 (i : PixelIx) (s : State) : Result := .next (s.setPixelRgb i (dxt5CS0Rgb s.blk))

/-- DXT5.C.S1 (43_dxt5.md R221). -/
def execDxt5CS1 (i : PixelIx) (s : State) : Result := .next (s.setPixelRgb i (dxt5CS1Rgb s.blk))

/-- DXT5.C.S2 (43_dxt5.md R222). -/
def execDxt5CS2 (i : PixelIx) (s : State) : Result := .next (s.setPixelRgb i (dxt5CS2Rgb s.blk))

/-- DXT5.C.S3 (43_dxt5.md R223). -/
def execDxt5CS3 (i : PixelIx) (s : State) : Result := .next (s.setPixelRgb i (dxt5CS3Rgb s.blk))

/-- DXT5.A8.S0 (43_dxt5.md R230). -/
def execDxt5A8S0 (i : PixelIx) (s : State) : Result := .next (s.setPixelAlpha i (dxt5A8S0Alpha s.blk))

/-- DXT5.A8.S1 (43_dxt5.md R231). -/
def execDxt5A8S1 (i : PixelIx) (s : State) : Result := .next (s.setPixelAlpha i (dxt5A8S1Alpha s.blk))

/-- DXT5.A8.S2 (43_dxt5.md R232). -/
def execDxt5A8S2 (i : PixelIx) (s : State) : Result := .next (s.setPixelAlpha i (dxt5A8S2Alpha s.blk))

/-- DXT5.A8.S3 (43_dxt5.md R233). -/
def execDxt5A8S3 (i : PixelIx) (s : State) : Result := .next (s.setPixelAlpha i (dxt5A8S3Alpha s.blk))

/-- DXT5.A8.S4 (43_dxt5.md R234). -/
def execDxt5A8S4 (i : PixelIx) (s : State) : Result := .next (s.setPixelAlpha i (dxt5A8S4Alpha s.blk))

/-- DXT5.A8.S5 (43_dxt5.md R235). -/
def execDxt5A8S5 (i : PixelIx) (s : State) : Result := .next (s.setPixelAlpha i (dxt5A8S5Alpha s.blk))

/-- DXT5.A8.S6 (43_dxt5.md R236). -/
def execDxt5A8S6 (i : PixelIx) (s : State) : Result := .next (s.setPixelAlpha i (dxt5A8S6Alpha s.blk))

/-- DXT5.A8.S7 (43_dxt5.md R237). -/
def execDxt5A8S7 (i : PixelIx) (s : State) : Result := .next (s.setPixelAlpha i (dxt5A8S7Alpha s.blk))

/-- DXT5.A6.S0 (43_dxt5.md R240). -/
def execDxt5A6S0 (i : PixelIx) (s : State) : Result := .next (s.setPixelAlpha i (dxt5A6S0Alpha s.blk))

/-- DXT5.A6.S1 (43_dxt5.md R241). -/
def execDxt5A6S1 (i : PixelIx) (s : State) : Result := .next (s.setPixelAlpha i (dxt5A6S1Alpha s.blk))

/-- DXT5.A6.S2 (43_dxt5.md R242). -/
def execDxt5A6S2 (i : PixelIx) (s : State) : Result := .next (s.setPixelAlpha i (dxt5A6S2Alpha s.blk))

/-- DXT5.A6.S3 (43_dxt5.md R243). -/
def execDxt5A6S3 (i : PixelIx) (s : State) : Result := .next (s.setPixelAlpha i (dxt5A6S3Alpha s.blk))

/-- DXT5.A6.S4 (43_dxt5.md R244). -/
def execDxt5A6S4 (i : PixelIx) (s : State) : Result := .next (s.setPixelAlpha i (dxt5A6S4Alpha s.blk))

/-- DXT5.A6.S5 (43_dxt5.md R245). -/
def execDxt5A6S5 (i : PixelIx) (s : State) : Result := .next (s.setPixelAlpha i (dxt5A6S5Alpha s.blk))

/-- DXT5.A6.S6 (43_dxt5.md R246). -/
def execDxt5A6S6 (i : PixelIx) (s : State) : Result := .next (s.setPixelAlpha i (dxt5A6S6Alpha s.blk))

/-- DXT5.A6.S7 (43_dxt5.md R247). -/
def execDxt5A6S7 (i : PixelIx) (s : State) : Result := .next (s.setPixelAlpha i (dxt5A6S7Alpha s.blk))

/-- `DXT5_PALETTE(c0, c1)` (43_dxt5.md R206): no mode. -/
def dxt5Palette (b : Block) (sel : BitVec 2) : Rgb :=
  if sel = 0 then dxt5CS0Rgb b
  else if sel = 1 then dxt5CS1Rgb b
  else if sel = 2 then dxt5CS2Rgb b
  else dxt5CS3Rgb b

/-- `ALPHA_PALETTE(ALPHA8, A0, A1)` (43_dxt5.md R210). -/
def alphaPalette (alpha8 : Bool) (b : Block) (asel : BitVec 3) : Byte :=
  if alpha8 then
    if asel = 0 then dxt5A8S0Alpha b
    else if asel = 1 then dxt5A8S1Alpha b
    else if asel = 2 then dxt5A8S2Alpha b
    else if asel = 3 then dxt5A8S3Alpha b
    else if asel = 4 then dxt5A8S4Alpha b
    else if asel = 5 then dxt5A8S5Alpha b
    else if asel = 6 then dxt5A8S6Alpha b
    else dxt5A8S7Alpha b
  else
    if asel = 0 then dxt5A6S0Alpha b
    else if asel = 1 then dxt5A6S1Alpha b
    else if asel = 2 then dxt5A6S2Alpha b
    else if asel = 3 then dxt5A6S3Alpha b
    else if asel = 4 then dxt5A6S4Alpha b
    else if asel = 5 then dxt5A6S5Alpha b
    else if asel = 6 then dxt5A6S6Alpha b
    else dxt5A6S7Alpha b

/-- A colour and an alpha combined (43_dxt5.md R212). -/
def combine (c : Rgb) (a : Byte) : Rgba := ⟨c.r, c.g, c.b, a⟩

/-- The sixteen pixels of a DXT5 block (43_dxt5.md R200, R212). -/
def dxt5Pixels (b : Block) : Pixels :=
  Vector.ofFn fun i : PixelIx =>
    combine (dxt5Palette b (colourSel b.cidx i)) (alphaPalette (alpha8Flag b) b (alphaSel b.amask i))

/-- `DXT5_FETCH()` (30_encoding.md R86). -/
def dxt5Fetch (s : State) : Except HwError State := do
  let (a0, s) ← readField 1 s
  let (a1, s) ← readField 1 s
  let (am, s) ← readField 6 s
  let (c0, s) ← readField 2 s
  let (c1, s) ← readField 2 s
  let (ix, s) ← readField 4 s
  return { s with blk := ⟨BitVec.ofNat 8 a0, BitVec.ofNat 8 a1, BitVec.ofNat 48 am, BitVec.ofNat 16 c0, BitVec.ofNat 16 c1,
    BitVec.ofNat 32 ix⟩ }

/-- `DXT5_BLOCK()` (43_dxt5.md R200): the fetch, the alpha mode, the pixels. OPAQUE4 is not computed. -/
def dxt5Block (s : State) : Except HwError State :=
  (dxt5Fetch s).map fun s => { s with alpha8 := alpha8Flag s.blk, pix := dxt5Pixels s.blk }

/-- DXT5_BLOCK (43_dxt5.md R200); IoError by 60_exceptions.md R304, R306. -/
def execDxt5Block (s : State) : Result :=
  match dxt5Block s with
  | .ok t => .next t
  | .error e => .next (s.raise e)

end Sys2Proof.Machine
end

