-- ==== Sys2Proof/Machine/Dispatch.lean ====
section
/-! DEFINITION. The meaning of every row of the opcode table, one arm per constructor. -/

namespace Sys2Proof.Machine

def exec (i : Instr) (s : State) : Host.Outcome State Fault Refusal :=
  match i with
  | .decodeDxt1 => Sys2Proof.Machine.execDecodeDxt1 s
  | .decodeDxt5 => Sys2Proof.Machine.execDecodeDxt5 s
  | .dxt1C4S0 p => Sys2Proof.Machine.execDxt1C4S0 p s
  | .dxt1C4S1 p => Sys2Proof.Machine.execDxt1C4S1 p s
  | .dxt1C4S2 p => Sys2Proof.Machine.execDxt1C4S2 p s
  | .dxt1C4S3 p => Sys2Proof.Machine.execDxt1C4S3 p s
  | .dxt1C3S0 p => Sys2Proof.Machine.execDxt1C3S0 p s
  | .dxt1C3S1 p => Sys2Proof.Machine.execDxt1C3S1 p s
  | .dxt1C3S2 p => Sys2Proof.Machine.execDxt1C3S2 p s
  | .dxt1C3S3 p => Sys2Proof.Machine.execDxt1C3S3 p s
  | .dxt5CS0 p => Sys2Proof.Machine.execDxt5CS0 p s
  | .dxt5CS1 p => Sys2Proof.Machine.execDxt5CS1 p s
  | .dxt5CS2 p => Sys2Proof.Machine.execDxt5CS2 p s
  | .dxt5CS3 p => Sys2Proof.Machine.execDxt5CS3 p s
  | .dxt5A8S0 p => Sys2Proof.Machine.execDxt5A8S0 p s
  | .dxt5A8S1 p => Sys2Proof.Machine.execDxt5A8S1 p s
  | .dxt5A8S2 p => Sys2Proof.Machine.execDxt5A8S2 p s
  | .dxt5A8S3 p => Sys2Proof.Machine.execDxt5A8S3 p s
  | .dxt5A8S4 p => Sys2Proof.Machine.execDxt5A8S4 p s
  | .dxt5A8S5 p => Sys2Proof.Machine.execDxt5A8S5 p s
  | .dxt5A8S6 p => Sys2Proof.Machine.execDxt5A8S6 p s
  | .dxt5A8S7 p => Sys2Proof.Machine.execDxt5A8S7 p s
  | .dxt5A6S0 p => Sys2Proof.Machine.execDxt5A6S0 p s
  | .dxt5A6S1 p => Sys2Proof.Machine.execDxt5A6S1 p s
  | .dxt5A6S2 p => Sys2Proof.Machine.execDxt5A6S2 p s
  | .dxt5A6S3 p => Sys2Proof.Machine.execDxt5A6S3 p s
  | .dxt5A6S4 p => Sys2Proof.Machine.execDxt5A6S4 p s
  | .dxt5A6S5 p => Sys2Proof.Machine.execDxt5A6S5 p s
  | .dxt5A6S6 p => Sys2Proof.Machine.execDxt5A6S6 p s
  | .dxt5A6S7 p => Sys2Proof.Machine.execDxt5A6S7 p s
  | .expand565 c => Sys2Proof.Machine.execExpand565 c s
  | .avg2 a b => Sys2Proof.Machine.execAvg2 a b s
  | .weighted3 x y => Sys2Proof.Machine.execWeighted3 x y s
  | .ramp7 ai a0 a1 => Sys2Proof.Machine.execRamp7 ai a0 a1 s
  | .ramp5 ai a0 a1 => Sys2Proof.Machine.execRamp5 ai a0 a1 s
  | .dxt1Block => Sys2Proof.Machine.execDxt1Block s
  | .dxt5Block => Sys2Proof.Machine.execDxt5Block s
  | .assemble => Sys2Proof.Machine.execAssemble s

end Sys2Proof.Machine
end

