-- ==== Sys2Proof/Machine/Sequencer.lean ====
section
/-! DEFINITION. The block sequencer (44_assembler.md R262), the host's actions (30_encoding.md R93,
70_reset_and_hazards.md R345), and whose turn it is (log entry 1). -/

namespace Sys2Proof.Machine

/-! The decoder engine. -/

/-- The block decoder that CMD[1:0] selects (44_assembler.md R262). -/
def State.blockInstr (s : State) : Instr := if cmdFormat s.cmd = 0 then .dxt1Block else .dxt5Block

/-- The counters move to the next block (44_assembler.md R251, R262). -/
def State.nextBlock (s : State) : State :=
  if s.blkX + 1 = s.bxCnt then { s with blkX := 0, blkY := s.blkY + 1 } else { s with blkX := s.blkX + 1 }

/-- DONE after the last block row (44_assembler.md R262, R264). -/
def State.closeCall (s : State) : State := if s.blkY = s.byCnt then { s with phase := .done } else s

/-- The advance at the end of a block step (44_assembler.md R262). -/
def State.advance (s : State) : State := s.nextBlock.closeCall

/-- The rest of a block step once the block is decoded: ASSEMBLE, the advance, the end of the block. -/
def finishBlock (s : State) : Result :=
  match exec .assemble s with
  | .next t => .next t.advance.endBlock
  | .fault f => .fault f
  | .refused r => .refused r

/-- `BLOCK_STEP()` (44_assembler.md R262). An IoError ends the step before ASSEMBLE (60_exceptions.md R306). -/
def blockStep (s : State) : Result :=
  match exec s.blockInstr s with
  | .next t => if t.phase = .error then .next t.endBlock else finishBlock t
  | .fault f => .fault f
  | .refused r => .refused r

/-- The engine's turn: a block step exactly when STATE = BUSY, else it has no enabled step and nothing changes
(44_assembler.md R262, R264; 70_reset_and_hazards.md R331). -/
def engineTurn (s : State) : Result := if s.phase = .busy then blockStep s else .next s

/-! The host. -/

/-- What the host got back is kept. -/
def State.reply (s : State) (r : Reply) : State := { s with replies := r :: s.replies }

/-- A write of CMD (10_state.md R23, 30_encoding.md R81, R82): the two commands run as rows of the opcode table, any
other word with START = 1 is a START that raises CmdError, a word with START = 0 is only stored. -/
def writeCmd (w : Word) (s : State) : Result :=
  match decodeCommand w with
  | .ok i => exec i s
  | .error .noStart => if s.phase = .busy then .refused .busyWrite else .next { s with cmd := w }
  | .error _ => start w s

/-- A 32-bit register write (10_state.md R22, R28). -/
def hostWrite (offset : Nat) (v : Word) (s : State) : Result :=
  if offset = HostReg.cmd.offset then writeCmd v s
  else if offset = HostReg.width.offset then
    (if s.phase = .busy then .refused .busyWrite else .next { s with width := v })
  else if offset = HostReg.height.offset then
    (if s.phase = .busy then .refused .busyWrite else .next { s with height := v })
  else if offset = HostReg.status.offset || offset = HostReg.errcode.offset then .refused (.readOnlyWrite offset)
  else .refused (.hostOffset offset)

/-- A 32-bit register read (10_state.md R22, R28, 20_memory.md R63). -/
def hostRead (offset : Nat) (s : State) : Result :=
  match s.readReg offset with
  | some v => .next (s.reply (.reg offset v))
  | none => .refused (.hostOffset offset)

/-- The bytes that a host read of OUT returns (20_memory.md R59): those of OUT in DONE, any value in IDLE and ERROR
(log entry 2). -/
def hostOutBytes (s : State) (addr n : Nat) : List Byte :=
  if s.phase = .done then s.out.readBytes addr n else s.out.anyView.readBytes addr n

/-- `MemRead(addr, n)` (20_memory.md R59, R62, 70_reset_and_hazards.md R343). -/
def hostMemRead (addr n : Nat) (s : State) : Result :=
  if s.phase = .busy then .refused .busyOutRead
  else if n = 0 then .refused .emptyOutRead
  else if s.out.capacity < addr + n then .refused .outReadPastEnd
  else .next (s.reply (.mem addr (hostOutBytes s addr n)))

/-- Whether a decode call has ended (44_assembler.md R264). -/
def callEnded : Phase → Bool
  | .done | .error => true
  | .idle | .busy => false

/-- `WAIT` (30_encoding.md R93): one `RD STATUS`; while STATE is neither DONE nor ERROR the engine gets a turn and the
host waits on. -/
def hostWait (s : State) : Result :=
  let t := s.reply (.reg HostReg.status.offset (statusWord s.phase))
  if callEnded s.phase then .next t else .next { t with agenda := .engine :: .host .wait :: t.agenda }

/-- One host action. -/
def hostAct (a : HostAction) (s : State) : Result :=
  match a with
  | .write offset width v => if width = 32 then hostWrite offset v s else .refused (.hostWidth width)
  | .read offset width => if width = 32 then hostRead offset s else .refused (.hostWidth width)
  | .stream bytes => .next { s with presented := bytes }
  | .wait => hostWait s
  | .memRead addr n => hostMemRead addr n s
  | .reset => .next s.hostReset

/-! Host programs (30_encoding.md R93, R94). -/

/-- `WR <reg>, <imm32>`. -/
def wr (r : HostReg) (v : Word) : Event := .host (.write r.offset 32 v)

/-- `RD <reg>`. -/
def rd (r : HostReg) : Event := .host (.read r.offset 32)

/-- `DECODE.DXT1 <w>, <h>` (30_encoding.md R94). -/
def decodeDxt1Program (w h : Int) : List Event :=
  [wr .width (BitVec.ofInt 32 w), wr .height (BitVec.ofInt 32 h), wr .cmd 0x00000010, .host .wait]

/-- `DECODE.DXT5 <w>, <h>` (30_encoding.md R94). -/
def decodeDxt5Program (w h : Int) : List Event :=
  [wr .width (BitVec.ofInt 32 w), wr .height (BitVec.ofInt 32 h), wr .cmd 0x00000011, .host .wait]

/-! Whose turn it is (log entry 1). -/

/-- A word presented by itself (log entry 12): the instruction that it decodes to. A command word that is no command has
the effect of its write to CMD (30_encoding.md R82); any other word that no row has is refused. -/
def runWord (f : Fmt) (bytes : List Byte) (s : State) : Result :=
  match decode f bytes with
  | .ok (i, _) => exec i s
  | .error e =>
    match commandWord f bytes with
    | some w => writeCmd w s
    | none => .refused (.badWord e)

/-- One event, already taken off the agenda. -/
def runEvent (e : Event) (s : State) : Result :=
  match e with
  | .host a => hostAct a s
  | .engine => engineTurn s
  | .word f bytes => runWord f bytes s

/-- The next event of the agenda; with none left the engine has the turn. -/
def takeTurn (s : State) : Result :=
  match s.agenda with
  | [] => engineTurn s
  | e :: rest => runEvent e { s with agenda := rest }

/-- `s` with a word of the opcode table as its next event (log entry 1). -/
def State.present (s : State) (nbits w : Nat) : State := { s with agenda := tableEvent nbits w :: s.agenda }

end Sys2Proof.Machine
end

