-- ==== Sys2Proof/Machine/Step.lean ====
section
/-! DEFINITION. One step of the machine. -/

namespace Sys2Proof.Machine

/-- One step: the next event of the agenda, or the engine's turn (00_scope.md R4, R5; log entry 1). -/
def step (s : State) : Host.Outcome State Fault Refusal := takeTurn s

/-- `s` with a word of spec/opcode_table.json as what its next step runs (log entry 1). -/
def State.withFetchWord (s : State) (nbits w : Nat) : State := s.present nbits w

end Sys2Proof.Machine
end

