-- ==== Sys2Proof/Machine/Image.lean ====
section
/-! DEFINITION. DECODE_IMAGE (44_assembler.md R268): the whole call as one pure function. -/

namespace Sys2Proof.Machine

/-- A state whose stream holds exactly the bytes of one block (44_assembler.md R268). -/
def blockState (o : FieldOrder) (blk : List Byte) : State := { State.reset with fieldOrder := o, stream := blk }

/-- `DXT1_BLOCK_OF(blk)` and `DXT5_BLOCK_OF(blk)`: the block rule run on a stream of exactly these bytes
(44_assembler.md R268). -/
def blockPixels (fmt : BitVec 2) (o : FieldOrder) (blk : List Byte) : Except HwError Pixels :=
  (if fmt = 0 then dxt1Block (blockState o blk) else dxt5Block (blockState o blk)).map State.pix

/-- `S[k*BS .. k*BS + BS - 1]`: the bytes of the `k`-th block (44_assembler.md R251). -/
def blockBytesAt (fmt : BitVec 2) (stream : List Byte) (k : Nat) : List Byte :=
  (stream.drop (k * blockSize fmt)).take (blockSize fmt)

/-- The stream index of the block that holds pixel (px, py) (44_assembler.md R268). -/
def blockIndex (width px py : Nat) : Nat := (py / 4) * blocksAcross width + px / 4

/-- The index of pixel (px, py) in its block (44_assembler.md R268). -/
def indexInBlock (px py : Nat) : PixelIx := ⟨4 * (py % 4) + px % 4, by omega⟩

/-- The pixel (px, py) of the image (44_assembler.md R268). -/
def imagePixel (fmt : BitVec 2) (o : FieldOrder) (width : Nat) (stream : List Byte) (px py : Nat) : Except HwError Rgba :=
  (blockPixels fmt o (blockBytesAt fmt stream (blockIndex width px py))).map fun p => p[(indexInBlock px py).val]

/-- The four bytes of a pixel (20_memory.md R58). -/
def pixelBytes (p : Rgba) : List Byte := [p.r, p.g, p.b, p.a]

/-- The coordinates of the pixels of an image, row by row (20_memory.md R60). -/
def imageCoords (width height : Nat) : List (Nat × Nat) :=
  (List.range height).flatMap fun py => (List.range width).map fun px => (px, py)

/-- `DECODE_IMAGE(fmt, width, height, S)` (44_assembler.md R268). -/
def decodeImage (fmt : BitVec 2) (o : FieldOrder) (width height : Nat) (stream : List Byte) : Except HwError (List Byte) :=
  if stream.length < blocksAcross width * blocksAcross height * blockSize fmt then .error .ioError
  else ((imageCoords width height).mapM fun c => imagePixel fmt o width stream c.1 c.2).map fun ps =>
    ps.flatMap pixelBytes

end Sys2Proof.Machine
end

