-- ==== Sys2Proof/Safety.lean ====
section
/-! DEFINITION. The terms that claims use: the invariants of 10_state.md R30 and R37, frames, and runs of the engine. -/

namespace Sys2Proof.Machine

/-- No table word is waiting to be presented by itself: the state of a machine that only the spec's two agents drive
(00_scope.md R5; log entry 12). -/
def State.noWords (s : State) : Prop := ∀ f bytes, Event.word f bytes ∉ s.agenda

/-- What 10_state.md R37 item 1 and 44_assembler.md R260 say of a call in progress: the arguments are legal. -/
structure State.LegalCall (s : State) : Prop where
  width_pos : 0 < s.widthInt
  height_pos : 0 < s.heightInt
  fits : s.outBytes ≤ s.out.capacity
  format : cmdFormat s.cmd = 0 ∨ cmdFormat s.cmd = 1

/-- Where a call in progress stands: the bounds of 10_state.md R30 and the cursor of R37 item 2. -/
structure State.AtBlock (s : State) : Prop where
  x_lt : s.blkX < s.bxCnt
  y_lt : s.blkY < s.byCnt
  cursor_eq : s.cursor = (s.blkY * s.bxCnt + s.blkX) * s.blockBytes

/-- Where the last block leaves the counters (10_state.md R37 item 3). BY_CNT, NBLOCKS and BS are those of the call, whose
`width`, `height` and FORMAT are 'read during a call' (R35) and 'immutable per decode call' (R24; log entry 9). -/
structure State.AtEnd (s : State) : Prop where
  x_eq : s.blkX = 0
  y_eq : s.blkY = s.asCalled.byCnt
  cursor_eq : s.cursor = s.asCalled.nBlocks * s.asCalled.blockBytes

/-- 10_state.md R37 items 1 and 2, with the bounds of R30. -/
def State.CallInv (s : State) : Prop := s.phase = .busy → s.LegalCall ∧ s.AtBlock

/-- 10_state.md R37 item 3, with what R24 says of the call that leads there: the registers keep the values that its START
read. -/
structure State.EndInv (s : State) : Prop where
  args_eq : s.phase = .busy → s.call = s.registers
  at_end : s.phase = .done → s.AtEnd

/-- 10_state.md R37 item 4. -/
def State.CodeInv (s : State) : Prop := s.phase ≠ .error ↔ s.errcode = .none

/-- The engine has the next turn, and `rest` is the agenda after it: nothing waits on the agenda, or a turn of the engine
stands first, as WAIT puts it there (30_encoding.md R93; log entry 1). -/
def State.EngineNext (s : State) (rest : List Event) : Prop :=
  (s.agenda = [] ∧ rest = []) ∨ s.agenda = .engine :: rest

/-- Every byte of OUT reads as before. -/
def SameOut (s t : State) : Prop := ∀ a, t.out.read a = s.out.read a

/-- Only pixel `i` of the block's pixels may have changed. -/
def OnlyPixel (i : PixelIx) (s t : State) : Prop :=
  t = { s with pix := t.pix } ∧ (∀ j, j ≠ i → t.pixel j = s.pixel j) ∧ SameOut s t

/-- Only the colour of pixel `i` may have changed. -/
def OnlyPixelRgb (i : PixelIx) (s t : State) : Prop := OnlyPixel i s t ∧ (t.pixel i).a = (s.pixel i).a

/-- Only the alpha of pixel `i` may have changed. -/
def OnlyPixelAlpha (i : PixelIx) (s t : State) : Prop :=
  OnlyPixel i s t ∧ (t.pixel i).r = (s.pixel i).r ∧ (t.pixel i).g = (s.pixel i).g ∧ (t.pixel i).b = (s.pixel i).b

/-- The colour channels of a pixel, as numbers. -/
def rgbNat (p : Rgba) : Nat × Nat × Nat := (p.r.toNat, p.g.toNat, p.b.toNat)

/-- A state at the start of an engine run: nothing waits on the agenda, the call is at its first block. -/
structure State.CallStarted (s : State) : Prop where
  busy : s.phase = .busy
  legal : s.LegalCall
  x_eq : s.blkX = 0
  y_eq : s.blkY = 0
  cursor_eq : s.cursor = 0
  quiet : s.agenda = []

end Sys2Proof.Machine
end

