-- ==== Sys2Proof/Certificates/Slice0/Obligations.lean ====
section
/-! DEFINITION. The statements for the provers. Each cites the rules of spec/ that it formalises; the ones marked as the
model's choice name their log entry. -/

open Sys2Proof Sys2Proof.Machine

/-! ## Encoding -/

/-- 30_encoding.md R81, R90 and log entry 12: decoding the bytes of an instruction gives it back, with the bytes after
it, for every instruction and every operand, also a ramp selector for which the spec states no result (log entry 11). -/
def Obligations.DecodeOfEncode : Prop :=
  ∀ (i : Instr) (rest : List Byte), decode i.fmt (encode i ++ rest) = .ok (i, rest)

/-- 30_encoding.md R81, R90: words of the opcode table, written out from the encodings, decode to their rows. -/
def Obligations.TableWordsDecode : Prop :=
  decodeTableWord 32 0x00000010 = some .decodeDxt1 ∧
  decodeTableWord 32 0x00000011 = some .decodeDxt5 ∧
  decodeTableWord 3 0b110 = some (.dxt1C4S2 0) ∧
  decodeTableWord 3 0b011 = some (.dxt1C3S3 0) ∧
  decodeTableWord 2 0b10 = some (.dxt5CS2 0) ∧
  decodeTableWord 4 0b1100 = some (.dxt5A8S4 0) ∧
  decodeTableWord 4 0b0110 = some (.dxt5A6S6 0)

/-- 30_encoding.md R81, R82, 60_exceptions.md R302: a word written to CMD with START = 1 is a command exactly when it is
one of the two command words, and that is exactly when no condition of CmdError holds. -/
def Obligations.OnlyTwoCommandWords : Prop :=
  decodeCommand 0x00000010 = .ok .decodeDxt1 ∧ decodeCommand 0x00000011 = .ok .decodeDxt5 ∧
  ∀ w : Word, w.getLsbD 4 = true →
    ((∃ i, decodeCommand w = .ok i) ↔ (w.toNat = 0x10 ∨ w.toNat = 0x11)) ∧
    ((w.toNat = 0x10 ∨ w.toNat = 0x11) ↔ ¬ (2 ≤ w.toNat % 4 ∨ w.toNat / 4 % 4 ≠ 0 ∨ w.toNat / 32 ≠ 0))

/-- How a word comes to run (log entries 1, 12): the next event of the agenda is a word that decodes to an instruction,
presented by itself or written to CMD, and the step is `exec` of that instruction once the event is off the agenda. A
command word presented by itself, command or not (30_encoding.md R82), is its write to CMD. -/
def Obligations.StepRunsDecodedInstruction : Prop :=
  (∀ (s : State) (f : Fmt) (bytes tail : List Byte) (rest : List Event) (i : Instr),
    s.agenda = .word f bytes :: rest → decode f bytes = .ok (i, tail) → step s = exec i { s with agenda := rest }) ∧
  (∀ (s : State) (w : Word) (rest : List Event) (i : Instr),
    s.agenda = wr .cmd w :: rest → decodeCommand w = .ok i → step s = exec i { s with agenda := rest }) ∧
  (∀ (s : State) (b0 b1 b2 b3 : Byte) (tail : List Byte) (rest : List Event),
    s.agenda = .word .cmd (b0 :: b1 :: b2 :: b3 :: tail) :: rest →
      step s = step { s with agenda := wr .cmd (b3 ++ b2 ++ b1 ++ b0) :: rest })

/-- 44_assembler.md R262: the step of a busy engine, with nothing on the agenda or at a turn of its own such as WAIT gives it
(30_encoding.md R93; log entry 1), is the block decoder that CMD[1:0] selects, then ASSEMBLE, then the
advance; after an IoError nothing follows the block decoder. -/
def Obligations.StepRunsBlockInstructions : Prop :=
  ∀ (s t : State) (i : Instr) (rest : List Event), s.EngineNext rest → s.phase = .busy →
    (i = .dxt1Block ∧ cmdFormat s.cmd = 0 ∨ i = .dxt5Block ∧ cmdFormat s.cmd ≠ 0) →
    exec i { s with agenda := rest } = .next t →
    (t.phase = .error → step s = .next t.endBlock) ∧
    (t.phase ≠ .error → ∀ u, exec .assemble t = .next u → step s = .next u.advance.endBlock)

/-! ## The host's registers -/

/-- 70_reset_and_hazards.md R330, 10_state.md R36: reset, asserted in any state, gives every register its reset value and
leaves no byte of OUT with a defined value; the engine then has no enabled step (R331). That an undefined OUT lists no
cell is the model's form (log entry 2); that the parameters, the agenda and the replies stay is log entry 7. -/
def Obligations.ResetFromAnyState : Prop :=
  ∀ (s : State) (rest : List Event), s.agenda = .host .reset :: rest →
    ∃ t, step s = .next t ∧ t.cmd = 0 ∧ t.width = 0 ∧ t.height = 0 ∧ t.phase = .idle ∧ t.errcode = .none ∧
      t.cursor = 0 ∧ t.blkX = 0 ∧ t.blkY = 0 ∧ t.out.cells = [] ∧ t.out.capacity = s.out.capacity ∧
      t.fieldOrder = s.fieldOrder ∧ t.agenda = rest ∧ t.replies = s.replies ∧
      step { t with agenda := [] } = .next { t with agenda := [] }

/-- 10_state.md R23-R27, 70_reset_and_hazards.md R340: a 32-bit read of a register returns its current value in any
state, and changes nothing but what the host has got back (20_memory.md R63). Bits 31:2 of STATUS and 31:3 of ERRCODE
read 0, bit 4 of CMD reads 0. -/
def Obligations.RegisterReads : Prop :=
  ∀ (s : State) (r : HostReg) (rest : List Event), s.agenda = rd r :: rest →
    ∃ v : Word, step s = .next { s with agenda := rest, replies := .reg r.offset v :: s.replies } ∧
      (r = .cmd → ∀ k, v.getLsbD k = (s.cmd.getLsbD k && decide (k ≠ 4))) ∧
      (r = .width → v = s.width) ∧ (r = .height → v = s.height) ∧
      (r = .status → v.toNat = match s.phase with | .idle => 0 | .busy => 1 | .done => 2 | .error => 3) ∧
      (r = .errcode → v.toNat = match s.errcode with | .none => 0 | .arg => 1 | .io => 2 | .buf => 3 | .cmd => 4)

/-- 10_state.md R24, R25: a write of WIDTH or HEIGHT while not BUSY changes that register alone, and a read gives the
value back as written. -/
def Obligations.DimensionsReadBackAsWritten : Prop :=
  ∀ (s : State) (v : Word) (rest : List Event), s.phase ≠ .busy →
    (s.agenda = wr .width v :: rd .width :: rest →
      ∃ t, step s = .next t ∧ t = { s with agenda := rd .width :: rest, width := v } ∧
        step t = .next { t with agenda := rest, replies := .reg 0x04 v :: s.replies }) ∧
    (s.agenda = wr .height v :: rd .height :: rest →
      ∃ t, step s = .next t ∧ t = { s with agenda := rd .height :: rest, height := v } ∧
        step t = .next { t with agenda := rest, replies := .reg 0x08 v :: s.replies })

/-- 10_state.md R23, 30_encoding.md R82: a write of CMD with START = 0 only stores the word, whatever FORMAT and the
reserved bits are, and it reads back as written. -/
def Obligations.CmdWriteWithoutStart : Prop :=
  ∀ (s : State) (w : Word) (rest : List Event), s.phase ≠ .busy → w.getLsbD 4 = false →
    s.agenda = wr .cmd w :: rd .cmd :: rest →
    ∃ t, step s = .next t ∧ t = { s with agenda := rd .cmd :: rest, cmd := w } ∧
      step t = .next { t with agenda := rest, replies := .reg 0x00 w :: s.replies }

/-- 10_state.md R28: the host actions that the model gives no meaning. -/
def Obligations.RefusedHostActions : Prop :=
  ∀ (s : State) (rest : List Event) (offset width : Nat) (v : Word),
    (s.agenda = .host (.read offset width) :: rest → width = 32 → (∀ r : HostReg, r.offset ≠ offset) →
      step s = .refused (.hostOffset offset)) ∧
    (s.agenda = .host (.write offset width v) :: rest → width = 32 → (∀ r : HostReg, r.offset ≠ offset) →
      step s = .refused (.hostOffset offset)) ∧
    (s.agenda = .host (.read offset width) :: rest → width ≠ 32 → step s = .refused (.hostWidth width)) ∧
    (s.agenda = .host (.write offset width v) :: rest → width ≠ 32 → step s = .refused (.hostWidth width)) ∧
    (s.agenda = wr .status v :: rest → step s = .refused (.readOnlyWrite 0x0C)) ∧
    (s.agenda = wr .errcode v :: rest → step s = .refused (.readOnlyWrite 0x10)) ∧
    (s.phase = .busy → ∀ r : HostReg, r = .cmd ∨ r = .width ∨ r = .height → s.agenda = wr r v :: rest →
      step s = .refused .busyWrite)

/-- 20_memory.md R59, R62, 70_reset_and_hazards.md R343: a host read of OUT is refused while BUSY and when it reaches
past OUT_CAPACITY-1; in DONE it returns the bytes of OUT; in IDLE and ERROR it returns bytes of which nothing is said.
It changes nothing but what the host has got back. -/
def Obligations.OutReads : Prop :=
  ∀ (s : State) (addr n : Nat) (rest : List Event), s.agenda = .host (.memRead addr n) :: rest →
    (s.phase = .busy → step s = .refused .busyOutRead) ∧
    (s.phase ≠ .busy → 1 ≤ n → s.out.capacity < addr + n → step s = .refused .outReadPastEnd) ∧
    (s.phase ≠ .busy → 1 ≤ n → addr + n ≤ s.out.capacity →
      ∃ bytes : List Byte, step s = .next { s with agenda := rest, replies := .mem addr bytes :: s.replies } ∧
        bytes.length = n ∧
        (s.phase = .done → ∀ j < n, bytes[j]? = some (s.out.read (addr + j))))

/-- 30_encoding.md R93: WAIT reads STATUS once; it is over when STATE is DONE or ERROR, and otherwise the engine has a
turn and the host waits on (log entry 1). Nothing else changes. -/
def Obligations.WaitPollsStatus : Prop :=
  ∀ (s : State) (rest : List Event), s.agenda = .host .wait :: rest →
    ∃ (t : State) (v : Word), step s = .next t ∧ t = { s with agenda := t.agenda, replies := .reg 0x0C v :: s.replies } ∧
      (s.phase = .done → v.toNat = 2 ∧ t.agenda = rest) ∧
      (s.phase = .error → v.toNat = 3 ∧ t.agenda = rest) ∧
      (s.phase = .busy → v.toNat = 1 ∧ t.agenda = .engine :: .host .wait :: rest) ∧
      (s.phase = .idle → v.toNat = 0 ∧ t.agenda = .engine :: .host .wait :: rest)

/-- 70_reset_and_hazards.md R331, 44_assembler.md R262, R264: while STATE is not BUSY the engine has no enabled step, with
an empty agenda or at a turn of its own. -/
def Obligations.EngineRestsUnlessBusy : Prop :=
  ∀ s : State, s.phase ≠ .busy →
    (s.agenda = [] → step s = .next s) ∧
    (∀ rest, s.agenda = .engine :: rest → step s = .next { s with agenda := rest })

/-- 30_encoding.md R93, 20_memory.md R51: STREAM presents its bytes for the next START, in any state, and changes nothing
else: the stream of a call in progress is untouched (70_reset_and_hazards.md R342). That it replaces what an earlier STREAM
presented, and that one while BUSY is for the next START, is the model's choice (log entry 7). -/
def Obligations.StreamIsPresented : Prop :=
  ∀ (s : State) (bytes : List Byte) (rest : List Event), s.agenda = .host (.stream bytes) :: rest →
    step s = .next { s with agenda := rest, presented := bytes }

/-! ## START -/

/-- 44_assembler.md R260, R270, R271: DECODE_DXT1 and DECODE_DXT5 complete in every state that is not BUSY and whose
dimensions are positive and fit OUT: the call begins at its first block. Nothing else changes; the stream of the call is
what the host presented, and the call's arguments are the registers (log entries 7, 9). -/
def Obligations.CommandsBeginACall : Prop :=
  ∀ s : State, s.phase ≠ .busy → 0 < s.width.toInt → 0 < s.height.toInt →
    4 * s.width.toInt * s.height.toInt ≤ s.out.capacity →
    exec .decodeDxt1 s = .next { s with
      cmd := 0, phase := .busy, errcode := .none, cursor := 0, blkX := 0, blkY := 0, stream := s.presented, presented := [],
      call := ⟨0, s.width, s.height⟩ } ∧
    exec .decodeDxt5 s = .next { s with
      cmd := 1, phase := .busy, errcode := .none, cursor := 0, blkX := 0, blkY := 0, stream := s.presented, presented := [],
      call := ⟨1, s.width, s.height⟩ }

/-- 60_exceptions.md R307, R302, R303, R305: START checks the command word, then the dimensions, then the size, and
raises the first error that applies; with none the call begins. -/
def Obligations.StartErrorPriority : Prop :=
  ∀ (s : State) (w : Word) (rest : List Event), s.agenda = wr .cmd w :: rest → w.getLsbD 4 = true → s.phase ≠ .busy →
    ∃ t, step s = .next t ∧ (∀ k, t.cmd.getLsbD k = (w.getLsbD k && decide (k ≠ 4))) ∧
      (if 2 ≤ w.toNat % 4 ∨ w.toNat / 4 % 4 ≠ 0 ∨ w.toNat / 32 ≠ 0 then t.phase = .error ∧ t.errcode = .cmd
      else if s.width.toInt ≤ 0 ∨ s.height.toInt ≤ 0 then t.phase = .error ∧ t.errcode = .arg
      else if (s.out.capacity : Int) < 4 * s.width.toInt * s.height.toInt then t.phase = .error ∧ t.errcode = .buf
      else t.phase = .busy ∧ t.errcode = .none)

/-- 60_exceptions.md R306: what an error at START leaves: the dimensions, the block counters, BLK and the flags are
unchanged, no byte of OUT has a defined value, and the engine has no enabled step. -/
def Obligations.StartErrorAction : Prop :=
  ∀ (s t : State) (w : Word) (rest : List Event), s.agenda = wr .cmd w :: rest → w.getLsbD 4 = true →
    step s = .next t → t.phase = .error →
    t.width = s.width ∧ t.height = s.height ∧ t.blkX = s.blkX ∧ t.blkY = s.blkY ∧ t.blk = s.blk ∧
    t.opaque4 = s.opaque4 ∧ t.alpha8 = s.alpha8 ∧ t.pix = s.pix ∧ t.unitRgb = s.unitRgb ∧ t.unitVal = s.unitVal ∧ t.call = s.call ∧
    t.replies = s.replies ∧ t.agenda = rest ∧ t.out.cells = [] ∧ t.out.capacity = s.out.capacity ∧
    step { t with agenda := [] } = .next { t with agenda := [] }

/-- 10_state.md R28, 44_assembler.md R260: both commands are refused while STATE = BUSY. -/
def Obligations.CommandsRefusedWhileBusy : Prop :=
  ∀ s : State, s.phase = .busy →
    exec .decodeDxt1 s = .refused .busyWrite ∧ exec .decodeDxt5 s = .refused .busyWrite

/-! ## The expander -/

/-- 40_expand565.md R120: EXPAND565 completes for every colour, in every state, with the formula's three channels: the
quotients themselves, which the mask with 0xFF never changes. Nothing else changes. -/
def Obligations.Expand565Formula : Prop :=
  ∀ (c : BitVec 16) (s : State), ∃ t, exec (.expand565 c) s = .next t ∧ t = { s with unitRgb := t.unitRgb } ∧ SameOut s t ∧
    t.unitRgb.r.toNat = ((c.toNat / 2048 * 255 + 16) / 32 + (c.toNat / 2048 * 255 + 16)) / 32 ∧
    t.unitRgb.g.toNat = ((c.toNat / 32 % 64 * 255 + 32) / 64 + (c.toNat / 32 % 64 * 255 + 32)) / 64 ∧
    t.unitRgb.b.toNat = ((c.toNat % 32 * 255 + 16) / 32 + (c.toNat % 32 * 255 + 16)) / 32

/-- 40_expand565.md R121, R122, R123: `E5` and `E6` are their formulas and their tables at every value of a field, and each
channel of the expander is the expansion of its own field. -/
def Obligations.Expand565Tables : Prop :=
  (∀ v < 32, e5 v = ((v * 255 + 16) / 32 + (v * 255 + 16)) / 32 ∧
    [0, 8, 16, 25, 33, 41, 49, 58, 66, 74, 82, 90, 99, 107, 115, 123, 132, 140, 148, 156, 164, 173, 181, 189, 197, 205,
      214, 222, 230, 238, 247, 255][v]? = some (e5 v)) ∧
  (∀ v < 64, e6 v = ((v * 255 + 32) / 64 + (v * 255 + 32)) / 64 ∧
    [0, 4, 8, 12, 16, 20, 24, 28, 32, 36, 40, 45, 49, 53, 57, 61, 65, 69, 73, 77, 81, 85, 89, 93, 97, 101, 105, 109, 113,
      117, 121, 125, 130, 134, 138, 142, 146, 150, 154, 158, 162, 166, 170, 174, 178, 182, 186, 190, 194, 198, 202, 206,
      210, 214, 219, 223, 227, 231, 235, 239, 243, 247, 251, 255][v]? = some (e6 v)) ∧
  (∀ c : BitVec 16, (expand565 c).r.toNat = e5 (c.toNat / 2048) ∧ (expand565 c).g.toNat = e6 (c.toNat / 32 % 64) ∧
    (expand565 c).b.toNat = e5 (c.toNat % 32))

/-- 40_expand565.md R126: comparing two packed colours is comparing their expansions lexicographically. -/
def Obligations.PackedOrderIsLexicographic : Prop :=
  ∀ a b : BitVec 16, b.toNat < a.toNat ↔
    (expand565 b).r.toNat < (expand565 a).r.toNat ∨
    (expand565 b).r = (expand565 a).r ∧
      ((expand565 b).g.toNat < (expand565 a).g.toNat ∨
      (expand565 b).g = (expand565 a).g ∧ (expand565 b).b.toNat < (expand565 a).b.toNat)

/-! ## The interpolator -/

/-- 41_interpolate.md R140: AVG2 completes for every pair of bytes with the truncated mean, which lies between them and
does not depend on their order. Nothing else changes. -/
def Obligations.Avg2Result : Prop :=
  ∀ (a b : Byte) (s : State), ∃ t, exec (.avg2 a b) s = .next t ∧ t = { s with unitVal := t.unitVal } ∧ SameOut s t ∧
    t.unitVal.toNat = (a.toNat + b.toNat) / 2 ∧
    min a.toNat b.toNat ≤ t.unitVal.toNat ∧ t.unitVal.toNat ≤ max a.toNat b.toNat ∧
    exec (.avg2 b a) s = .next t ∧ (a = b → t.unitVal = a)

/-- 41_interpolate.md R141: WEIGHTED3 completes for every pair of bytes; the first has weight 1, the second weight 2. The
result lies between them, and equal operands give themselves. Nothing else changes. It is not commutative. -/
def Obligations.Weighted3Result : Prop :=
  (∀ (x y : Byte) (s : State), ∃ t, exec (.weighted3 x y) s = .next t ∧ t = { s with unitVal := t.unitVal } ∧ SameOut s t ∧
    t.unitVal.toNat = (x.toNat + 2 * y.toNat) / 3 ∧
    min x.toNat y.toNat ≤ t.unitVal.toNat ∧ t.unitVal.toNat ≤ max x.toNat y.toNat ∧ (x = y → t.unitVal = x)) ∧
  (∃ x y : Byte, ∀ s : State, exec (.weighted3 x y) s ≠ exec (.weighted3 y x) s)

/-- 41_interpolate.md R143: RAMP7 completes for every selector in 2..7 with the weighted mean, which lies between the
endpoints. Nothing else changes. -/
def Obligations.Ramp7Result : Prop :=
  ∀ (ai : BitVec 3) (a0 a1 : Byte) (s : State), 2 ≤ ai.toNat → ∃ t, exec (.ramp7 ai a0 a1) s = .next t ∧
    t = { s with unitVal := t.unitVal } ∧ SameOut s t ∧
    t.unitVal.toNat = ((8 - ai.toNat) * a0.toNat + (ai.toNat - 1) * a1.toNat) / 7 ∧
    min a0.toNat a1.toNat ≤ t.unitVal.toNat ∧ t.unitVal.toNat ≤ max a0.toNat a1.toNat

/-- 41_interpolate.md R144: RAMP5 completes for every selector in 2..5 with the weighted mean, which lies between the
endpoints. Nothing else changes. -/
def Obligations.Ramp5Result : Prop :=
  ∀ (ai : BitVec 3) (a0 a1 : Byte) (s : State), 2 ≤ ai.toNat → ai.toNat ≤ 5 → ∃ t, exec (.ramp5 ai a0 a1) s = .next t ∧
    t = { s with unitVal := t.unitVal } ∧ SameOut s t ∧
    t.unitVal.toNat = ((6 - ai.toNat) * a0.toNat + (ai.toNat - 1) * a1.toNat) / 5 ∧
    min a0.toNat a1.toNat ≤ t.unitVal.toNat ∧ t.unitVal.toNat ≤ max a0.toNat a1.toNat

/-- The model's choice (log entry 11): a ramp selector for which the rule states no result (41_interpolate.md R143, R144).
The word decodes like any other; the unit completes with a value of which nothing is said, and nothing else changes. -/
def Obligations.RampOutsideDomain : Prop :=
  ∀ (ai : BitVec 3) (a0 a1 : Byte) (rest : List Byte) (s : State),
    (ai.toNat < 2 →
      decode .unit (3 :: ai.zeroExtend 8 :: a0 :: a1 :: rest) = .ok (.ramp7 ai a0 a1, rest) ∧
      ∃ t, exec (.ramp7 ai a0 a1) s = .next t ∧ t = { s with unitVal := t.unitVal } ∧ SameOut s t) ∧
    (ai.toNat < 2 ∨ 5 < ai.toNat →
      decode .unit (4 :: ai.zeroExtend 8 :: a0 :: a1 :: rest) = .ok (.ramp5 ai a0 a1, rest) ∧
      ∃ t, exec (.ramp5 ai a0 a1) s = .next t ∧ t = { s with unitVal := t.unitVal } ∧ SameOut s t)

/-! ## Selectors -/

/-- 42_dxt1.md R170-R173: the four selectors of the opaque mode complete in every state, for every pixel. Only the pixel
changes. In a block of that mode the endpoints differ. -/
def Obligations.Dxt1OpaqueSelectors : Prop :=
  ∀ (s : State) (i : PixelIx),
    let c0 := expand565 s.blk.c0raw
    let c1 := expand565 s.blk.c1raw
    (dxt1Selector 0b100 i = .dxt1C4S0 i ∧ ∃ t, exec (.dxt1C4S0 i) s = .next t ∧ OnlyPixel i s t ∧
      t.pixel i = ⟨c0.r, c0.g, c0.b, 255⟩) ∧
    (dxt1Selector 0b101 i = .dxt1C4S1 i ∧ ∃ t, exec (.dxt1C4S1 i) s = .next t ∧ OnlyPixel i s t ∧
      t.pixel i = ⟨c1.r, c1.g, c1.b, 255⟩) ∧
    (dxt1Selector 0b110 i = .dxt1C4S2 i ∧ ∃ t, exec (.dxt1C4S2 i) s = .next t ∧ OnlyPixel i s t ∧
      rgbNat (t.pixel i) = ((c1.r.toNat + 2 * c0.r.toNat) / 3, (c1.g.toNat + 2 * c0.g.toNat) / 3,
        (c1.b.toNat + 2 * c0.b.toNat) / 3) ∧ (t.pixel i).a = 255) ∧
    (dxt1Selector 0b111 i = .dxt1C4S3 i ∧ ∃ t, exec (.dxt1C4S3 i) s = .next t ∧ OnlyPixel i s t ∧
      rgbNat (t.pixel i) = ((c0.r.toNat + 2 * c1.r.toNat) / 3, (c0.g.toNat + 2 * c1.g.toNat) / 3,
        (c0.b.toNat + 2 * c1.b.toNat) / 3) ∧ (t.pixel i).a = 255) ∧
    (s.blk.c1raw.toNat < s.blk.c0raw.toNat → c0 ≠ c1)

/-- 42_dxt1.md R174-R177: the four selectors of the punch-through mode complete in every state, for every pixel. Only the
pixel changes. -/
def Obligations.Dxt1PunchThroughSelectors : Prop :=
  ∀ (s : State) (i : PixelIx),
    let c0 := expand565 s.blk.c0raw
    let c1 := expand565 s.blk.c1raw
    (dxt1Selector 0b000 i = .dxt1C3S0 i ∧ ∃ t, exec (.dxt1C3S0 i) s = .next t ∧ OnlyPixel i s t ∧
      t.pixel i = ⟨c0.r, c0.g, c0.b, 255⟩) ∧
    (dxt1Selector 0b001 i = .dxt1C3S1 i ∧ ∃ t, exec (.dxt1C3S1 i) s = .next t ∧ OnlyPixel i s t ∧
      t.pixel i = ⟨c1.r, c1.g, c1.b, 255⟩) ∧
    (dxt1Selector 0b010 i = .dxt1C3S2 i ∧ ∃ t, exec (.dxt1C3S2 i) s = .next t ∧ OnlyPixel i s t ∧
      rgbNat (t.pixel i) = ((c0.r.toNat + c1.r.toNat) / 2, (c0.g.toNat + c1.g.toNat) / 2,
        (c0.b.toNat + c1.b.toNat) / 2) ∧ (t.pixel i).a = 255) ∧
    (dxt1Selector 0b011 i = .dxt1C3S3 i ∧ ∃ t, exec (.dxt1C3S3 i) s = .next t ∧ OnlyPixel i s t ∧
      t.pixel i = ⟨0, 0, 0, 0⟩)

/-- 42_dxt1.md R177: transparent black depends on neither endpoint, and a transparent pixel in bounds is written to OUT
like any other. -/
def Obligations.TransparentPixelIsWritten : Prop :=
  ∀ (s : State) (i : PixelIx), s.outBytes ≤ s.out.capacity → s.inBounds i = true →
    ∃ t u, exec (dxt1Selector 0b011 i) s = .next t ∧ OnlyPixel i s t ∧ t.pixel i = ⟨0, 0, 0, 0⟩ ∧
      exec .assemble t = .next u ∧
      ∀ k < 4, u.out.read (s.pixelAddress i + k) = 0

/-- 43_dxt5.md R220-R223: the four colour selectors complete in every state, for every pixel, with the four-colour
formulas whatever the order of C0RAW and C1RAW. Only the pixel's colour changes. -/
def Obligations.Dxt5ColourSelectors : Prop :=
  ∀ (s : State) (i : PixelIx),
    let c0 := expand565 s.blk.c0raw
    let c1 := expand565 s.blk.c1raw
    (dxt5Selector 0b00 i = .dxt5CS0 i ∧ ∃ t, exec (.dxt5CS0 i) s = .next t ∧ OnlyPixelRgb i s t ∧
      rgbNat (t.pixel i) = (c0.r.toNat, c0.g.toNat, c0.b.toNat)) ∧
    (dxt5Selector 0b01 i = .dxt5CS1 i ∧ ∃ t, exec (.dxt5CS1 i) s = .next t ∧ OnlyPixelRgb i s t ∧
      rgbNat (t.pixel i) = (c1.r.toNat, c1.g.toNat, c1.b.toNat)) ∧
    (dxt5Selector 0b10 i = .dxt5CS2 i ∧ ∃ t, exec (.dxt5CS2 i) s = .next t ∧ OnlyPixelRgb i s t ∧
      rgbNat (t.pixel i) = ((c1.r.toNat + 2 * c0.r.toNat) / 3, (c1.g.toNat + 2 * c0.g.toNat) / 3,
        (c1.b.toNat + 2 * c0.b.toNat) / 3)) ∧
    (dxt5Selector 0b11 i = .dxt5CS3 i ∧ ∃ t, exec (.dxt5CS3 i) s = .next t ∧ OnlyPixelRgb i s t ∧
      rgbNat (t.pixel i) = ((c0.r.toNat + 2 * c1.r.toNat) / 3, (c0.g.toNat + 2 * c1.g.toNat) / 3,
        (c0.b.toNat + 2 * c1.b.toNat) / 3))

/-- 43_dxt5.md R230-R237: the eight alpha selectors of the 7-step ramp complete in every state, for every pixel. Only the
pixel's alpha changes. -/
def Obligations.Dxt5SevenStepSelectors : Prop :=
  ∀ (s : State) (i : PixelIx),
    let a0 := s.blk.a0.toNat
    let a1 := s.blk.a1.toNat
    (alphaSelector 0b1000 i = .dxt5A8S0 i ∧ ∃ t, exec (.dxt5A8S0 i) s = .next t ∧ OnlyPixelAlpha i s t ∧
      (t.pixel i).a.toNat = a0) ∧
    (alphaSelector 0b1001 i = .dxt5A8S1 i ∧ ∃ t, exec (.dxt5A8S1 i) s = .next t ∧ OnlyPixelAlpha i s t ∧
      (t.pixel i).a.toNat = a1) ∧
    (alphaSelector 0b1010 i = .dxt5A8S2 i ∧ ∃ t, exec (.dxt5A8S2 i) s = .next t ∧ OnlyPixelAlpha i s t ∧
      (t.pixel i).a.toNat = (6 * a0 + 1 * a1) / 7) ∧
    (alphaSelector 0b1011 i = .dxt5A8S3 i ∧ ∃ t, exec (.dxt5A8S3 i) s = .next t ∧ OnlyPixelAlpha i s t ∧
      (t.pixel i).a.toNat = (5 * a0 + 2 * a1) / 7) ∧
    (alphaSelector 0b1100 i = .dxt5A8S4 i ∧ ∃ t, exec (.dxt5A8S4 i) s = .next t ∧ OnlyPixelAlpha i s t ∧
      (t.pixel i).a.toNat = (4 * a0 + 3 * a1) / 7) ∧
    (alphaSelector 0b1101 i = .dxt5A8S5 i ∧ ∃ t, exec (.dxt5A8S5 i) s = .next t ∧ OnlyPixelAlpha i s t ∧
      (t.pixel i).a.toNat = (3 * a0 + 4 * a1) / 7) ∧
    (alphaSelector 0b1110 i = .dxt5A8S6 i ∧ ∃ t, exec (.dxt5A8S6 i) s = .next t ∧ OnlyPixelAlpha i s t ∧
      (t.pixel i).a.toNat = (2 * a0 + 5 * a1) / 7) ∧
    (alphaSelector 0b1111 i = .dxt5A8S7 i ∧ ∃ t, exec (.dxt5A8S7 i) s = .next t ∧ OnlyPixelAlpha i s t ∧
      (t.pixel i).a.toNat = (1 * a0 + 6 * a1) / 7)

/-- 43_dxt5.md R240-R247: the eight alpha selectors of the 5-step ramp complete in every state, for every pixel. Only the
pixel's alpha changes. -/
def Obligations.Dxt5FiveStepSelectors : Prop :=
  ∀ (s : State) (i : PixelIx),
    let a0 := s.blk.a0.toNat
    let a1 := s.blk.a1.toNat
    (alphaSelector 0b0000 i = .dxt5A6S0 i ∧ ∃ t, exec (.dxt5A6S0 i) s = .next t ∧ OnlyPixelAlpha i s t ∧
      (t.pixel i).a.toNat = a0) ∧
    (alphaSelector 0b0001 i = .dxt5A6S1 i ∧ ∃ t, exec (.dxt5A6S1 i) s = .next t ∧ OnlyPixelAlpha i s t ∧
      (t.pixel i).a.toNat = a1) ∧
    (alphaSelector 0b0010 i = .dxt5A6S2 i ∧ ∃ t, exec (.dxt5A6S2 i) s = .next t ∧ OnlyPixelAlpha i s t ∧
      (t.pixel i).a.toNat = (4 * a0 + 1 * a1) / 5) ∧
    (alphaSelector 0b0011 i = .dxt5A6S3 i ∧ ∃ t, exec (.dxt5A6S3 i) s = .next t ∧ OnlyPixelAlpha i s t ∧
      (t.pixel i).a.toNat = (3 * a0 + 2 * a1) / 5) ∧
    (alphaSelector 0b0100 i = .dxt5A6S4 i ∧ ∃ t, exec (.dxt5A6S4 i) s = .next t ∧ OnlyPixelAlpha i s t ∧
      (t.pixel i).a.toNat = (2 * a0 + 3 * a1) / 5) ∧
    (alphaSelector 0b0101 i = .dxt5A6S5 i ∧ ∃ t, exec (.dxt5A6S5 i) s = .next t ∧ OnlyPixelAlpha i s t ∧
      (t.pixel i).a.toNat = (1 * a0 + 4 * a1) / 5) ∧
    (alphaSelector 0b0110 i = .dxt5A6S6 i ∧ ∃ t, exec (.dxt5A6S6 i) s = .next t ∧ OnlyPixelAlpha i s t ∧
      (t.pixel i).a.toNat = 0) ∧
    (alphaSelector 0b0111 i = .dxt5A6S7 i ∧ ∃ t, exec (.dxt5A6S7 i) s = .next t ∧ OnlyPixelAlpha i s t ∧
      (t.pixel i).a.toNat = 255)

/-- 42_dxt1.md R167, 43_dxt5.md R212, 30_encoding.md R90: the pixels that a block decoder leaves are those its selector
words write: running the selector word of any pixel on the decoded block changes nothing. -/
def Obligations.BlockPixelsAreSelectorResults : Prop :=
  ∀ (s t : State) (i : PixelIx),
    (s.cursor + 8 ≤ s.stream.length → exec .dxt1Block s = .next t →
      exec (dxt1Selector (BitVec.ofBool t.opaque4 ++ colourSel t.blk.cidx i) i) t = .next t) ∧
    (s.cursor + 16 ≤ s.stream.length → exec .dxt5Block s = .next t →
      exec (dxt5Selector (colourSel t.blk.cidx i) i) t = .next t ∧
      exec (alphaSelector (BitVec.ofBool t.alpha8 ++ alphaSel t.blk.amask i) i) t = .next t)

/-! ## Blocks -/

/-- 20_memory.md R52: StreamRead returns the next `n` bytes and advances CURSOR by `n`, or raises IoError when fewer
remain. Nothing else changes. -/
def Obligations.StreamReadOrIoError : Prop :=
  ∀ (s : State) (n : Nat), 1 ≤ n →
    (s.stream.length - s.cursor < n → streamRead n s = .error .ioError) ∧
    (n ≤ s.stream.length - s.cursor → ∃ bytes : List Byte,
      streamRead n s = .ok (bytes, { s with cursor := s.cursor + n }) ∧ bytes.length = n ∧
      ∀ j < n, bytes[j]? = s.stream[s.cursor + j]?)

/-- 20_memory.md R53, R54: the value of a field of bytes in the two byte orders. -/
def Obligations.FieldByteOrder : Prop :=
  ∀ b : List Byte,
    fieldValue .le b = ∑ j ∈ Finset.range b.length, (b.getD j 0).toNat * 2 ^ (8 * j) ∧
    fieldValue .be b = ∑ j ∈ Finset.range b.length, (b.getD j 0).toNat * 2 ^ (8 * (b.length - 1 - j))

/-- 20_memory.md R55: under LE, the fields of a DXT1 block are slices of its 64-bit word and those of a DXT5 block slices
of its 128-bit word, whatever block it is. -/
def Obligations.LittleEndianWideWord : Prop :=
  ∀ s : State, s.fieldOrder = .le →
    (∀ W : BitVec 64, (∀ j < 8, s.stream[s.cursor + j]? = some (W.extractLsb' (8 * j) 8)) →
      ∃ t, exec .dxt1Block s = .next t ∧ t.blk.c0raw = W.extractLsb' 0 16 ∧ t.blk.c1raw = W.extractLsb' 16 16 ∧
        t.blk.cidx = W.extractLsb' 32 32) ∧
    (∀ W : BitVec 128, (∀ j < 16, s.stream[s.cursor + j]? = some (W.extractLsb' (8 * j) 8)) →
      ∃ t, exec .dxt5Block s = .next t ∧ t.blk.a0 = W.extractLsb' 0 8 ∧ t.blk.a1 = W.extractLsb' 8 8 ∧
        t.blk.amask = W.extractLsb' 16 48 ∧ t.blk.c0raw = W.extractLsb' 64 16 ∧ t.blk.c1raw = W.extractLsb' 80 16 ∧
        t.blk.cidx = W.extractLsb' 96 32)

/-- 42_dxt1.md R160, R164-R168, 30_encoding.md R85: DXT1_BLOCK with eight bytes left gives the fields in stream order, the
mode, and every pixel by the palette; BLK's DXT5 fields and everything outside the block are unchanged. With fewer it
raises IoError and nothing of the block is computed: only ERRCODE, STATE and the values that the error leaves open (log
entries 2, 3) change. -/
def Obligations.Dxt1BlockDecodes : Prop :=
  ∀ s : State,
    (s.cursor + 8 ≤ s.stream.length → ∃ t, exec .dxt1Block s = .next t ∧
      t = { s with blk := t.blk, opaque4 := t.opaque4, pix := t.pix, cursor := s.cursor + 8 } ∧ SameOut s t ∧
      t.blk.a0 = s.blk.a0 ∧ t.blk.a1 = s.blk.a1 ∧ t.blk.amask = s.blk.amask ∧
      t.blk.c0raw.toNat = fieldValue s.fieldOrder ((s.stream.drop s.cursor).take 2) ∧
      t.blk.c1raw.toNat = fieldValue s.fieldOrder ((s.stream.drop (s.cursor + 2)).take 2) ∧
      t.blk.cidx.toNat = fieldValue s.fieldOrder ((s.stream.drop (s.cursor + 4)).take 4) ∧
      t.opaque4 = decide (t.blk.c1raw.toNat < t.blk.c0raw.toNat) ∧
      ∀ i : PixelIx,
        let c0 := expand565 t.blk.c0raw
        let c1 := expand565 t.blk.c1raw
        let sel := t.blk.cidx.toNat / 4 ^ i.val % 4
        (sel = 0 → t.pixel i = withAlpha c0 255) ∧
        (sel = 1 → t.pixel i = withAlpha c1 255) ∧
        (sel = 2 → t.pixel i = withAlpha (if t.opaque4 then w3Rgb c1 c0 else avg2Rgb c0 c1) 255) ∧
        (sel = 3 → t.pixel i = if t.opaque4 then withAlpha (w3Rgb c0 c1) 255 else ⟨0, 0, 0, 0⟩)) ∧
    (s.stream.length < s.cursor + 8 → ∃ t, exec .dxt1Block s = .next t ∧
      t = { s with errcode := .io, phase := .error, cursor := t.cursor, out := t.out, fresh := t.fresh } ∧
      t.out.cells = [] ∧ t.out.capacity = s.out.capacity)

/-- 43_dxt5.md R200, R204-R212, 30_encoding.md R86: DXT5_BLOCK with sixteen bytes left gives the fields in stream order, the
alpha mode, and every pixel by the colour palette and the alpha ramp; OPAQUE4 and everything outside the block are
unchanged. With fewer it raises IoError and nothing of the block is computed: only ERRCODE, STATE and the values that the
error leaves open (log entries 2, 3) change. -/
def Obligations.Dxt5BlockDecodes : Prop :=
  ∀ s : State,
    (s.cursor + 16 ≤ s.stream.length → ∃ t, exec .dxt5Block s = .next t ∧
      t = { s with blk := t.blk, alpha8 := t.alpha8, pix := t.pix, cursor := s.cursor + 16 } ∧ SameOut s t ∧
      t.blk.a0.toNat = fieldValue s.fieldOrder ((s.stream.drop s.cursor).take 1) ∧
      t.blk.a1.toNat = fieldValue s.fieldOrder ((s.stream.drop (s.cursor + 1)).take 1) ∧
      t.blk.amask.toNat = fieldValue s.fieldOrder ((s.stream.drop (s.cursor + 2)).take 6) ∧
      t.blk.c0raw.toNat = fieldValue s.fieldOrder ((s.stream.drop (s.cursor + 8)).take 2) ∧
      t.blk.c1raw.toNat = fieldValue s.fieldOrder ((s.stream.drop (s.cursor + 10)).take 2) ∧
      t.blk.cidx.toNat = fieldValue s.fieldOrder ((s.stream.drop (s.cursor + 12)).take 4) ∧
      t.alpha8 = decide (t.blk.a1.toNat < t.blk.a0.toNat) ∧
      ∀ i : PixelIx,
        let c0 := expand565 t.blk.c0raw
        let c1 := expand565 t.blk.c1raw
        let sel := t.blk.cidx.toNat / 4 ^ i.val % 4
        let asel := t.blk.amask.toNat / 8 ^ i.val % 8
        (∃ c : Rgb, (t.pixel i).r = c.r ∧ (t.pixel i).g = c.g ∧ (t.pixel i).b = c.b ∧
          (sel = 0 → c = c0) ∧ (sel = 1 → c = c1) ∧ (sel = 2 → c = w3Rgb c1 c0) ∧ (sel = 3 → c = w3Rgb c0 c1)) ∧
        (asel = 0 → (t.pixel i).a = t.blk.a0) ∧
        (asel = 1 → (t.pixel i).a = t.blk.a1) ∧
        (2 ≤ asel → t.alpha8 = true →
          (t.pixel i).a.toNat = ((8 - asel) * t.blk.a0.toNat + (asel - 1) * t.blk.a1.toNat) / 7) ∧
        (2 ≤ asel → asel ≤ 5 → t.alpha8 = false →
          (t.pixel i).a.toNat = ((6 - asel) * t.blk.a0.toNat + (asel - 1) * t.blk.a1.toNat) / 5) ∧
        (asel = 6 → t.alpha8 = false → (t.pixel i).a = 0) ∧
        (asel = 7 → t.alpha8 = false → (t.pixel i).a = 255)) ∧
    (s.stream.length < s.cursor + 16 → ∃ t, exec .dxt5Block s = .next t ∧
      t = { s with errcode := .io, phase := .error, cursor := t.cursor, out := t.out, fresh := t.fresh } ∧
      t.out.cells = [] ∧ t.out.capacity = s.out.capacity)

/-! ## The assembler -/

/-- 44_assembler.md R256, R252, R253, 20_memory.md R58, R60: ASSEMBLE completes when the image fits OUT: every pixel of
the block that is in bounds is written as its four bytes at its address, and every other byte reads as before. Nothing
but OUT changes. -/
def Obligations.AssembleWritesTheBlock : Prop :=
  ∀ s : State, s.outBytes ≤ s.out.capacity →
    let px := fun i : PixelIx => 4 * s.blkX + i.val % 4
    let py := fun i : PixelIx => 4 * s.blkY + i.val / 4
    let addr := fun i : PixelIx => 4 * (py i * s.widthPx + px i)
    ∃ t, exec .assemble s = .next t ∧ t = { s with out := t.out } ∧
      (∀ i, px i < s.widthPx → py i < s.heightPx →
        t.out.read (addr i) = (s.pixel i).r ∧ t.out.read (addr i + 1) = (s.pixel i).g ∧
        t.out.read (addr i + 2) = (s.pixel i).b ∧ t.out.read (addr i + 3) = (s.pixel i).a) ∧
      (∀ a, (∀ i, px i < s.widthPx → py i < s.heightPx → a < addr i ∨ addr i + 4 ≤ a) → t.out.read a = s.out.read a)

/-- 44_assembler.md R257: whatever ASSEMBLE does, in any state, no byte at or above 4*width*height changes, and a byte
that changes belongs to a pixel of this block inside the image. -/
def Obligations.NoWriteOutsideTheImage : Prop :=
  ∀ s t : State, exec .assemble s = .next t → ∀ a, t.out.read a ≠ s.out.read a →
    a < 4 * s.widthPx * s.heightPx ∧
    ∃ px py, px < s.widthPx ∧ py < s.heightPx ∧ px / 4 = s.blkX ∧ py / 4 = s.blkY ∧
      4 * (py * s.widthPx + px) ≤ a ∧ a < 4 * (py * s.widthPx + px) + 4

/-- 44_assembler.md R258: two different blocks of one call write disjoint sets of addresses. -/
def Obligations.BlocksWriteDisjointAddresses : Prop :=
  ∀ s s' : State, s'.width = s.width → s'.height = s.height → (s'.blkX ≠ s.blkX ∨ s'.blkY ≠ s.blkY) →
    ∀ c ∈ s.cellsOfBlock, ∀ c' ∈ s'.cellsOfBlock, c.1 ≠ c'.1

/-- 44_assembler.md R254: an edge block writes the rectangle of `cols` x `rows` pixels, each in 1..4, and only blocks of
the last column or row have fewer than 4. All `BS` bytes of the block are consumed, whatever `cols` and `rows` are. -/
def Obligations.EdgeBlockRectangle : Prop :=
  ∀ s : State, s.blkX < s.bxCnt → s.blkY < s.byCnt →
    let cols := min 4 (s.widthPx - 4 * s.blkX)
    let rows := min 4 (s.heightPx - 4 * s.blkY)
    1 ≤ cols ∧ 1 ≤ rows ∧ (∀ i : PixelIx, s.inBounds i = true ↔ i.val % 4 < cols ∧ i.val / 4 < rows) ∧
    (cols < 4 → s.blkX = s.bxCnt - 1 ∧ s.widthPx % 4 ≠ 0) ∧
    (rows < 4 → s.blkY = s.byCnt - 1 ∧ s.heightPx % 4 ≠ 0) ∧
    (s.cursor + s.blockBytes ≤ s.stream.length →
      ∃ t, exec (if cmdFormat s.cmd = 0 then .dxt1Block else .dxt5Block) s = .next t ∧ t.cursor = s.cursor + s.blockBytes)

/-! ## The block step -/

/-- 44_assembler.md R262: a block step of a call in progress, with a whole block left in the stream, with nothing on the
agenda or at a turn of the engine such as WAIT gives it (log entry 1). OUT gets the in-bounds
pixels of the block, CURSOR advances by BS, the counters move on in block order, and STATE is DONE after the last block.
The registers, the stream and every other byte of OUT are unchanged. -/
def Obligations.BlockStepDecodesABlock : Prop :=
  ∀ (s : State) (rest : List Event), s.EngineNext rest → s.phase = .busy → s.LegalCall → s.AtBlock →
    s.cursor + s.blockBytes ≤ s.stream.length →
    ∃ (t : State) (p : Pixels), step s = .next t ∧
      blockPixels (cmdFormat s.cmd) s.fieldOrder ((s.stream.drop s.cursor).take s.blockBytes) = .ok p ∧
      (∀ i : PixelIx, s.inBounds i = true →
        t.out.read (s.pixelAddress i) = p[i.val].r ∧ t.out.read (s.pixelAddress i + 1) = p[i.val].g ∧
        t.out.read (s.pixelAddress i + 2) = p[i.val].b ∧ t.out.read (s.pixelAddress i + 3) = p[i.val].a) ∧
      (∀ a, (∀ i, s.inBounds i = true → a < s.pixelAddress i ∨ s.pixelAddress i + 4 ≤ a) →
        t.out.read a = s.out.read a) ∧
      t.cursor = s.cursor + s.blockBytes ∧
      (s.blkX + 1 < s.bxCnt → t.blkX = s.blkX + 1 ∧ t.blkY = s.blkY ∧ t.phase = .busy) ∧
      (s.blkX + 1 = s.bxCnt → t.blkX = 0 ∧ t.blkY = s.blkY + 1 ∧
        t.phase = if s.blkY + 1 = s.byCnt then .done else .busy) ∧
      t.cmd = s.cmd ∧ t.width = s.width ∧ t.height = s.height ∧ t.errcode = s.errcode ∧ t.stream = s.stream ∧
      t.presented = s.presented ∧ t.agenda = rest ∧ t.replies = s.replies ∧ t.call = s.call ∧
      t.out.capacity = s.out.capacity

/-- 44_assembler.md R262, 60_exceptions.md R306: a block step that finds too few bytes for its block, with nothing on the
agenda or at a turn of the engine such as WAIT gives it (log entry 1), ends the call with IoError; the registers and the block counters are unchanged, and the engine has no enabled step. -/
def Obligations.BlockStepShortRead : Prop :=
  ∀ (s : State) (rest : List Event), s.EngineNext rest → s.phase = .busy → s.stream.length < s.cursor + s.blockBytes →
    ∃ t, step s = .next t ∧ t.phase = .error ∧ t.errcode = .io ∧ t.cmd = s.cmd ∧ t.width = s.width ∧
      t.height = s.height ∧ t.blkX = s.blkX ∧ t.blkY = s.blkY ∧ t.stream = s.stream ∧ t.presented = s.presented ∧
      t.agenda = rest ∧ t.replies = s.replies ∧ t.call = s.call ∧ t.out.cells = [] ∧ t.out.capacity = s.out.capacity ∧
      step { t with agenda := [] } = .next { t with agenda := [] }

/-! ## What every step keeps -/

/-- 10_state.md R37 items 1 and 2, R30: in a machine that only the spec's agents drive, every step keeps the invariant of
a call in progress. -/
def Obligations.StepKeepsCallInvariant : Prop :=
  ∀ s t : State, s.noWords → s.CallInv → step s = .next t → t.noWords ∧ t.CallInv

/-- 10_state.md R37 item 4: STATE is IDLE, BUSY or DONE if and only if CODE is NONE, and every step keeps that. -/
def Obligations.StepKeepsCodeInvariant : Prop :=
  ∀ s t : State, s.CodeInv → step s = .next t → t.CodeInv

/-- Every step keeps the canonical form of OUT: strictly rising addresses, all below OUT_CAPACITY (10_state.md R34). -/
def Obligations.StepKeepsOutCanonical : Prop :=
  ∀ s t : State, s.out.wf → step s = .next t → t.out.wf

/-- The state after reset meets the invariants. -/
def Obligations.ResetMeetsInvariants : Prop :=
  State.reset.noWords ∧ State.reset.CallInv ∧ State.reset.EndInv ∧ State.reset.CodeInv ∧ State.reset.out.wf ∧ 4 ≤ State.reset.out.capacity

/-- 10_state.md R37 item 3, R30: the step that ends a call in DONE leaves the counters and CURSOR at the end of the
image. -/
def Obligations.CallEndsAfterLastBlock : Prop :=
  ∀ s t : State, s.noWords → s.CallInv → s.phase = .busy → step s = .next t → t.phase = .done →
    t.blkX = 0 ∧ t.blkY = t.byCnt ∧ t.cursor = t.nBlocks * t.blockBytes

/-- 10_state.md R37 item 3 at every point between steps, the host's writes in DONE among them (70_reset_and_hazards.md
R345): DONE implies that the counters and CURSOR stand at the end of the call's image. BY_CNT, NBLOCKS and BS are those of
the registers as the call read them (R24, R35; log entry 9), and in BUSY those are the registers. -/
def Obligations.EndStateSurvivesHostWrites : Prop :=
  ∀ s t : State, s.noWords → s.CallInv → s.EndInv → step s = .next t → t.EndInv

/-- 00_scope.md R7: OUT_CAPACITY and FIELD_ORDER are parameters: no step changes them. -/
def Obligations.StepKeepsParameters : Prop :=
  ∀ s t : State, step s = .next t → t.out.capacity = s.out.capacity ∧ t.fieldOrder = s.fieldOrder

/-- 10_state.md R26, 60_exceptions.md R306, R308: only START, the block step, the error rule and reset change STATE or
ERRCODE, and only in the ways of the rules' lists. -/
def Obligations.StateTransitions : Prop :=
  ∀ s t : State, s.noWords → step s = .next t →
    (t.phase = s.phase ∧ t.errcode = s.errcode) ∨
    (t.phase = .idle ∧ t.errcode = .none ∧ ∃ rest, s.agenda = .host .reset :: rest) ∨
    (s.phase ≠ .busy ∧ (t.phase = .busy ∧ t.errcode = .none ∨ t.phase = .error ∧ t.errcode ≠ .none) ∧
      ∃ w rest, s.agenda = wr .cmd w :: rest ∧ w.getLsbD 4 = true) ∨
    (s.phase = .busy ∧ (t.phase = .done ∧ t.errcode = s.errcode ∨ t.phase = .error ∧ t.errcode = .io) ∧
      (s.agenda = [] ∨ ∃ rest, s.agenda = .engine :: rest))

/-- 70_reset_and_hazards.md R341, R342: as long as a call goes on, no step changes CMD, WIDTH, HEIGHT or the stream of
the call. -/
def Obligations.ArgumentsFixedDuringCall : Prop :=
  ∀ s t : State, s.phase = .busy → t.phase = .busy → step s = .next t →
    t.cmd = s.cmd ∧ t.width = s.width ∧ t.height = s.height ∧ t.stream = s.stream

/-- 10_state.md R34, 20_memory.md R50, 70_reset_and_hazards.md R344: OUT changes only in a block step, by a START that fails
(after which OUT has any value, log entry 2) or by reset; no action of the host writes OUT. -/
def Obligations.OnlyTheDecoderWritesOut : Prop :=
  ∀ s t : State, s.noWords → step s = .next t → t.out ≠ s.out →
    (s.phase = .busy ∧ (s.agenda = [] ∨ ∃ rest, s.agenda = .engine :: rest)) ∨
    (t.phase = .error ∧ ∃ w rest, s.agenda = wr .cmd w :: rest ∧ w.getLsbD 4 = true) ∨
    (t.phase = .idle ∧ ∃ rest, s.agenda = .host .reset :: rest)

/-! ## Whole calls -/

/-- 44_assembler.md R251: after `k` block steps of a call with `k` whole blocks in its stream, the next block is
`(k mod BX_CNT, k / BX_CNT)` and its bytes begin at `k*BS`; after the last the call is DONE. -/
def Obligations.BlockOrder : Prop :=
  ∀ (s : State) (k : Nat), s.CallStarted → k ≤ s.nBlocks → k * s.blockBytes ≤ s.stream.length →
    ∃ t : State, Host.Core.run core k s = .next t ∧ t.blkX = k % s.bxCnt ∧ t.blkY = k / s.bxCnt ∧
      t.cursor = k * s.blockBytes ∧ t.phase = if k = s.nBlocks then .done else .busy

/-- 44_assembler.md R260, R266, R268, R270, R271: a command in a state that is not BUSY, with positive dimensions that fit
OUT and a stream that is long enough, ends in DONE after its START and NBLOCKS block steps, with the image of
DECODE_IMAGE in OUT, CURSOR at the end of the blocks, and every byte at or above 4*width*height as before. -/
def Obligations.DecodeCallProducesImage : Prop :=
  ∀ (s : State) (w : Word), (w = 0x10 ∨ w = 0x11) → s.agenda = [wr .cmd w] → s.phase ≠ .busy →
    0 < s.width.toInt → 0 < s.height.toInt → s.outBytes ≤ s.out.capacity →
    s.nBlocks * blockSize (cmdFormat w) ≤ s.presented.length →
    ∃ t : State, Host.Core.run core (s.nBlocks + 1) s = .next t ∧ t.phase = .done ∧ t.errcode = .none ∧
      t.cursor = s.nBlocks * blockSize (cmdFormat w) ∧ t.blkX = 0 ∧ t.blkY = s.byCnt ∧
      (∀ px py, px < s.widthPx → py < s.heightPx →
        ∃ p : Rgba, imagePixel (cmdFormat w) s.fieldOrder s.widthPx s.presented px py = .ok p ∧
          t.out.read (pixelAddr s.widthPx px py) = p.r ∧ t.out.read (pixelAddr s.widthPx px py + 1) = p.g ∧
          t.out.read (pixelAddr s.widthPx px py + 2) = p.b ∧ t.out.read (pixelAddr s.widthPx px py + 3) = p.a) ∧
      (∀ a, s.outBytes ≤ a → t.out.read a = s.out.read a)

/-- 44_assembler.md R268, R269: a command whose stream is too short ends in ERROR with CODE = IO, after its START, one
block step for each whole block of the stream, and the step that finds too few bytes. -/
def Obligations.ShortStreamEndsInIoError : Prop :=
  ∀ (s : State) (w : Word), (w = 0x10 ∨ w = 0x11) → s.agenda = [wr .cmd w] → s.phase ≠ .busy →
    0 < s.width.toInt → 0 < s.height.toInt → s.outBytes ≤ s.out.capacity →
    s.presented.length < s.nBlocks * blockSize (cmdFormat w) →
    ∃ t : State, Host.Core.run core (s.presented.length / blockSize (cmdFormat w) + 2) s = .next t ∧
      t.phase = .error ∧ t.errcode = .io

/-- 44_assembler.md R268: DECODE_IMAGE answers Error(IO) exactly when the stream is too short, and otherwise the bytes of
the image: 4*width*height of them, each pixel's four at its address. -/
def Obligations.DecodeImageBytes : Prop :=
  ∀ (fmt : BitVec 2) (o : FieldOrder) (w h : Nat) (stream : List Byte),
    (stream.length < blocksAcross w * blocksAcross h * blockSize fmt → decodeImage fmt o w h stream = .error .ioError) ∧
    (blocksAcross w * blocksAcross h * blockSize fmt ≤ stream.length →
      ∃ out : List Byte, decodeImage fmt o w h stream = .ok out ∧ out.length = 4 * w * h ∧
        ∀ px py, px < w → py < h → ∃ p : Rgba, imagePixel fmt o w stream px py = .ok p ∧
          out[pixelAddr w px py]? = some p.r ∧ out[pixelAddr w px py + 1]? = some p.g ∧
          out[pixelAddr w px py + 2]? = some p.b ∧ out[pixelAddr w px py + 3]? = some p.a)

/-- 20_memory.md R57: the bytes after the last block change nothing: the same call with more bytes at the end of its
stream goes through the same states. -/
def Obligations.TrailingBytesChangeNothing : Prop :=
  ∀ (s : State) (extra : List Byte), s.CallStarted → s.nBlocks * s.blockBytes ≤ s.stream.length →
    ∀ k ≤ s.nBlocks, ∃ t : State, Host.Core.run core k s = .next t ∧
      Host.Core.run core k { s with stream := s.stream ++ extra } = .next { t with stream := s.stream ++ extra }

/-- 44_assembler.md R266: the result does not depend on OUT's contents before the call. -/
def Obligations.ResultIndependentOfOldOut : Prop :=
  ∀ (s : State) (m : Memory), s.CallStarted → s.nBlocks * s.blockBytes ≤ s.stream.length → m.capacity = s.out.capacity →
    ∃ t t' : State, Host.Core.run core s.nBlocks s = .next t ∧
      Host.Core.run core s.nBlocks { s with out := m } = .next t' ∧ t.phase = .done ∧ t'.phase = .done ∧
      ∀ a < s.outBytes, t'.out.read a = t.out.read a
end

