-- ==== Sys2Proof/Laws/State.lean ====
section
/-! SUPPORT. The fields of the state after each named update: one lemma per field, so that no later proof unfolds a
record update. -/

namespace Sys2Proof.Machine

variable (s : State)

/-! `setPixel` -/

@[simp] theorem setPixel_cmd (i : PixelIx) (p : Rgba) : (s.setPixel i p).cmd = s.cmd := rfl
@[simp] theorem setPixel_width (i : PixelIx) (p : Rgba) : (s.setPixel i p).width = s.width := rfl
@[simp] theorem setPixel_height (i : PixelIx) (p : Rgba) : (s.setPixel i p).height = s.height := rfl
@[simp] theorem setPixel_phase (i : PixelIx) (p : Rgba) : (s.setPixel i p).phase = s.phase := rfl
@[simp] theorem setPixel_errcode (i : PixelIx) (p : Rgba) : (s.setPixel i p).errcode = s.errcode := rfl
@[simp] theorem setPixel_cursor (i : PixelIx) (p : Rgba) : (s.setPixel i p).cursor = s.cursor := rfl
@[simp] theorem setPixel_blkX (i : PixelIx) (p : Rgba) : (s.setPixel i p).blkX = s.blkX := rfl
@[simp] theorem setPixel_blkY (i : PixelIx) (p : Rgba) : (s.setPixel i p).blkY = s.blkY := rfl
@[simp] theorem setPixel_blk (i : PixelIx) (p : Rgba) : (s.setPixel i p).blk = s.blk := rfl
@[simp] theorem setPixel_opaque4 (i : PixelIx) (p : Rgba) : (s.setPixel i p).opaque4 = s.opaque4 := rfl
@[simp] theorem setPixel_alpha8 (i : PixelIx) (p : Rgba) : (s.setPixel i p).alpha8 = s.alpha8 := rfl
@[simp] theorem setPixel_out (i : PixelIx) (p : Rgba) : (s.setPixel i p).out = s.out := rfl
@[simp] theorem setPixel_fieldOrder (i : PixelIx) (p : Rgba) : (s.setPixel i p).fieldOrder = s.fieldOrder := rfl
@[simp] theorem setPixel_stream (i : PixelIx) (p : Rgba) : (s.setPixel i p).stream = s.stream := rfl
@[simp] theorem setPixel_presented (i : PixelIx) (p : Rgba) : (s.setPixel i p).presented = s.presented := rfl
@[simp] theorem setPixel_call (i : PixelIx) (p : Rgba) : (s.setPixel i p).call = s.call := rfl
@[simp] theorem setPixel_pix (i : PixelIx) (p : Rgba) : (s.setPixel i p).pix = s.pix.set i.val p := rfl
@[simp] theorem setPixel_unitRgb (i : PixelIx) (p : Rgba) : (s.setPixel i p).unitRgb = s.unitRgb := rfl
@[simp] theorem setPixel_unitVal (i : PixelIx) (p : Rgba) : (s.setPixel i p).unitVal = s.unitVal := rfl
@[simp] theorem setPixel_agenda (i : PixelIx) (p : Rgba) : (s.setPixel i p).agenda = s.agenda := rfl
@[simp] theorem setPixel_replies (i : PixelIx) (p : Rgba) : (s.setPixel i p).replies = s.replies := rfl
@[simp] theorem setPixel_fresh (i : PixelIx) (p : Rgba) : (s.setPixel i p).fresh = s.fresh := rfl

/-! `endBlock` -/

@[simp] theorem endBlock_cmd : s.endBlock.cmd = s.cmd := rfl
@[simp] theorem endBlock_width : s.endBlock.width = s.width := rfl
@[simp] theorem endBlock_height : s.endBlock.height = s.height := rfl
@[simp] theorem endBlock_phase : s.endBlock.phase = s.phase := rfl
@[simp] theorem endBlock_errcode : s.endBlock.errcode = s.errcode := rfl
@[simp] theorem endBlock_cursor : s.endBlock.cursor = s.cursor := rfl
@[simp] theorem endBlock_blkX : s.endBlock.blkX = s.blkX := rfl
@[simp] theorem endBlock_blkY : s.endBlock.blkY = s.blkY := rfl
@[simp] theorem endBlock_blk : s.endBlock.blk = (Config.freeTransient s.fresh).blk := rfl
@[simp] theorem endBlock_opaque4 : s.endBlock.opaque4 = (Config.freeTransient s.fresh).opaque4 := rfl
@[simp] theorem endBlock_alpha8 : s.endBlock.alpha8 = (Config.freeTransient s.fresh).alpha8 := rfl
@[simp] theorem endBlock_out : s.endBlock.out = s.out := rfl
@[simp] theorem endBlock_fieldOrder : s.endBlock.fieldOrder = s.fieldOrder := rfl
@[simp] theorem endBlock_stream : s.endBlock.stream = s.stream := rfl
@[simp] theorem endBlock_presented : s.endBlock.presented = s.presented := rfl
@[simp] theorem endBlock_call : s.endBlock.call = s.call := rfl
@[simp] theorem endBlock_pix : s.endBlock.pix = (Config.freeTransient s.fresh).pix := rfl
@[simp] theorem endBlock_unitRgb : s.endBlock.unitRgb = s.unitRgb := rfl
@[simp] theorem endBlock_unitVal : s.endBlock.unitVal = s.unitVal := rfl
@[simp] theorem endBlock_agenda : s.endBlock.agenda = s.agenda := rfl
@[simp] theorem endBlock_replies : s.endBlock.replies = s.replies := rfl
@[simp] theorem endBlock_fresh : s.endBlock.fresh = s.fresh + 1 := rfl

/-! `raise` -/

@[simp] theorem raise_cmd (e : HwError) : (s.raise e).cmd = s.cmd := rfl
@[simp] theorem raise_width (e : HwError) : (s.raise e).width = s.width := rfl
@[simp] theorem raise_height (e : HwError) : (s.raise e).height = s.height := rfl
@[simp] theorem raise_phase (e : HwError) : (s.raise e).phase = .error := rfl
@[simp] theorem raise_errcode (e : HwError) : (s.raise e).errcode = e.code := rfl
@[simp] theorem raise_cursor (e : HwError) : (s.raise e).cursor = Config.freeCursor s.fresh := rfl
@[simp] theorem raise_blkX (e : HwError) : (s.raise e).blkX = s.blkX := rfl
@[simp] theorem raise_blkY (e : HwError) : (s.raise e).blkY = s.blkY := rfl
@[simp] theorem raise_blk (e : HwError) : (s.raise e).blk = s.blk := rfl
@[simp] theorem raise_opaque4 (e : HwError) : (s.raise e).opaque4 = s.opaque4 := rfl
@[simp] theorem raise_alpha8 (e : HwError) : (s.raise e).alpha8 = s.alpha8 := rfl
@[simp] theorem raise_out (e : HwError) : (s.raise e).out = s.out.forget := rfl
@[simp] theorem raise_fieldOrder (e : HwError) : (s.raise e).fieldOrder = s.fieldOrder := rfl
@[simp] theorem raise_stream (e : HwError) : (s.raise e).stream = s.stream := rfl
@[simp] theorem raise_presented (e : HwError) : (s.raise e).presented = s.presented := rfl
@[simp] theorem raise_call (e : HwError) : (s.raise e).call = s.call := rfl
@[simp] theorem raise_pix (e : HwError) : (s.raise e).pix = s.pix := rfl
@[simp] theorem raise_unitRgb (e : HwError) : (s.raise e).unitRgb = s.unitRgb := rfl
@[simp] theorem raise_unitVal (e : HwError) : (s.raise e).unitVal = s.unitVal := rfl
@[simp] theorem raise_agenda (e : HwError) : (s.raise e).agenda = s.agenda := rfl
@[simp] theorem raise_replies (e : HwError) : (s.raise e).replies = s.replies := rfl
@[simp] theorem raise_fresh (e : HwError) : (s.raise e).fresh = s.fresh + 1 := rfl

/-! `beginCall` -/

@[simp] theorem beginCall_cmd : s.beginCall.cmd = s.cmd := rfl
@[simp] theorem beginCall_width : s.beginCall.width = s.width := rfl
@[simp] theorem beginCall_height : s.beginCall.height = s.height := rfl
@[simp] theorem beginCall_phase : s.beginCall.phase = .busy := rfl
@[simp] theorem beginCall_errcode : s.beginCall.errcode = .none := rfl
@[simp] theorem beginCall_cursor : s.beginCall.cursor = 0 := rfl
@[simp] theorem beginCall_blkX : s.beginCall.blkX = 0 := rfl
@[simp] theorem beginCall_blkY : s.beginCall.blkY = 0 := rfl
@[simp] theorem beginCall_blk : s.beginCall.blk = s.blk := rfl
@[simp] theorem beginCall_opaque4 : s.beginCall.opaque4 = s.opaque4 := rfl
@[simp] theorem beginCall_alpha8 : s.beginCall.alpha8 = s.alpha8 := rfl
@[simp] theorem beginCall_out : s.beginCall.out = s.out := rfl
@[simp] theorem beginCall_fieldOrder : s.beginCall.fieldOrder = s.fieldOrder := rfl
@[simp] theorem beginCall_stream : s.beginCall.stream = s.stream := rfl
@[simp] theorem beginCall_presented : s.beginCall.presented = s.presented := rfl
@[simp] theorem beginCall_call : s.beginCall.call = s.registers := rfl
@[simp] theorem beginCall_pix : s.beginCall.pix = s.pix := rfl
@[simp] theorem beginCall_unitRgb : s.beginCall.unitRgb = s.unitRgb := rfl
@[simp] theorem beginCall_unitVal : s.beginCall.unitVal = s.unitVal := rfl
@[simp] theorem beginCall_agenda : s.beginCall.agenda = s.agenda := rfl
@[simp] theorem beginCall_replies : s.beginCall.replies = s.replies := rfl
@[simp] theorem beginCall_fresh : s.beginCall.fresh = s.fresh := rfl

/-! `acceptStart` -/

@[simp] theorem acceptStart_cmd (w : Word) : (s.acceptStart w).cmd = clearStart w := rfl
@[simp] theorem acceptStart_width (w : Word) : (s.acceptStart w).width = s.width := rfl
@[simp] theorem acceptStart_height (w : Word) : (s.acceptStart w).height = s.height := rfl
@[simp] theorem acceptStart_phase (w : Word) : (s.acceptStart w).phase = s.phase := rfl
@[simp] theorem acceptStart_errcode (w : Word) : (s.acceptStart w).errcode = s.errcode := rfl
@[simp] theorem acceptStart_cursor (w : Word) : (s.acceptStart w).cursor = s.cursor := rfl
@[simp] theorem acceptStart_blkX (w : Word) : (s.acceptStart w).blkX = s.blkX := rfl
@[simp] theorem acceptStart_blkY (w : Word) : (s.acceptStart w).blkY = s.blkY := rfl
@[simp] theorem acceptStart_blk (w : Word) : (s.acceptStart w).blk = s.blk := rfl
@[simp] theorem acceptStart_opaque4 (w : Word) : (s.acceptStart w).opaque4 = s.opaque4 := rfl
@[simp] theorem acceptStart_alpha8 (w : Word) : (s.acceptStart w).alpha8 = s.alpha8 := rfl
@[simp] theorem acceptStart_out (w : Word) : (s.acceptStart w).out = s.out := rfl
@[simp] theorem acceptStart_fieldOrder (w : Word) : (s.acceptStart w).fieldOrder = s.fieldOrder := rfl
@[simp] theorem acceptStart_stream (w : Word) : (s.acceptStart w).stream = s.presented := rfl
@[simp] theorem acceptStart_presented (w : Word) : (s.acceptStart w).presented = [] := rfl
@[simp] theorem acceptStart_call (w : Word) : (s.acceptStart w).call = s.call := rfl
@[simp] theorem acceptStart_pix (w : Word) : (s.acceptStart w).pix = s.pix := rfl
@[simp] theorem acceptStart_unitRgb (w : Word) : (s.acceptStart w).unitRgb = s.unitRgb := rfl
@[simp] theorem acceptStart_unitVal (w : Word) : (s.acceptStart w).unitVal = s.unitVal := rfl
@[simp] theorem acceptStart_agenda (w : Word) : (s.acceptStart w).agenda = s.agenda := rfl
@[simp] theorem acceptStart_replies (w : Word) : (s.acceptStart w).replies = s.replies := rfl
@[simp] theorem acceptStart_fresh (w : Word) : (s.acceptStart w).fresh = s.fresh := rfl

/-! `reply` -/

@[simp] theorem reply_cmd (r : Reply) : (s.reply r).cmd = s.cmd := rfl
@[simp] theorem reply_width (r : Reply) : (s.reply r).width = s.width := rfl
@[simp] theorem reply_height (r : Reply) : (s.reply r).height = s.height := rfl
@[simp] theorem reply_phase (r : Reply) : (s.reply r).phase = s.phase := rfl
@[simp] theorem reply_errcode (r : Reply) : (s.reply r).errcode = s.errcode := rfl
@[simp] theorem reply_cursor (r : Reply) : (s.reply r).cursor = s.cursor := rfl
@[simp] theorem reply_blkX (r : Reply) : (s.reply r).blkX = s.blkX := rfl
@[simp] theorem reply_blkY (r : Reply) : (s.reply r).blkY = s.blkY := rfl
@[simp] theorem reply_blk (r : Reply) : (s.reply r).blk = s.blk := rfl
@[simp] theorem reply_opaque4 (r : Reply) : (s.reply r).opaque4 = s.opaque4 := rfl
@[simp] theorem reply_alpha8 (r : Reply) : (s.reply r).alpha8 = s.alpha8 := rfl
@[simp] theorem reply_out (r : Reply) : (s.reply r).out = s.out := rfl
@[simp] theorem reply_fieldOrder (r : Reply) : (s.reply r).fieldOrder = s.fieldOrder := rfl
@[simp] theorem reply_stream (r : Reply) : (s.reply r).stream = s.stream := rfl
@[simp] theorem reply_presented (r : Reply) : (s.reply r).presented = s.presented := rfl
@[simp] theorem reply_call (r : Reply) : (s.reply r).call = s.call := rfl
@[simp] theorem reply_pix (r : Reply) : (s.reply r).pix = s.pix := rfl
@[simp] theorem reply_unitRgb (r : Reply) : (s.reply r).unitRgb = s.unitRgb := rfl
@[simp] theorem reply_unitVal (r : Reply) : (s.reply r).unitVal = s.unitVal := rfl
@[simp] theorem reply_agenda (r : Reply) : (s.reply r).agenda = s.agenda := rfl
@[simp] theorem reply_replies (r : Reply) : (s.reply r).replies = r :: s.replies := rfl
@[simp] theorem reply_fresh (r : Reply) : (s.reply r).fresh = s.fresh := rfl

/-! `hostReset` -/

@[simp] theorem hostReset_cmd : s.hostReset.cmd = 0 := rfl
@[simp] theorem hostReset_width : s.hostReset.width = 0 := rfl
@[simp] theorem hostReset_height : s.hostReset.height = 0 := rfl
@[simp] theorem hostReset_phase : s.hostReset.phase = .idle := rfl
@[simp] theorem hostReset_errcode : s.hostReset.errcode = .none := rfl
@[simp] theorem hostReset_cursor : s.hostReset.cursor = 0 := rfl
@[simp] theorem hostReset_blkX : s.hostReset.blkX = 0 := rfl
@[simp] theorem hostReset_blkY : s.hostReset.blkY = 0 := rfl
@[simp] theorem hostReset_blk : s.hostReset.blk = ⟨0, 0, 0, 0, 0, 0⟩ := rfl
@[simp] theorem hostReset_opaque4 : s.hostReset.opaque4 = false := rfl
@[simp] theorem hostReset_alpha8 : s.hostReset.alpha8 = false := rfl
@[simp] theorem hostReset_out : s.hostReset.out = s.out.forget := rfl
@[simp] theorem hostReset_fieldOrder : s.hostReset.fieldOrder = s.fieldOrder := rfl
@[simp] theorem hostReset_stream : s.hostReset.stream = [] := rfl
@[simp] theorem hostReset_presented : s.hostReset.presented = s.presented := rfl
@[simp] theorem hostReset_call : s.hostReset.call = ⟨0, 0, 0⟩ := rfl
@[simp] theorem hostReset_pix : s.hostReset.pix = Vector.replicate 16 ⟨0, 0, 0, 0⟩ := rfl
@[simp] theorem hostReset_unitRgb : s.hostReset.unitRgb = ⟨0, 0, 0⟩ := rfl
@[simp] theorem hostReset_unitVal : s.hostReset.unitVal = 0 := rfl
@[simp] theorem hostReset_agenda : s.hostReset.agenda = s.agenda := rfl
@[simp] theorem hostReset_replies : s.hostReset.replies = s.replies := rfl
@[simp] theorem hostReset_fresh : s.hostReset.fresh = s.fresh := rfl

/-! `advance`: the block counters and STATE only -/

@[simp] theorem advance_cmd : s.advance.cmd = s.cmd := by
  simp only [State.advance, State.closeCall, State.nextBlock]; split <;> split <;> rfl
@[simp] theorem advance_width : s.advance.width = s.width := by
  simp only [State.advance, State.closeCall, State.nextBlock]; split <;> split <;> rfl
@[simp] theorem advance_height : s.advance.height = s.height := by
  simp only [State.advance, State.closeCall, State.nextBlock]; split <;> split <;> rfl
@[simp] theorem advance_errcode : s.advance.errcode = s.errcode := by
  simp only [State.advance, State.closeCall, State.nextBlock]; split <;> split <;> rfl
@[simp] theorem advance_cursor : s.advance.cursor = s.cursor := by
  simp only [State.advance, State.closeCall, State.nextBlock]; split <;> split <;> rfl
@[simp] theorem advance_blk : s.advance.blk = s.blk := by
  simp only [State.advance, State.closeCall, State.nextBlock]; split <;> split <;> rfl
@[simp] theorem advance_opaque4 : s.advance.opaque4 = s.opaque4 := by
  simp only [State.advance, State.closeCall, State.nextBlock]; split <;> split <;> rfl
@[simp] theorem advance_alpha8 : s.advance.alpha8 = s.alpha8 := by
  simp only [State.advance, State.closeCall, State.nextBlock]; split <;> split <;> rfl
@[simp] theorem advance_out : s.advance.out = s.out := by
  simp only [State.advance, State.closeCall, State.nextBlock]; split <;> split <;> rfl
@[simp] theorem advance_fieldOrder : s.advance.fieldOrder = s.fieldOrder := by
  simp only [State.advance, State.closeCall, State.nextBlock]; split <;> split <;> rfl
@[simp] theorem advance_stream : s.advance.stream = s.stream := by
  simp only [State.advance, State.closeCall, State.nextBlock]; split <;> split <;> rfl
@[simp] theorem advance_presented : s.advance.presented = s.presented := by
  simp only [State.advance, State.closeCall, State.nextBlock]; split <;> split <;> rfl
@[simp] theorem advance_call : s.advance.call = s.call := by
  simp only [State.advance, State.closeCall, State.nextBlock]; split <;> split <;> rfl
@[simp] theorem advance_pix : s.advance.pix = s.pix := by
  simp only [State.advance, State.closeCall, State.nextBlock]; split <;> split <;> rfl
@[simp] theorem advance_unitRgb : s.advance.unitRgb = s.unitRgb := by
  simp only [State.advance, State.closeCall, State.nextBlock]; split <;> split <;> rfl
@[simp] theorem advance_unitVal : s.advance.unitVal = s.unitVal := by
  simp only [State.advance, State.closeCall, State.nextBlock]; split <;> split <;> rfl
@[simp] theorem advance_agenda : s.advance.agenda = s.agenda := by
  simp only [State.advance, State.closeCall, State.nextBlock]; split <;> split <;> rfl
@[simp] theorem advance_replies : s.advance.replies = s.replies := by
  simp only [State.advance, State.closeCall, State.nextBlock]; split <;> split <;> rfl
@[simp] theorem advance_fresh : s.advance.fresh = s.fresh := by
  simp only [State.advance, State.closeCall, State.nextBlock]; split <;> split <;> rfl

/-! `asCalled`: the registers as the last call read them -/

@[simp] theorem asCalled_cmd : s.asCalled.cmd = s.call.cmd := rfl
@[simp] theorem asCalled_width : s.asCalled.width = s.call.width := rfl
@[simp] theorem asCalled_height : s.asCalled.height = s.call.height := rfl

/-- As long as the host has not written the registers, they are what the call read. -/
theorem asCalled_of_registers {s : State} (h : s.call = s.registers) : s.asCalled = s := by
  rw [State.asCalled, congrArg CallArgs.cmd h, congrArg CallArgs.width h, congrArg CallArgs.height h]
  rfl

/-! The derived quantities depend on WIDTH, HEIGHT and CMD only. -/

theorem widthInt_congr {s t : State} (hwidth : t.width = s.width) : t.widthInt = s.widthInt := by
  simp only [State.widthInt, hwidth]

theorem heightInt_congr {s t : State} (hheight : t.height = s.height) : t.heightInt = s.heightInt := by
  simp only [State.heightInt, hheight]

theorem widthPx_congr {s t : State} (hwidth : t.width = s.width) : t.widthPx = s.widthPx := by
  simp only [State.widthPx, State.widthInt, hwidth]

theorem heightPx_congr {s t : State} (hheight : t.height = s.height) : t.heightPx = s.heightPx := by
  simp only [State.heightPx, State.heightInt, hheight]

theorem bxCnt_congr {s t : State} (hwidth : t.width = s.width) : t.bxCnt = s.bxCnt := by
  simp only [State.bxCnt, State.widthPx, State.widthInt, hwidth]

theorem byCnt_congr {s t : State} (hheight : t.height = s.height) : t.byCnt = s.byCnt := by
  simp only [State.byCnt, State.heightPx, State.heightInt, hheight]

theorem nBlocks_congr {s t : State} (hwidth : t.width = s.width) (hheight : t.height = s.height) : t.nBlocks = s.nBlocks := by
  simp only [State.nBlocks, State.bxCnt, State.byCnt, State.widthPx, State.heightPx, State.widthInt, State.heightInt, hwidth, hheight]

theorem outBytes_congr {s t : State} (hwidth : t.width = s.width) (hheight : t.height = s.height) : t.outBytes = s.outBytes := by
  simp only [State.outBytes, State.widthPx, State.heightPx, State.widthInt, State.heightInt, hwidth, hheight]

theorem blockBytes_congr {s t : State} (hcmd : t.cmd = s.cmd) : t.blockBytes = s.blockBytes := by
  simp only [State.blockBytes, hcmd]

end Sys2Proof.Machine
end

