-- ==== Sys2Proof/Laws/Arith.lean ====
section
/-! SUPPORT. The datapath as natural numbers: ranges of the bit fields, and the values of the expander and of the
blends. -/

namespace Sys2Proof.Machine

theorem red5_eq (c : BitVec 16) : red5 c = c.toNat / 2048 := by
  have := c.isLt
  simp only [red5, BitVec.extractLsb'_toNat, Nat.shiftRight_eq_div_pow, Nat.reducePow]
  omega

theorem green6_eq (c : BitVec 16) : green6 c = c.toNat / 32 % 64 := by
  simp only [green6, BitVec.extractLsb'_toNat, Nat.shiftRight_eq_div_pow, Nat.reducePow]

theorem blue5_eq (c : BitVec 16) : blue5 c = c.toNat % 32 := by
  simp only [blue5, BitVec.extractLsb'_toNat, Nat.shiftRight_eq_div_pow, Nat.reducePow, Nat.div_one]

theorem red5_lt (c : BitVec 16) : red5 c < 32 := by rw [red5_eq]; have := c.isLt; omega

theorem green6_lt (c : BitVec 16) : green6 c < 64 := by rw [green6_eq]; omega

theorem blue5_lt (c : BitVec 16) : blue5 c < 32 := by rw [blue5_eq]; omega

theorem e5_le {v : Nat} (h : v < 32) : e5 v ≤ 255 := by unfold e5; omega

theorem e6_le {v : Nat} (h : v < 64) : e6 v ≤ 255 := by unfold e6; omega

/-- The `& 0xFF` of the red channel never changes the quotient (40_expand565.md R120). -/
theorem expand565_r (c : BitVec 16) : (expand565 c).r.toNat = e5 (red5 c) := by
  have := e5_le (red5_lt c)
  simp only [expand565, BitVec.toNat_ofNat, Nat.reducePow]; omega

theorem expand565_g (c : BitVec 16) : (expand565 c).g.toNat = e6 (green6 c) := by
  have := e6_le (green6_lt c)
  simp only [expand565, BitVec.toNat_ofNat, Nat.reducePow]; omega

theorem expand565_b (c : BitVec 16) : (expand565 c).b.toNat = e5 (blue5 c) := by
  have := e5_le (blue5_lt c)
  simp only [expand565, BitVec.toNat_ofNat, Nat.reducePow]; omega

theorem avg2_toNat (a b : Byte) : (avg2 a b).toNat = (a.toNat + b.toNat) / 2 := by
  have := a.isLt; have := b.isLt
  simp only [avg2, BitVec.toNat_ofNat, Nat.reducePow]; omega

theorem weighted3_toNat (x y : Byte) : (weighted3 x y).toNat = (x.toNat + 2 * y.toNat) / 3 := by
  have := x.isLt; have := y.isLt
  simp only [weighted3, BitVec.toNat_ofNat, Nat.reducePow]; omega

/-- The value of RAMP7 on its domain (41_interpolate.md R143). -/
theorem ramp7_toNat {ai : BitVec 3} (a0 a1 : Byte) (h : 2 ≤ ai.toNat) :
    (ramp7 ai a0 a1).toNat = ((8 - ai.toNat) * a0.toNat + (ai.toNat - 1) * a1.toNat) / 7 := by
  have h0 := a0.isLt; have h1 := a1.isLt; have h2 := ai.isLt
  simp only [ramp7, ramp7Domain, decide_eq_true h, if_true, BitVec.toNat_ofNat, Nat.reducePow]
  generalize ai.toNat = k at *
  interval_cases k <;> omega

/-- The value of RAMP5 on its domain (41_interpolate.md R144). -/
theorem ramp5_toNat {ai : BitVec 3} (a0 a1 : Byte) (h : 2 ≤ ai.toNat) (h' : ai.toNat ≤ 5) :
    (ramp5 ai a0 a1).toNat = ((6 - ai.toNat) * a0.toNat + (ai.toNat - 1) * a1.toNat) / 5 := by
  have h0 := a0.isLt; have h1 := a1.isLt
  simp only [ramp5, ramp5Domain, decide_eq_true h, decide_eq_true h', Bool.and_self, if_true, BitVec.toNat_ofNat,
    Nat.reducePow]
  generalize ai.toNat = k at *
  interval_cases k <;> omega

theorem colourSel_toNat (cidx : BitVec 32) (i : PixelIx) : (colourSel cidx i).toNat = cidx.toNat / 4 ^ i.val % 4 := by
  simp only [colourSel, BitVec.extractLsb'_toNat, Nat.shiftRight_eq_div_pow, pow_mul, Nat.reducePow]

theorem alphaSel_toNat (amask : BitVec 48) (i : PixelIx) : (alphaSel amask i).toNat = amask.toNat / 8 ^ i.val % 8 := by
  simp only [alphaSel, BitVec.extractLsb'_toNat, Nat.shiftRight_eq_div_pow, pow_mul, Nat.reducePow]

theorem leValue_lt (bs : List Byte) : leValue bs < 256 ^ bs.length := by
  induction bs with
  | nil => simp [leValue]
  | cons b bs ih =>
    have := b.isLt
    simp only [leValue, List.length_cons, pow_succ]
    omega

theorem fieldValue_lt (o : FieldOrder) (bs : List Byte) : fieldValue o bs < 256 ^ bs.length := by
  cases o
  · exact leValue_lt bs
  · simpa [fieldValue, beValue] using leValue_lt bs.reverse

end Sys2Proof.Machine
end

