-- ==== Sys2Proof/Laws/Memory.lean ====
section
/-! SUPPORT. The laws of OUT: a read after a write, what a write leaves alone, the canonical form. -/

namespace Sys2Proof.Machine

theorem cellAt_insertCell (a a' : Nat) (b : Byte) (cs : List Host.Cell) :
    cellAt a' (insertCell a b cs) = if a' = a then some b else cellAt a' cs := by
  induction cs with
  | nil => simp only [insertCell, cellAt, eq_comm]
  | cons c cs ih =>
    unfold insertCell
    split
    · simp only [cellAt, eq_comm]
    · split
      · rename_i h
        subst h
        simp only [cellAt, eq_comm]
        split <;> rfl
      · simp only [cellAt, ih]
        split
        · rename_i h1 h2 h3
          rw [if_neg]
          omega
        · rfl

theorem mem_insertCell {a : Nat} {b : Byte} {cs : List Host.Cell} {c : Host.Cell} (h : c ∈ insertCell a b cs) :
    c = (a, b) ∨ c ∈ cs := by
  induction cs with
  | nil => simpa [insertCell] using h
  | cons d ds ih =>
    unfold insertCell at h
    split at h
    · simpa using h
    · split at h
      · rcases List.mem_cons.mp h with h | h
        · exact .inl h
        · exact .inr (List.mem_cons_of_mem _ h)
      · rcases List.mem_cons.mp h with h | h
        · exact .inr (h ▸ List.mem_cons_self)
        · exact (ih h).imp_right (List.mem_cons_of_mem _)

theorem insertCell_pairwise (a : Nat) (b : Byte) {cs : List Host.Cell} (h : (cs.map Prod.fst).Pairwise (· < ·)) :
    ((insertCell a b cs).map Prod.fst).Pairwise (· < ·) := by
  induction cs with
  | nil => simp [insertCell]
  | cons c cs ih =>
    simp only [List.map_cons, List.pairwise_cons] at h
    unfold insertCell
    split
    · rename_i h1
      simp only [List.map_cons, List.pairwise_cons, List.mem_cons]
      refine ⟨?_, h⟩
      rintro x (rfl | hx)
      · exact h1
      · exact lt_trans h1 (h.1 x hx)
    · split
      · rename_i h1 h2
        subst h2
        simp only [List.map_cons, List.pairwise_cons]
        exact h
      · rename_i h1 h2
        simp only [List.map_cons, List.pairwise_cons]
        refine ⟨?_, ih h.2⟩
        intro x hx
        obtain ⟨d, hd, rfl⟩ := List.mem_map.mp hx
        rcases mem_insertCell hd with rfl | hd
        · show c.1 < a; omega
        · exact h.1 _ (List.mem_map_of_mem hd)

theorem insertCells_pairwise (new : List Host.Cell) {cs : List Host.Cell} (h : (cs.map Prod.fst).Pairwise (· < ·)) :
    ((insertCells new cs).map Prod.fst).Pairwise (· < ·) := by
  induction new generalizing cs with
  | nil => exact h
  | cons c new ih => exact ih (insertCell_pairwise c.1 c.2 h)

theorem mem_insertCells {new cs : List Host.Cell} {c : Host.Cell} (h : c ∈ insertCells new cs) : c ∈ new ∨ c ∈ cs := by
  induction new generalizing cs with
  | nil => exact .inr h
  | cons d new ih =>
    rcases ih h with h | h
    · exact .inl (List.mem_cons_of_mem _ h)
    · rcases mem_insertCell h with rfl | h
      · exact .inl List.mem_cons_self
      · exact .inr h

/-- What a list of writes does when it succeeds: nothing but list its cells. -/
theorem writeCells_ok {cs : List Host.Cell} {m m' : Memory} (h : m.writeCells cs = .ok m') :
    m' = { m with cells := insertCells cs m.cells } ∧ ∀ c ∈ cs, c.1 < m.capacity := by
  unfold Memory.writeCells at h
  split at h
  · cases h
  · rename_i hf
    cases h
    refine ⟨rfl, fun c hc => ?_⟩
    have := List.find?_eq_none.mp hf c hc
    simpa using this

/-- A list of writes at existing addresses succeeds. -/
theorem writeCells_of_lt {cs : List Host.Cell} {m : Memory} (h : ∀ c ∈ cs, c.1 < m.capacity) :
    m.writeCells cs = .ok { m with cells := insertCells cs m.cells } := by
  have : (cs.find? fun c => m.capacity ≤ c.1) = none :=
    List.find?_eq_none.mpr fun c hc => by simpa using h c hc
  simp only [Memory.writeCells, this]

theorem writeCells_wf {cs : List Host.Cell} {m m' : Memory} (h : m.writeCells cs = .ok m') (hw : m.wf) : m'.wf := by
  obtain ⟨rfl, hlt⟩ := writeCells_ok h
  refine ⟨insertCells_pairwise cs hw.1, fun c hc => ?_⟩
  rcases mem_insertCells hc with hc | hc
  · exact hlt c hc
  · exact hw.2 c hc

theorem forget_wf (m : Memory) : m.forget.wf := by simp [Memory.forget, Memory.wf]

theorem reset_out_wf : State.reset.out.wf := by simp [State.reset, Memory.wf]

/-- An address that a list of writes does not name is looked up as before. -/
theorem cellAt_insertCells_of_not_mem {new cs : List Host.Cell} {a : Nat} (h : ∀ c ∈ new, c.1 ≠ a) :
    cellAt a (insertCells new cs) = cellAt a cs := by
  induction new generalizing cs with
  | nil => rfl
  | cons c new ih =>
    simp only [insertCells]
    rw [ih fun d hd => h d (List.mem_cons_of_mem _ hd), cellAt_insertCell, if_neg (h c List.mem_cons_self).symm]

/-- An address that a list of writes names, always with the same value, is looked up as that value. -/
theorem cellAt_insertCells_of_mem {new cs : List Host.Cell} {a : Nat} {b : Byte} (hm : (a, b) ∈ new)
    (h : ∀ c ∈ new, c.1 = a → c.2 = b) : cellAt a (insertCells new cs) = some b := by
  induction new generalizing cs with
  | nil => cases hm
  | cons c new ih =>
    simp only [insertCells]
    by_cases hin : (a, b) ∈ new
    · exact ih hin fun d hd => h d (List.mem_cons_of_mem _ hd)
    · have hc : c = (a, b) := by
        rcases List.mem_cons.mp hm with e | e
        · exact e.symm
        · exact absurd e hin
      subst hc
      rw [cellAt_insertCells_of_not_mem, cellAt_insertCell, if_pos rfl]
      intro d hd hda
      have h2 : d.2 = b := h d (List.mem_cons_of_mem _ hd) hda
      exact hin (by rw [← hda, ← h2]; exact hd)

/-- What a byte of OUT reads as after a list of writes that does not name its address. -/
theorem read_writeCells_of_not_mem {cs : List Host.Cell} {m m' : Memory} {a : Nat} (hw : m.writeCells cs = .ok m')
    (h : ∀ c ∈ cs, c.1 ≠ a) : m'.read a = m.read a := by
  obtain ⟨rfl, -⟩ := writeCells_ok hw
  simp only [Memory.read, cellAt_insertCells_of_not_mem h]

/-- What a byte of OUT reads as after a list of writes that names its address with one value. -/
theorem read_writeCells_of_mem {cs : List Host.Cell} {m m' : Memory} {a : Nat} {b : Byte} (hw : m.writeCells cs = .ok m')
    (hm : (a, b) ∈ cs) (h : ∀ c ∈ cs, c.1 = a → c.2 = b) : m'.read a = b := by
  obtain ⟨rfl, -⟩ := writeCells_ok hw
  simp only [Memory.read, cellAt_insertCells_of_mem hm h]

theorem length_readBytes (m : Memory) (a n : Nat) : (m.readBytes a n).length = n := by
  induction n generalizing a with
  | zero => rfl
  | succ n ih => simp [Memory.readBytes, ih]

theorem getElem?_readBytes (m : Memory) (a n j : Nat) (h : j < n) : (m.readBytes a n)[j]? = some (m.read (a + j)) := by
  induction n generalizing a j with
  | zero => omega
  | succ n ih =>
    cases j with
    | zero => rfl
    | succ j =>
      simp only [Memory.readBytes, List.getElem?_cons_succ]
      rw [ih (a + 1) j (by omega)]
      congr 2
      omega

end Sys2Proof.Machine
end

