-- ==== Sys2Proof/Laws/Assembler.lean ====
section
/-! SUPPORT. What ASSEMBLE does: which bytes it writes, and that each byte belongs to one pixel. -/

namespace Sys2Proof.Machine

theorem mem_pixelCells {addr : Nat} {p : Rgba} {c : Host.Cell} (h : c ∈ pixelCells addr p) :
    addr ≤ c.1 ∧ c.1 < addr + 4 := by
  simp only [pixelCells, List.mem_cons, List.not_mem_nil, or_false] at h
  rcases h with rfl | rfl | rfl | rfl <;> simp

/-- One value per address within a pixel. -/
theorem pixelCells_unique {addr : Nat} {p : Rgba} {c d : Host.Cell} (hc : c ∈ pixelCells addr p)
    (hd : d ∈ pixelCells addr p) (h : c.1 = d.1) : c.2 = d.2 := by
  simp only [pixelCells, List.mem_cons, List.not_mem_nil, or_false] at hc hd
  rcases hc with rfl | rfl | rfl | rfl <;> rcases hd with rfl | rfl | rfl | rfl <;>
    first | rfl | (simp only at h; omega)

/-- The bytes of a block are those of its pixels in bounds (44_assembler.md R253, R256). -/
theorem mem_cellsOfBlock {s : State} {c : Host.Cell} :
    c ∈ s.cellsOfBlock ↔ ∃ i : PixelIx, s.inBounds i = true ∧ c ∈ pixelCells (s.pixelAddress i) (s.pixel i) := by
  simp only [State.cellsOfBlock, List.mem_flatMap, List.mem_finRange, true_and, State.cellsOfPixel]
  constructor
  · rintro ⟨i, hi⟩
    split at hi
    · exact ⟨i, ‹_›, hi⟩
    · cases hi
  · rintro ⟨i, hb, hc⟩
    exact ⟨i, by rw [if_pos hb]; exact hc⟩

theorem inBounds_iff {s : State} {i : PixelIx} :
    s.inBounds i = true ↔ s.pixelX i < s.widthPx ∧ s.pixelY i < s.heightPx := by
  simp [State.inBounds]

/-- Two positions in an image with the same pixel number are one position. -/
theorem pixel_injective {w x y x' y' : Nat} (hx : x < w) (hx' : x' < w) (h : y * w + x = y' * w + x') : x = x' ∧ y = y' := by
  have hy : y = y' := by
    have e1 : (x + w * y) / w = y := by rw [Nat.add_mul_div_left _ _ (by omega), Nat.div_eq_of_lt hx, Nat.zero_add]
    have e2 : (x' + w * y') / w = y' := by rw [Nat.add_mul_div_left _ _ (by omega), Nat.div_eq_of_lt hx', Nat.zero_add]
    rw [← e1, ← e2]
    congr 1
    rw [Nat.mul_comm w y, Nat.mul_comm w y']
    omega
  subst hy
  exact ⟨by omega, rfl⟩

/-- Address ranges of two pixels of an image meet only when the pixels are one. -/
theorem pixelAddr_injective {w x y x' y' a : Nat} (hx : x < w) (hx' : x' < w) (h1 : pixelAddr w x y ≤ a)
    (h2 : a < pixelAddr w x y + 4) (h3 : pixelAddr w x' y' ≤ a) (h4 : a < pixelAddr w x' y' + 4) : x = x' ∧ y = y' := by
  simp only [pixelAddr] at *
  exact pixel_injective hx hx' (by omega)

/-- Every byte of a pixel of the image lies below 4*width*height (44_assembler.md R257). -/
theorem pixelAddr_lt {w h x y : Nat} (hx : x < w) (hy : y < h) : pixelAddr w x y + 4 ≤ 4 * w * h := by
  have : (y + 1) * w ≤ h * w := Nat.mul_le_mul_right w hy
  rw [Nat.add_mul, Nat.one_mul] at this
  rw [Nat.mul_assoc, Nat.mul_comm w h]
  simp only [pixelAddr]
  omega

/-- The pixel index of a position is the only one with its coordinates. -/
theorem pixelIx_ext {i j : PixelIx} (h1 : pixelCol i = pixelCol j) (h2 : pixelRow i = pixelRow j) : i = j := by
  apply Fin.ext
  simp only [pixelCol, pixelRow] at h1 h2
  omega

/-- One value per address within a block. -/
theorem cellsOfBlock_unique {s : State} {c d : Host.Cell} (hc : c ∈ s.cellsOfBlock) (hd : d ∈ s.cellsOfBlock)
    (h : c.1 = d.1) : c.2 = d.2 := by
  obtain ⟨i, hi, hc⟩ := mem_cellsOfBlock.mp hc
  obtain ⟨j, hj, hd⟩ := mem_cellsOfBlock.mp hd
  have ci := mem_pixelCells hc
  have dj := mem_pixelCells hd
  have hi := inBounds_iff.mp hi
  have hj := inBounds_iff.mp hj
  have e := pixelAddr_injective hi.1 hj.1 ci.1 ci.2 (h ▸ dj.1) (h ▸ dj.2)
  simp only [State.pixelX, State.pixelY] at e
  have : i = j := pixelIx_ext (by omega) (by omega)
  subst this
  exact pixelCells_unique hc hd h

/-- Every address of a block lies in the image. -/
theorem cellsOfBlock_lt {s : State} {c : Host.Cell} (hc : c ∈ s.cellsOfBlock) : c.1 < s.outBytes := by
  obtain ⟨i, hi, hc⟩ := mem_cellsOfBlock.mp hc
  have := mem_pixelCells hc
  have hi := inBounds_iff.mp hi
  have := pixelAddr_lt hi.1 hi.2
  simp only [State.outBytes, State.pixelAddress] at *
  omega

/-- ASSEMBLE, when it answers, changes OUT alone, by the cells of the block. -/
theorem assemble_ok {s t : State} (h : assemble s = .ok t) :
    t = { s with out := { s.out with cells := insertCells s.cellsOfBlock s.out.cells } } ∧
    ∀ c ∈ s.cellsOfBlock, c.1 < s.out.capacity := by
  unfold assemble at h
  cases hw : s.out.writeCells s.cellsOfBlock with
  | error f => rw [hw] at h; cases h
  | ok m =>
    rw [hw] at h
    cases h
    obtain ⟨rfl, hlt⟩ := writeCells_ok hw
    exact ⟨rfl, hlt⟩

/-- ASSEMBLE completes when the image fits OUT (60_exceptions.md R305). -/
theorem assemble_of_fits {s : State} (h : s.outBytes ≤ s.out.capacity) :
    assemble s = .ok { s with out := { s.out with cells := insertCells s.cellsOfBlock s.out.cells } } := by
  unfold assemble
  rw [writeCells_of_lt fun c hc => lt_of_lt_of_le (cellsOfBlock_lt hc) h]
  rfl

/-- The bytes that ASSEMBLE writes for a pixel in bounds. -/
theorem read_assemble_of_mem {s : State} {a : Nat} {b : Byte} (h : (a, b) ∈ s.cellsOfBlock) :
    Memory.read { s.out with cells := insertCells s.cellsOfBlock s.out.cells } a = b := by
  simp only [Memory.read]
  rw [cellAt_insertCells_of_mem h fun c hc e => cellsOfBlock_unique hc h e]

/-- A byte of no pixel of the block reads as before. -/
theorem read_assemble_of_not_mem {s : State} {a : Nat} (h : ∀ c ∈ s.cellsOfBlock, c.1 ≠ a) :
    Memory.read { s.out with cells := insertCells s.cellsOfBlock s.out.cells } a = s.out.read a := by
  simp only [Memory.read, cellAt_insertCells_of_not_mem h]

end Sys2Proof.Machine
end

