-- ==== Sys2Proof/Laws/Stream.lean ====
section
/-! SUPPORT. What StreamRead and the two fetches do: their closed forms when enough bytes remain, and IoError when not. -/

namespace Sys2Proof.Machine

theorem streamRead_ok {n : Nat} {s : State} (h : s.cursor + n ≤ s.stream.length) :
    streamRead n s = .ok ((s.stream.drop s.cursor).take n, { s with cursor := s.cursor + n }) := by
  have : ¬ s.stream.length - s.cursor < n := by omega
  simp only [streamRead, if_neg this]

theorem streamRead_error {n : Nat} {s : State} (hn : 0 < n) (h : s.stream.length < s.cursor + n) :
    streamRead n s = .error .ioError := by
  have : s.stream.length - s.cursor < n := by omega
  simp only [streamRead, if_pos this]

/-- The value of the field of `n` bytes that stands `k` bytes after the cursor. -/
def fieldAt (s : State) (k n : Nat) : Nat := fieldValue s.fieldOrder ((s.stream.drop (s.cursor + k)).take n)

theorem fieldAt_lt (s : State) (k n : Nat) : fieldAt s k n < 256 ^ n := by
  have h := fieldValue_lt s.fieldOrder ((s.stream.drop (s.cursor + k)).take n)
  have h2 : ((s.stream.drop (s.cursor + k)).take n).length ≤ n := by simp
  exact lt_of_lt_of_le h (Nat.pow_le_pow_right (by omega) h2)

/-- A field fits the bits it is stored in (30_encoding.md R92). -/
theorem toNat_ofNat_fieldAt (s : State) (k : Nat) {n w : Nat} (h : w = 8 * n) :
    (BitVec.ofNat w (fieldAt s k n)).toNat = fieldAt s k n := by
  rw [BitVec.toNat_ofNat, Nat.mod_eq_of_lt]
  subst h
  rw [pow_mul]
  exact fieldAt_lt s k n

theorem readField_ok {n : Nat} {s : State} (h : s.cursor + n ≤ s.stream.length) :
    readField n s = .ok (fieldAt s 0 n, { s with cursor := s.cursor + n }) := by
  simp only [readField, streamRead_ok h, Except.map, fieldAt, Nat.add_zero]

theorem readField_error {n : Nat} {s : State} (hn : 0 < n) (h : s.stream.length < s.cursor + n) :
    readField n s = .error .ioError := by
  simp only [readField, streamRead_error hn h, Except.map]

/-- A field read answers its closed form or IoError. -/
theorem readField_cases {n : Nat} (hn : 0 < n) (s : State) :
    (s.cursor + n ≤ s.stream.length ∧ readField n s = .ok (fieldAt s 0 n, { s with cursor := s.cursor + n })) ∨
    (s.stream.length < s.cursor + n ∧ readField n s = .error .ioError) := by
  by_cases h : s.cursor + n ≤ s.stream.length
  · exact .inl ⟨h, readField_ok h⟩
  · exact .inr ⟨by omega, readField_error hn (by omega)⟩

/-- BLK after DXT1_FETCH (30_encoding.md R85). -/
def dxt1Fields (s : State) : Block :=
  { s.blk with
    c0raw := BitVec.ofNat 16 (fieldAt s 0 2)
    c1raw := BitVec.ofNat 16 (fieldAt s 2 2)
    cidx := BitVec.ofNat 32 (fieldAt s 4 4) }

/-- BLK after DXT5_FETCH (30_encoding.md R86). -/
def dxt5Fields (s : State) : Block where
  a0 := BitVec.ofNat 8 (fieldAt s 0 1)
  a1 := BitVec.ofNat 8 (fieldAt s 1 1)
  amask := BitVec.ofNat 48 (fieldAt s 2 6)
  c0raw := BitVec.ofNat 16 (fieldAt s 8 2)
  c1raw := BitVec.ofNat 16 (fieldAt s 10 2)
  cidx := BitVec.ofNat 32 (fieldAt s 12 4)

theorem dxt1Fetch_ok {s : State} (h : s.cursor + 8 ≤ s.stream.length) :
    dxt1Fetch s = .ok { s with blk := dxt1Fields s, cursor := s.cursor + 8 } := by
  unfold dxt1Fetch
  rw [readField_ok (by omega)]
  simp only [bind, Except.bind]
  rw [readField_ok (by simp only; omega)]
  simp only
  rw [readField_ok (by simp only; omega)]
  simp only [pure, Except.pure, dxt1Fields, fieldAt, Nat.add_zero, Nat.add_assoc, Nat.reduceAdd]

theorem dxt1Fetch_error {s : State} (h : s.stream.length < s.cursor + 8) : dxt1Fetch s = .error .ioError := by
  unfold dxt1Fetch
  simp only [bind, Except.bind]
  obtain ⟨h1, e⟩ | ⟨-, e⟩ := readField_cases (n := 2) (by omega) s
  case inr => simp only [e]
  simp only [e]
  obtain ⟨h2, e⟩ | ⟨-, e⟩ := readField_cases (n := 2) (by omega) { s with cursor := s.cursor + 2 }
  case inr => simp only [e]
  simp only at h2
  simp only [e]
  rw [readField_error (by omega) (by simp only; omega)]

theorem dxt5Fetch_ok {s : State} (h : s.cursor + 16 ≤ s.stream.length) :
    dxt5Fetch s = .ok { s with blk := dxt5Fields s, cursor := s.cursor + 16 } := by
  unfold dxt5Fetch
  rw [readField_ok (by omega)]
  simp only [bind, Except.bind]
  iterate 5
    rw [readField_ok (by simp only; omega)]
    simp only
  simp only [pure, Except.pure, dxt5Fields, fieldAt, Nat.add_zero, Nat.add_assoc, Nat.reduceAdd]

theorem dxt5Fetch_error {s : State} (h : s.stream.length < s.cursor + 16) : dxt5Fetch s = .error .ioError := by
  unfold dxt5Fetch
  simp only [bind, Except.bind]
  obtain ⟨h0, e⟩ | ⟨-, e⟩ := readField_cases (n := 1) (by omega) s
  case inr => simp only [e]
  simp only [e]
  obtain ⟨h1, e⟩ | ⟨-, e⟩ := readField_cases (n := 1) (by omega) { s with cursor := s.cursor + 1 }
  case inr => simp only [e]
  simp only [e]
  obtain ⟨h2, e⟩ | ⟨-, e⟩ := readField_cases (n := 6) (by omega) { s with cursor := s.cursor + 1 + 1 }
  case inr => simp only [e]
  simp only [e]
  obtain ⟨h3, e⟩ | ⟨-, e⟩ := readField_cases (n := 2) (by omega) { s with cursor := s.cursor + 1 + 1 + 6 }
  case inr => simp only [e]
  simp only [e]
  obtain ⟨h4, e⟩ | ⟨-, e⟩ := readField_cases (n := 2) (by omega) { s with cursor := s.cursor + 1 + 1 + 6 + 2 }
  case inr => simp only [e]
  simp only [e]
  simp only at h4
  rw [readField_error (by omega) (by simp only; omega)]

/-- DXT1_BLOCK with eight bytes left (42_dxt1.md R160). -/
theorem dxt1Block_ok {s : State} (h : s.cursor + 8 ≤ s.stream.length) :
    dxt1Block s = .ok { s with
      blk := dxt1Fields s, cursor := s.cursor + 8, opaque4 := opaque4Flag (dxt1Fields s), pix := dxt1Pixels (dxt1Fields s) } := by
  simp only [dxt1Block, dxt1Fetch_ok h, Except.map]

theorem dxt1Block_error {s : State} (h : s.stream.length < s.cursor + 8) : dxt1Block s = .error .ioError := by
  simp only [dxt1Block, dxt1Fetch_error h, Except.map]

/-- DXT5_BLOCK with sixteen bytes left (43_dxt5.md R200). -/
theorem dxt5Block_ok {s : State} (h : s.cursor + 16 ≤ s.stream.length) :
    dxt5Block s = .ok { s with
      blk := dxt5Fields s, cursor := s.cursor + 16, alpha8 := alpha8Flag (dxt5Fields s), pix := dxt5Pixels (dxt5Fields s) } := by
  simp only [dxt5Block, dxt5Fetch_ok h, Except.map]

theorem dxt5Block_error {s : State} (h : s.stream.length < s.cursor + 16) : dxt5Block s = .error .ioError := by
  simp only [dxt5Block, dxt5Fetch_error h, Except.map]

end Sys2Proof.Machine
end

