-- ==== Sys2Proof/Laws/Block.lean ====
section
/-! SUPPORT. What a block step does: its closed form when a whole block is left in the stream, and the error when not. -/

namespace Sys2Proof.Machine

/-- DXT1_BLOCK's arm of `exec` with eight bytes left (42_dxt1.md R160). -/
theorem exec_dxt1Block_ok {s : State} (h : s.cursor + 8 ≤ s.stream.length) :
    exec .dxt1Block s = .next { s with
      blk := dxt1Fields s, cursor := s.cursor + 8, opaque4 := opaque4Flag (dxt1Fields s), pix := dxt1Pixels (dxt1Fields s) } := by
  simp only [exec, execDxt1Block, dxt1Block_ok h]

theorem exec_dxt1Block_error {s : State} (h : s.stream.length < s.cursor + 8) :
    exec .dxt1Block s = .next (s.raise .ioError) := by
  simp only [exec, execDxt1Block, dxt1Block_error h]

/-- DXT5_BLOCK's arm of `exec` with sixteen bytes left (43_dxt5.md R200). -/
theorem exec_dxt5Block_ok {s : State} (h : s.cursor + 16 ≤ s.stream.length) :
    exec .dxt5Block s = .next { s with
      blk := dxt5Fields s, cursor := s.cursor + 16, alpha8 := alpha8Flag (dxt5Fields s), pix := dxt5Pixels (dxt5Fields s) } := by
  simp only [exec, execDxt5Block, dxt5Block_ok h]

theorem exec_dxt5Block_error {s : State} (h : s.stream.length < s.cursor + 16) :
    exec .dxt5Block s = .next (s.raise .ioError) := by
  simp only [exec, execDxt5Block, dxt5Block_error h]

/-- ASSEMBLE's arm of `exec` when the image fits OUT. -/
theorem exec_assemble_of_fits {s : State} (h : s.outBytes ≤ s.out.capacity) :
    exec .assemble s = .next { s with out := { s.out with cells := insertCells s.cellsOfBlock s.out.cells } } := by
  simp only [exec, execAssemble, assemble_of_fits h]

/-- The fields of a block depend on its own bytes alone (44_assembler.md R268). -/
theorem fieldAt_blockState {s : State} {n k m : Nat} (h : k + m ≤ n) :
    fieldAt (blockState s.fieldOrder ((s.stream.drop s.cursor).take n)) k m = fieldAt s k m := by
  simp only [fieldAt, blockState, State.reset, Nat.zero_add]
  rw [List.drop_take, List.take_take, List.drop_drop, min_eq_left (by omega)]

/-- The pixels of the block at the cursor. -/
def State.decoded (s : State) : Pixels :=
  if cmdFormat s.cmd = 0 then dxt1Pixels (dxt1Fields s) else dxt5Pixels (dxt5Fields s)

/-- The pixels of a DXT1 block depend on the colour section alone. -/
theorem dxt1Pixels_congr {b b' : Block} (h0 : b'.c0raw = b.c0raw) (h1 : b'.c1raw = b.c1raw) (h2 : b'.cidx = b.cidx) :
    dxt1Pixels b' = dxt1Pixels b := by
  cases b
  cases b'
  simp only at h0 h1 h2
  subst h0 h1 h2
  rfl

/-- The block rule on the bytes of the block at the cursor gives the pixels that the step gives (44_assembler.md R268). -/
theorem blockPixels_eq {s : State} (h : s.cursor + s.blockBytes ≤ s.stream.length) :
    blockPixels (cmdFormat s.cmd) s.fieldOrder ((s.stream.drop s.cursor).take s.blockBytes) = .ok s.decoded := by
  simp only [State.blockBytes, blockSize] at *
  by_cases hf : cmdFormat s.cmd = 0
  · simp only [hf, if_true] at h ⊢
    have hl : (blockState s.fieldOrder ((s.stream.drop s.cursor).take 8)).cursor + 8 ≤
        (blockState s.fieldOrder ((s.stream.drop s.cursor).take 8)).stream.length := by
      simp only [blockState, State.reset, List.length_take, List.length_drop]; omega
    simp only [blockPixels, if_true, dxt1Block_ok hl, Except.map, State.decoded, hf]
    congr 1
    apply dxt1Pixels_congr <;> simp only [dxt1Fields] <;> rw [fieldAt_blockState (by omega)]
  · simp only [hf, if_false] at h ⊢
    have hl : (blockState s.fieldOrder ((s.stream.drop s.cursor).take 16)).cursor + 16 ≤
        (blockState s.fieldOrder ((s.stream.drop s.cursor).take 16)).stream.length := by
      simp only [blockState, State.reset, List.length_take, List.length_drop]; omega
    simp only [blockPixels, hf, if_false, dxt5Block_ok hl, Except.map, State.decoded]
    congr 2
    simp only [dxt5Fields]
    congr 2 <;> rw [fieldAt_blockState (by omega)]

/-- The block decoder of a call, with a whole block left. -/
theorem exec_blockInstr_ok {s : State} (h : s.cursor + s.blockBytes ≤ s.stream.length) :
    ∃ b o a, exec s.blockInstr s =
      .next { s with blk := b, opaque4 := o, alpha8 := a, pix := s.decoded, cursor := s.cursor + s.blockBytes } := by
  simp only [State.blockBytes, blockSize, State.blockInstr, State.decoded] at *
  by_cases hf : cmdFormat s.cmd = 0
  · simp only [hf, if_true] at h ⊢
    simp only [exec, execDxt1Block, dxt1Block_ok h]
    exact ⟨_, _, _, rfl⟩
  · simp only [hf, if_false] at h ⊢
    simp only [exec, execDxt5Block, dxt5Block_ok h]
    exact ⟨_, _, _, rfl⟩

/-- The block decoder of a call, with too few bytes left. -/
theorem exec_blockInstr_error {s : State} (h : s.stream.length < s.cursor + s.blockBytes) :
    exec s.blockInstr s = .next (s.raise .ioError) := by
  simp only [State.blockBytes, blockSize, State.blockInstr] at *
  by_cases hf : cmdFormat s.cmd = 0
  · simp only [hf, if_true] at h ⊢
    simp only [exec, execDxt1Block, dxt1Block_error h]
  · simp only [hf, if_false] at h ⊢
    simp only [exec, execDxt5Block, dxt5Block_error h]

/-- The bytes of a block depend on the dimensions, the block counters and the pixels. -/
theorem cellsOfBlock_congr {s t : State} (hw : t.width = s.width) (hh : t.height = s.height) (hx : t.blkX = s.blkX)
    (hy : t.blkY = s.blkY) (hp : t.pix = s.pix) : t.cellsOfBlock = s.cellsOfBlock := by
  cases s
  cases t
  simp only at hw hh hx hy hp
  subst hw hh hx hy hp
  rfl

theorem cellsOfBlock_decoded (s : State) (b : Block) (o a : Bool) (p : Pixels) (n : Nat) :
    ({ s with blk := b, opaque4 := o, alpha8 := a, pix := p, cursor := n } : State).cellsOfBlock =
      ({ s with pix := p } : State).cellsOfBlock :=
  cellsOfBlock_congr rfl rfl rfl rfl rfl

/-- OUT after the block at the cursor is assembled. -/
def State.outAfter (s : State) : Memory :=
  { s.out with cells := insertCells ({ s with pix := s.decoded } : State).cellsOfBlock s.out.cells }

/-- The state after a block step that decodes a block (44_assembler.md R262). -/
def State.stepped (s : State) : State :=
  ({ s with cursor := s.cursor + s.blockBytes, out := s.outAfter } : State).advance.endBlock

/-- The counters at the end of a row of blocks. -/
theorem nextBlock_pos {s : State} (h : s.blkX + 1 = s.bxCnt) : s.nextBlock = { s with blkX := 0, blkY := s.blkY + 1 } :=
  if_pos h

/-- The counters within a row of blocks. -/
theorem nextBlock_neg {s : State} (h : s.blkX + 1 ≠ s.bxCnt) : s.nextBlock = { s with blkX := s.blkX + 1 } := if_neg h

theorem closeCall_pos {s : State} (h : s.blkY = s.byCnt) : s.closeCall = { s with phase := .done } := if_pos h

theorem closeCall_neg {s : State} (h : s.blkY ≠ s.byCnt) : s.closeCall = s := if_neg h

/-- What a block leaves between steps does not depend on its BLK, flags and pixels. -/
theorem advance_endBlock_eq (s : State) (b : Block) (o a : Bool) (p : Pixels) :
    ({ s with blk := b, opaque4 := o, alpha8 := a, pix := p } : State).advance.endBlock = s.advance.endBlock := by
  unfold State.advance
  by_cases h : s.blkX + 1 = s.bxCnt
  · rw [nextBlock_pos h, nextBlock_pos (by exact h)]
    by_cases h2 : s.blkY + 1 = s.byCnt
    · rw [closeCall_pos (by exact h2), closeCall_pos (by exact h2)]; rfl
    · rw [closeCall_neg (by exact h2), closeCall_neg (by exact h2)]; rfl
  · rw [nextBlock_neg h, nextBlock_neg (by exact h)]
    by_cases h2 : s.blkY = s.byCnt
    · rw [closeCall_pos (by exact h2), closeCall_pos (by exact h2)]; rfl
    · rw [closeCall_neg (by exact h2), closeCall_neg (by exact h2)]; rfl

/-- ASSEMBLE's arm of `exec`. -/
theorem exec_assemble (s : State) : exec .assemble s = execAssemble s := rfl

/-- A block step with a whole block left in the stream and an image that fits OUT. -/
theorem blockStep_ok {s : State} (hb : s.phase = .busy) (hf : s.outBytes ≤ s.out.capacity)
    (h : s.cursor + s.blockBytes ≤ s.stream.length) : blockStep s = .next s.stepped := by
  obtain ⟨b, o, a, e⟩ := exec_blockInstr_ok h
  have hp : s.phase ≠ .error := by rw [hb]; decide
  simp only [blockStep, e, hp, if_false, finishBlock, exec_assemble, execAssemble]
  rw [assemble_of_fits (by exact hf)]
  simp only
  rw [cellsOfBlock_decoded]
  exact congrArg Host.Outcome.next
    (advance_endBlock_eq { s with cursor := s.cursor + s.blockBytes, out := s.outAfter } b o a s.decoded)

/-- A block step with too few bytes left. -/
theorem blockStep_error {s : State} (h : s.stream.length < s.cursor + s.blockBytes) :
    blockStep s = .next (s.raise .ioError).endBlock := by
  simp only [blockStep, exec_blockInstr_error h, raise_phase, if_true]

/-- Everything a block step can answer. -/
theorem blockStep_cases {s t : State} (hb : s.phase = .busy) (h : blockStep s = .next t) :
    (s.stream.length < s.cursor + s.blockBytes ∧ t = (s.raise .ioError).endBlock) ∨
    (s.cursor + s.blockBytes ≤ s.stream.length ∧ t = s.stepped ∧
      ∀ c ∈ ({ s with pix := s.decoded } : State).cellsOfBlock, c.1 < s.out.capacity) := by
  by_cases hl : s.cursor + s.blockBytes ≤ s.stream.length
  · refine .inr ⟨hl, ?_⟩
    obtain ⟨b, o, a, e⟩ := exec_blockInstr_ok hl
    have hp : s.phase ≠ .error := by rw [hb]; decide
    simp only [blockStep, e, hp, if_false, finishBlock, exec_assemble, execAssemble] at h
    cases ha : assemble { s with
        blk := b, opaque4 := o, alpha8 := a, pix := s.decoded, cursor := s.cursor + s.blockBytes } with
    | error f => simp only [ha, reduceCtorEq] at h
    | ok u =>
      obtain ⟨hu, hlt⟩ := assemble_ok ha
      rw [ha] at h
      simp only [Host.Outcome.next.injEq] at h
      rw [cellsOfBlock_decoded] at hu hlt
      subst h hu
      refine ⟨?_, hlt⟩
      exact advance_endBlock_eq { s with cursor := s.cursor + s.blockBytes, out := s.outAfter } b o a s.decoded
  · refine .inl ⟨by omega, ?_⟩
    rw [blockStep_error (by omega)] at h
    simpa using h.symm

/-! The fields of `stepped`. -/

section
variable (s : State)
@[simp] theorem stepped_cmd : s.stepped.cmd = s.cmd := by simp [State.stepped]
@[simp] theorem stepped_width : s.stepped.width = s.width := by simp [State.stepped]
@[simp] theorem stepped_height : s.stepped.height = s.height := by simp [State.stepped]
@[simp] theorem stepped_errcode : s.stepped.errcode = s.errcode := by simp [State.stepped]
@[simp] theorem stepped_cursor : s.stepped.cursor = s.cursor + s.blockBytes := by simp [State.stepped]
@[simp] theorem stepped_out : s.stepped.out = s.outAfter := by simp [State.stepped]
@[simp] theorem stepped_fieldOrder : s.stepped.fieldOrder = s.fieldOrder := by simp [State.stepped]
@[simp] theorem stepped_stream : s.stepped.stream = s.stream := by simp [State.stepped]
@[simp] theorem stepped_call : s.stepped.call = s.call := by simp [State.stepped]
@[simp] theorem stepped_presented : s.stepped.presented = s.presented := by simp [State.stepped]
@[simp] theorem stepped_agenda : s.stepped.agenda = s.agenda := by simp [State.stepped]
@[simp] theorem stepped_replies : s.stepped.replies = s.replies := by simp [State.stepped]
@[simp] theorem stepped_unitRgb : s.stepped.unitRgb = s.unitRgb := by simp [State.stepped]
@[simp] theorem stepped_unitVal : s.stepped.unitVal = s.unitVal := by simp [State.stepped]
@[simp] theorem stepped_fresh : s.stepped.fresh = s.fresh + 1 := by simp [State.stepped]
@[simp] theorem outAfter_capacity : s.outAfter.capacity = s.out.capacity := rfl
@[simp] theorem outAfter_epoch : s.outAfter.epoch = s.out.epoch := rfl
end

/-- Where the counters go within a row of blocks. -/
theorem stepped_within {s : State} (hb : s.phase = .busy) (hx : s.blkX + 1 < s.bxCnt) (hy : s.blkY < s.byCnt) :
    s.stepped.blkX = s.blkX + 1 ∧ s.stepped.blkY = s.blkY ∧ s.stepped.phase = .busy := by
  unfold State.stepped State.advance
  rw [nextBlock_neg (by exact Nat.ne_of_lt hx), closeCall_neg (by exact Nat.ne_of_lt hy)]
  exact ⟨rfl, rfl, hb⟩

/-- Where the counters go at the end of a row of blocks. -/
theorem stepped_rowEnd {s : State} (hb : s.phase = .busy) (hx : s.blkX + 1 = s.bxCnt) :
    s.stepped.blkX = 0 ∧ s.stepped.blkY = s.blkY + 1 ∧
    s.stepped.phase = if s.blkY + 1 = s.byCnt then .done else .busy := by
  unfold State.stepped State.advance
  rw [nextBlock_pos (by exact hx)]
  by_cases h : s.blkY + 1 = s.byCnt
  · rw [closeCall_pos (by exact h), if_pos h]
    exact ⟨rfl, rfl, rfl⟩
  · rw [closeCall_neg (by exact h), if_neg h]
    exact ⟨rfl, rfl, hb⟩

end Sys2Proof.Machine
end

