-- ==== Sys2Proof/Laws/Decode.lean ====
section
/-! SUPPORT. What the decoder answers on the bytes of each encoding table, operands left open. -/

namespace Sys2Proof

/-- A selector word with its pixel index (30_encoding.md R90). -/
theorem decodeSelector_encode {n : Nat} (row : BitVec n → PixelIx → Instr) (w : Byte) (i : PixelIx) (rest : List Byte)
    (h : w.toNat < 2 ^ n) : decodeSelector n row (encodeSelector w i ++ rest) = .ok (row (BitVec.ofNat n w.toNat) i, rest) := by
  have e : (BitVec.ofNat 8 i.val).toNat = i.val := by
    have := i.isLt
    simp only [BitVec.toNat_ofNat, Nat.reducePow]
    omega
  have h16 : (BitVec.ofNat 8 i.val).toNat < 16 := by rw [e]; exact i.isLt
  simp only [encodeSelector, List.cons_append, List.nil_append, decodeSelector, if_neg (Nat.not_le.mpr h)]
  rw [dif_pos h16]
  congr 2
  congr 1
  exact Fin.ext e

/-- A word that has bits above its width is refused, whatever follows (30_encoding.md R90). -/
theorem decodeSelector_tooWide {n : Nat} (row : BitVec n → PixelIx → Instr) (w i : Byte) (rest : List Byte)
    (h : 2 ^ n ≤ w.toNat) : decodeSelector n row (w :: i :: rest) = .error .selectorTooWide := if_pos h

/-- The ramp selector of a unit word, whatever it is (41_interpolate.md R143, R144; log entry 11). -/
theorem decodeRampSelector_ok (ai : BitVec 3) : decodeRampSelector (ai.zeroExtend 8) = .ok ai := by
  have hlt := ai.isLt
  have e : (ai.zeroExtend 8).toNat = ai.toNat := by
    simp only [BitVec.toNat_setWidth, Nat.reducePow]
    omega
  have e3 : BitVec.ofNat 3 (ai.zeroExtend 8).toNat = ai := by rw [e]; exact BitVec.eq_of_toNat_eq (by simp)
  rw [decodeRampSelector, if_pos (by rw [e]; exact hlt), e3]

/-- A ramp selector that is no 3-bit number is refused (41_interpolate.md R143, R144). -/
theorem decodeRampSelector_tooWide {b : Byte} (h : 8 ≤ b.toNat) : decodeRampSelector b = .error .selectorTooWide :=
  if_neg (Nat.not_lt.mpr h)

/-- Four bytes in the format of a command decode as their 32-bit word does (30_encoding.md R81). -/
theorem decode_cmd (b0 b1 b2 b3 : Byte) (rest : List Byte) : decode .cmd (b0 :: b1 :: b2 :: b3 :: rest) =
    (decodeCommand (b3 ++ b2 ++ b1 ++ b0)).map fun i => (i, rest) := rfl

/-- A colour is its two bytes. -/
theorem colour_of_bytes (c : BitVec 16) : c.extractLsb' 8 8 ++ c.extractLsb' 0 8 = c := by
  rw [BitVec.extractLsb'_append_extractLsb'_eq_extractLsb' (by decide)]
  simp

end Sys2Proof
end

