-- ==== Sys2Proof/Laws/Step.lean ====
section
/-! SUPPORT. Everything one step can do, said once: `step_cases` for a machine that the spec's two agents drive, and
`exec_effect` for any row of the opcode table. -/

namespace Sys2Proof.Machine

/-- Everything START can do (44_assembler.md R260). -/
theorem start_cases {w : Word} {s t : State} (h : start w s = .next t) :
    s.phase ≠ .busy ∧
    ((∃ e, startError w s = some e ∧ t = (s.acceptStart w).raise e) ∨
      (startError w s = none ∧ t = (s.acceptStart w).beginCall)) := by
  unfold start at h
  split at h
  · cases h
  · rename_i hb
    refine ⟨hb, ?_⟩
    simp only [Host.Outcome.next.injEq] at h
    unfold startCall at h
    split at h
    · rename_i e he
      exact .inl ⟨e, he, h.symm⟩
    · rename_i he
      exact .inr ⟨he, h.symm⟩

/-- What START asks for when it raises nothing (60_exceptions.md R302, R303, R305). -/
theorem startError_none {w : Word} {s : State} (h : startError w s = none) :
    cmdReservedZero w = true ∧ cmdFormat w ≠ 2 ∧ cmdFormat w ≠ 3 ∧ 0 < s.widthInt ∧ 0 < s.heightInt ∧
    4 * s.widthInt * s.heightInt ≤ s.out.capacity := by
  unfold startError at h
  split at h
  · cases h
  · rename_i h1
    split at h
    · cases h
    · rename_i h2
      split at h
      · cases h
      · rename_i h3
        simp only [Bool.or_eq_true, Bool.not_eq_true', decide_eq_true_eq, not_or, Bool.not_eq_false] at h1 h2
        exact ⟨h1.1.1, h1.1.2, h1.2, by omega, by omega, by omega⟩

/-- A word of CMD with START = 0 decodes to nothing, by that name. -/
theorem decodeCommand_noStart {w : Word} (h : decodeCommand w = .error .noStart) : w.getLsbD 4 = false := by
  unfold decodeCommand at h
  split at h
  · rename_i hs
    simpa [cmdStart] using hs
  · split at h
    · cases h
    · split at h
      · cases h
      · split at h <;> cases h

/-- A word of CMD that is no command although START = 1, or is one. -/
theorem decodeCommand_start {w : Word} (h : decodeCommand w ≠ .error .noStart) : w.getLsbD 4 = true := by
  unfold decodeCommand at h
  split at h
  · exact absurd rfl h
  · rename_i hs
    simpa [cmdStart] using hs

/-- The only instructions that a command word decodes to. -/
theorem decodeCommand_ok {w : Word} {i : Instr} (h : decodeCommand w = .ok i) :
    (i = .decodeDxt1 ∧ cmdFormat w = 0 ∨ i = .decodeDxt5 ∧ cmdFormat w = 1) ∧ cmdReservedZero w = true ∧
    cmdStart w = true := by
  unfold decodeCommand at h
  split at h
  · cases h
  · rename_i h1
    split at h
    · cases h
    · rename_i h2
      have hs : cmdStart w = true := by simpa using h1
      have hr : cmdReservedZero w = true := by simpa using h2
      split at h
      · rename_i hf; cases h; exact ⟨.inl ⟨rfl, hf⟩, hr, hs⟩
      · split at h
        · rename_i hf; cases h; exact ⟨.inr ⟨rfl, hf⟩, hr, hs⟩
        · cases h

/-- A word is its fields (10_state.md R23). -/
theorem word_of_fields {w : Word} (hr : cmdReservedZero w = true) (hs : cmdStart w = true) :
    w.toNat = 16 + (cmdFormat w).toNat := by
  simp only [cmdReservedZero, Bool.and_eq_true, beq_iff_eq] at hr
  have h1 : _ = 0 := congrArg BitVec.toNat hr.1
  have h2 : _ = 0 := congrArg BitVec.toNat hr.2
  simp only [BitVec.extractLsb'_toNat, Nat.shiftRight_eq_div_pow, Nat.reducePow] at h1 h2
  have h3 : w.toNat / 16 % 2 = 1 := by
    simp only [cmdStart, BitVec.getLsbD, Nat.testBit_eq_decide_div_mod_eq, decide_eq_true_eq, Nat.reducePow] at hs
    exact hs
  have h4 : (cmdFormat w).toNat = w.toNat % 4 := by
    simp only [cmdFormat, BitVec.extractLsb'_toNat, Nat.shiftRight_eq_div_pow, Nat.reducePow, Nat.div_one]
  have := w.isLt
  omega

/-- The two command words, and no other, are rows of the opcode table (30_encoding.md R81). -/
theorem decodeCommand_ok_word {w : Word} {i : Instr} (h : decodeCommand w = .ok i) :
    (i = .decodeDxt1 ∧ w = 0x10) ∨ (i = .decodeDxt5 ∧ w = 0x11) := by
  obtain ⟨hi, hr, hs⟩ := decodeCommand_ok h
  have hw := word_of_fields hr hs
  rcases hi with ⟨rfl, hf⟩ | ⟨rfl, hf⟩ <;> rw [hf] at hw
  · exact .inl ⟨rfl, BitVec.eq_of_toNat_eq (by simpa using hw)⟩
  · exact .inr ⟨rfl, BitVec.eq_of_toNat_eq (by simpa using hw)⟩

/-- Everything a write of CMD can do (10_state.md R23, R28). -/
theorem writeCmd_cases {w : Word} {s t : State} (h : writeCmd w s = .next t) :
    s.phase ≠ .busy ∧ ((w.getLsbD 4 = false ∧ t = { s with cmd := w }) ∨ (w.getLsbD 4 = true ∧ start w s = .next t)) := by
  unfold writeCmd at h
  split at h
  · rename_i i hd
    have hs : w.getLsbD 4 = true := decodeCommand_start (by rw [hd]; simp)
    have hst : start w s = .next t := by
      rcases decodeCommand_ok_word hd with ⟨rfl, rfl⟩ | ⟨rfl, rfl⟩ <;> exact h
    exact ⟨(start_cases hst).1, .inr ⟨hs, hst⟩⟩
  · rename_i hd
    split at h
    · cases h
    · rename_i hb
      simp only [Host.Outcome.next.injEq] at h
      exact ⟨hb, .inl ⟨decodeCommand_noStart hd, h.symm⟩⟩
  · rename_i e hne hd
    have hs : w.getLsbD 4 = true := decodeCommand_start (by rw [hd]; intro hc; cases hc; exact hne rfl)
    exact ⟨(start_cases h).1, .inr ⟨hs, h⟩⟩

/-- A START written to CMD is START handling, whether or not the word is a command. -/
theorem writeCmd_of_start {w : Word} (s : State) (h : w.getLsbD 4 = true) : writeCmd w s = start w s := by
  unfold writeCmd
  split
  · rename_i i hd
    rcases decodeCommand_ok_word hd with ⟨rfl, rfl⟩ | ⟨rfl, rfl⟩ <;> rfl
  · rename_i hd
    rw [decodeCommand_noStart hd] at h
    cases h
  · rfl

/-- Everything a host action can do. -/
theorem hostAct_cases {a : HostAction} {s t : State} (h : hostAct a s = .next t) :
    (∃ w, a = .write HostReg.cmd.offset 32 w ∧ writeCmd w s = .next t) ∨
    (∃ v, a = .write HostReg.width.offset 32 v ∧ s.phase ≠ .busy ∧ t = { s with width := v }) ∨
    (∃ v, a = .write HostReg.height.offset 32 v ∧ s.phase ≠ .busy ∧ t = { s with height := v }) ∨
    (∃ bytes, a = .stream bytes ∧ t = { s with presented := bytes }) ∨
    (∃ r, t = s.reply r) ∨
    (∃ r, t = { s.reply r with agenda := .engine :: .host .wait :: s.agenda }) ∨
    (a = .reset ∧ t = s.hostReset) := by
  cases a with
  | write offset width v =>
    simp only [hostAct] at h
    split at h
    · rename_i hw
      subst hw
      unfold hostWrite at h
      split at h
      · rename_i ho; subst ho; exact .inl ⟨v, rfl, h⟩
      · split at h
        · rename_i ho
          subst ho
          split at h
          · cases h
          · rename_i hb
            simp only [Host.Outcome.next.injEq] at h
            exact .inr (.inl ⟨v, rfl, hb, h.symm⟩)
        · split at h
          · rename_i ho
            subst ho
            split at h
            · cases h
            · rename_i hb
              simp only [Host.Outcome.next.injEq] at h
              exact .inr (.inr (.inl ⟨v, rfl, hb, h.symm⟩))
          · split at h <;> cases h
    · cases h
  | read offset width =>
    simp only [hostAct] at h
    split at h
    · unfold hostRead at h
      split at h
      · simp only [Host.Outcome.next.injEq] at h
        exact .inr (.inr (.inr (.inr (.inl ⟨_, h.symm⟩))))
      · cases h
    · cases h
  | stream bytes =>
    simp only [hostAct, Host.Outcome.next.injEq] at h
    exact .inr (.inr (.inr (.inl ⟨bytes, rfl, h.symm⟩)))
  | wait =>
    simp only [hostAct, hostWait] at h
    split at h <;> simp only [Host.Outcome.next.injEq] at h
    · exact .inr (.inr (.inr (.inr (.inl ⟨_, h.symm⟩))))
    · exact .inr (.inr (.inr (.inr (.inr (.inl ⟨_, h.symm⟩)))))
  | memRead addr n =>
    simp only [hostAct] at h
    unfold hostMemRead at h
    split at h
    · cases h
    · split at h
      · cases h
      · split at h
        · cases h
        · simp only [Host.Outcome.next.injEq] at h
          exact .inr (.inr (.inr (.inr (.inl ⟨_, h.symm⟩))))
  | reset =>
    simp only [hostAct, Host.Outcome.next.injEq] at h
    exact .inr (.inr (.inr (.inr (.inr (.inr ⟨rfl, h.symm⟩)))))

/-- Everything the engine can do with its turn. -/
theorem engineTurn_cases {s t : State} (h : engineTurn s = .next t) :
    (s.phase ≠ .busy ∧ t = s) ∨ (s.phase = .busy ∧ blockStep s = .next t) := by
  unfold engineTurn at h
  split at h
  · exact .inr ⟨‹_›, h⟩
  · simp only [Host.Outcome.next.injEq] at h
    exact .inl ⟨‹_›, h.symm⟩

/-- Everything a word presented by itself can do: the instruction that it decodes to, or a write of CMD. -/
theorem runWord_cases {f : Fmt} {bytes : List Byte} {s t : State} (h : runWord f bytes s = .next t) :
    (∃ i, exec i s = .next t) ∨ ∃ w, writeCmd w s = .next t := by
  unfold runWord at h
  split at h
  · exact .inl ⟨_, h⟩
  · split at h
    · exact .inr ⟨_, h⟩
    · cases h

/-- A command word presented by itself is its write to CMD, command or not (30_encoding.md R82). -/
theorem runWord_cmd (b0 b1 b2 b3 : Byte) (tail : List Byte) (s : State) :
    runWord .cmd (b0 :: b1 :: b2 :: b3 :: tail) s = writeCmd (b3 ++ b2 ++ b1 ++ b0) s := by
  simp only [runWord, decode_cmd, commandWord]
  cases hd : decodeCommand (b3 ++ b2 ++ b1 ++ b0) with
  | ok i => simp only [writeCmd, hd, Except.map]
  | error e => rfl

/-- Everything a step can do: the engine's turn, a host action, or a word presented by itself. -/
theorem step_cases {s t : State} (h : step s = .next t) :
    (s.agenda = [] ∧ engineTurn s = .next t) ∨
    (∃ rest, s.agenda = .engine :: rest ∧ engineTurn { s with agenda := rest } = .next t) ∨
    (∃ a rest, s.agenda = .host a :: rest ∧ hostAct a { s with agenda := rest } = .next t) ∨
    (∃ f bytes rest, s.agenda = .word f bytes :: rest ∧
      ((∃ i, exec i { s with agenda := rest } = .next t) ∨ ∃ w, writeCmd w { s with agenda := rest } = .next t)) := by
  unfold step takeTurn at h
  split at h
  · exact .inl ⟨‹_›, h⟩
  · rename_i e rest he
    cases e with
    | engine => exact .inr (.inl ⟨rest, he, h⟩)
    | host a => exact .inr (.inr (.inl ⟨a, rest, he, h⟩))
    | word f bytes => exact .inr (.inr (.inr ⟨f, bytes, rest, he, runWord_cases h⟩))

/-- Everything a row of the opcode table can do to the state: START, a new value of the block's pixels or of a unit's
output, a block decoder's work, an error, or ASSEMBLE's. -/
theorem exec_effect {i : Instr} {s t : State} (h : exec i s = .next t) :
    (∃ w, start w s = .next t) ∨
    (∃ p, t = { s with pix := p }) ∨
    (∃ c v, t = { s with unitRgb := c, unitVal := v }) ∨
    (∃ b o a p n, t = { s with blk := b, opaque4 := o, alpha8 := a, pix := p, cursor := n }) ∨
    t = s.raise .ioError ∨
    assemble s = .ok t := by
  cases i
  case decodeDxt1 => exact .inl ⟨_, h⟩
  case decodeDxt5 => exact .inl ⟨_, h⟩
  case expand565 c => cases h; exact .inr (.inr (.inl ⟨_, s.unitVal, rfl⟩))
  case avg2 a b => cases h; exact .inr (.inr (.inl ⟨s.unitRgb, _, rfl⟩))
  case weighted3 a b => cases h; exact .inr (.inr (.inl ⟨s.unitRgb, _, rfl⟩))
  case ramp7 a b c => cases h; exact .inr (.inr (.inl ⟨s.unitRgb, _, rfl⟩))
  case ramp5 a b c => cases h; exact .inr (.inr (.inl ⟨s.unitRgb, _, rfl⟩))
  case dxt1Block =>
    simp only [exec, execDxt1Block] at h
    by_cases hl : s.cursor + 8 ≤ s.stream.length
    · simp only [dxt1Block_ok hl, Host.Outcome.next.injEq] at h
      exact .inr (.inr (.inr (.inl ⟨_, _, s.alpha8, _, _, h.symm⟩)))
    · simp only [dxt1Block_error (Nat.lt_of_not_le hl), Host.Outcome.next.injEq] at h
      exact .inr (.inr (.inr (.inr (.inl h.symm))))
  case dxt5Block =>
    simp only [exec, execDxt5Block] at h
    by_cases hl : s.cursor + 16 ≤ s.stream.length
    · simp only [dxt5Block_ok hl, Host.Outcome.next.injEq] at h
      exact .inr (.inr (.inr (.inl ⟨_, s.opaque4, _, _, _, h.symm⟩)))
    · simp only [dxt5Block_error (Nat.lt_of_not_le hl), Host.Outcome.next.injEq] at h
      exact .inr (.inr (.inr (.inr (.inl h.symm))))
  case assemble =>
    simp only [exec, execAssemble] at h
    split at h
    · rename_i u hu
      cases h
      exact .inr (.inr (.inr (.inr (.inr hu))))
    · cases h
  all_goals
    cases h
    exact .inr (.inl ⟨_, rfl⟩)

end Sys2Proof.Machine
end

