-- ==== Sys2Proof/Laws/Start.lean ====
section
/-! SUPPORT. START in numbers: the stored command word, the error checks, and the step of a write of CMD. -/

namespace Sys2Proof.Machine

/-- The stored command word is the written one with bit 4 as 0 (10_state.md R23). -/
theorem getLsbD_clearStart (w : Word) (k : Nat) : (clearStart w).getLsbD k = (w.getLsbD k && decide (k ≠ 4)) := by
  unfold clearStart
  by_cases hk : k < 32
  · revert w
    interval_cases k <;> intro w <;> simp
  · have : w.getLsbD k = false := BitVec.getLsbD_of_ge _ _ (by omega)
    simp [BitVec.getLsbD_and, this]

/-- A word without START is stored as it is. -/
theorem clearStart_of_noStart {w : Word} (h : w.getLsbD 4 = false) : clearStart w = w := by
  apply BitVec.eq_of_getLsbD_eq
  intro k hk
  rw [getLsbD_clearStart]
  by_cases h4 : k = 4
  · subst h4; rw [h]; rfl
  · simp [h4]

theorem decodeCommand_of_noStart {w : Word} (h : w.getLsbD 4 = false) : decodeCommand w = .error .noStart := by
  simp only [decodeCommand, cmdStart, h]
  rfl

theorem cmdFormat_toNat (w : Word) : (cmdFormat w).toNat = w.toNat % 4 := by
  simp only [cmdFormat, BitVec.extractLsb'_toNat, Nat.shiftRight_eq_div_pow, Nat.reducePow, Nat.div_one]

theorem cmdReservedZero_iff (w : Word) : cmdReservedZero w = true ↔ w.toNat / 4 % 4 = 0 ∧ w.toNat / 32 = 0 := by
  have hlt := w.isLt
  simp only [cmdReservedZero, Bool.and_eq_true, beq_iff_eq]
  rw [← BitVec.toNat_inj, ← BitVec.toNat_inj]
  simp only [BitVec.extractLsb'_toNat, Nat.shiftRight_eq_div_pow, Nat.reducePow]
  have h2 : (0 : BitVec 2).toNat = 0 := rfl
  have h27 : (0 : BitVec 27).toNat = 0 := rfl
  omega

/-- The first check of START as a condition on the word's number (60_exceptions.md R302). -/
theorem cmdError_iff (w : Word) : (!cmdReservedZero w || decide (cmdFormat w = 2) || decide (cmdFormat w = 3)) = true ↔
    (2 ≤ w.toNat % 4 ∨ w.toNat / 4 % 4 ≠ 0 ∨ w.toNat / 32 ≠ 0) := by
  have hr := cmdReservedZero_iff w
  simp only [Bool.or_eq_true, decide_eq_true_eq, Bool.not_eq_true']
  rw [← BitVec.toNat_inj, ← BitVec.toNat_inj, cmdFormat_toNat, ← Bool.not_eq_true, hr]
  have h2 : (2 : BitVec 2).toNat = 2 := rfl
  have h3 : (3 : BitVec 2).toNat = 3 := rfl
  omega

/-- The checks of START in numbers (60_exceptions.md R307). -/
theorem startError_eq (w : Word) (s : State) : startError w s =
    if 2 ≤ w.toNat % 4 ∨ w.toNat / 4 % 4 ≠ 0 ∨ w.toNat / 32 ≠ 0 then some .cmdError
    else if s.width.toInt ≤ 0 ∨ s.height.toInt ≤ 0 then some .argError
    else if (s.out.capacity : Int) < 4 * s.width.toInt * s.height.toInt then some .bufError
    else none := by
  have h2 : (decide (s.widthInt ≤ 0) || decide (s.heightInt ≤ 0)) = true ↔ s.width.toInt ≤ 0 ∨ s.height.toInt ≤ 0 := by
    rw [Bool.or_eq_true, decide_eq_true_iff, decide_eq_true_iff]
    rfl
  unfold startError
  simp only [cmdError_iff, h2]
  rfl

/-- START raises nothing for a command word, positive dimensions and an image that fits (44_assembler.md R260). -/
theorem startError_of_legal {w : Word} {s : State} (hw : w = 0x10 ∨ w = 0x11) (hx : 0 < s.width.toInt)
    (hy : 0 < s.height.toInt) (hf : 4 * s.width.toInt * s.height.toInt ≤ s.out.capacity) : startError w s = none := by
  rw [startError_eq, if_neg (by rcases hw with rfl | rfl <;> decide), if_neg (by omega), if_neg (by omega)]

/-- The step of a write of CMD with START = 1 while not BUSY. -/
theorem step_start {s : State} {w : Word} {rest : List Event} (ha : s.agenda = wr .cmd w :: rest)
    (hw : w.getLsbD 4 = true) (hb : s.phase ≠ .busy) : step s = .next (startCall w { s with agenda := rest }) := by
  simp only [step, takeTurn, ha, wr, runEvent, hostAct, if_true, hostWrite]
  rw [writeCmd_of_start _ hw]
  exact if_neg hb

/-- The size of an image as an integer and as a natural number (10_state.md R35). -/
theorem outBytes_cast {s : State} (hx : 0 < s.width.toInt) (hy : 0 < s.height.toInt) :
    (s.outBytes : Int) = 4 * s.width.toInt * s.height.toInt := by
  have h1 : ((s.width.toInt.toNat : Nat) : Int) = s.width.toInt := Int.toNat_of_nonneg (by omega)
  have h2 : ((s.height.toInt.toNat : Nat) : Int) = s.height.toInt := Int.toNat_of_nonneg (by omega)
  simp only [State.outBytes, State.widthPx, State.heightPx, State.widthInt, State.heightInt]
  push_cast
  rw [h1, h2]

/-- A call in progress has a block row and a block column. -/
theorem blocks_pos {s : State} (hx : 0 < s.widthInt) (hy : 0 < s.heightInt) : 0 < s.bxCnt ∧ 0 < s.byCnt := by
  simp only [State.bxCnt, State.byCnt, blocksAcross, State.widthPx, State.heightPx]
  omega

end Sys2Proof.Machine
end

