-- ==== Sys2Proof/Laws/Invariant.lean ====
section
/-! SUPPORT. The terms of Safety.lean carried from one state to another: which fields an invariant reads, and everything a
step can do in a machine that only the spec's two agents drive. -/

namespace Sys2Proof.Machine

theorem noWords_congr {s t : State} (hn : s.noWords) (h : t.agenda = s.agenda) : t.noWords := by
  intro f b
  rw [h]
  exact hn f b

theorem noWords_tail {s t : State} {e : Event} {rest : List Event} (hn : s.noWords) (ha : s.agenda = e :: rest)
    (ht : t.agenda = rest) : t.noWords := by
  intro f b hm
  exact hn f b (by rw [ha, ← ht]; exact List.mem_cons_of_mem _ hm)

theorem legalCall_congr {s t : State} (h : s.LegalCall) (hc : t.cmd = s.cmd) (hw : t.width = s.width)
    (hh : t.height = s.height) (ho : t.out.capacity = s.out.capacity) : t.LegalCall := by
  obtain ⟨h1, h2, h3, h4⟩ := h
  simp only [State.widthInt, State.heightInt, State.outBytes, State.widthPx, State.heightPx] at h1 h2 h3
  constructor <;>
    simpa only [State.widthInt, State.heightInt, State.outBytes, State.widthPx, State.heightPx, hc, hw, hh, ho]

theorem atBlock_congr {s t : State} (h : s.AtBlock) (hc : t.cmd = s.cmd) (hw : t.width = s.width)
    (hh : t.height = s.height) (hx : t.blkX = s.blkX) (hy : t.blkY = s.blkY) (hn : t.cursor = s.cursor) : t.AtBlock := by
  obtain ⟨h1, h2, h3⟩ := h
  simp only [State.bxCnt, State.byCnt, State.widthPx, State.heightPx, State.widthInt, State.heightInt,
    State.blockBytes] at h1 h2 h3
  constructor <;>
    simpa only [State.bxCnt, State.byCnt, State.widthPx, State.heightPx, State.widthInt, State.heightInt,
      State.blockBytes, hc, hw, hh, hx, hy, hn]

/-- The invariant of a call reads nothing of the agenda, the replies and the presented stream. -/
theorem callInv_bookkeeping {s : State} (h : s.CallInv) (ev : List Event) (rs : List Reply) (p : List Byte) :
    ({ s with agenda := ev, replies := rs, presented := p } : State).CallInv := fun hb =>
  ⟨legalCall_congr (h hb).1 rfl rfl rfl rfl, atBlock_congr (h hb).2 rfl rfl rfl rfl rfl rfl⟩

/-- A state that is not BUSY meets the invariant of a call. -/
theorem callInv_of_not_busy {s : State} (h : s.phase ≠ .busy) : s.CallInv := fun hb => absurd hb h

/-- The end of a call reads the counters and the call's arguments; it does not read the registers. -/
theorem atEnd_congr {s t : State} (h : s.AtEnd) (hx : t.blkX = s.blkX) (hy : t.blkY = s.blkY) (hn : t.cursor = s.cursor)
    (hc : t.call = s.call) : t.AtEnd where
  x_eq := hx.trans h.x_eq
  y_eq := by rw [hy, h.y_eq, byCnt_congr (s := s.asCalled) (t := t.asCalled) (by simp [hc])]
  cursor_eq := by
    rw [hn, h.cursor_eq, nBlocks_congr (s := s.asCalled) (t := t.asCalled) (by simp [hc]) (by simp [hc]),
      blockBytes_congr (s := s.asCalled) (t := t.asCalled) (by simp [hc])]

@[simp] theorem stepped_bxCnt (s : State) : s.stepped.bxCnt = s.bxCnt := by
  simp only [State.bxCnt, State.widthPx, State.widthInt, stepped_width]

@[simp] theorem stepped_byCnt (s : State) : s.stepped.byCnt = s.byCnt := by
  simp only [State.byCnt, State.heightPx, State.heightInt, stepped_height]

@[simp] theorem stepped_nBlocks (s : State) : s.stepped.nBlocks = s.nBlocks := by
  simp only [State.nBlocks, stepped_bxCnt, stepped_byCnt]

@[simp] theorem stepped_blockBytes (s : State) : s.stepped.blockBytes = s.blockBytes := by
  simp only [State.blockBytes, stepped_cmd]

@[simp] theorem stepped_widthPx (s : State) : s.stepped.widthPx = s.widthPx := by
  simp only [State.widthPx, State.widthInt, stepped_width]

@[simp] theorem stepped_heightPx (s : State) : s.stepped.heightPx = s.heightPx := by
  simp only [State.heightPx, State.heightInt, stepped_height]

@[simp] theorem stepped_outBytes (s : State) : s.stepped.outBytes = s.outBytes := by
  simp only [State.outBytes, stepped_widthPx, stepped_heightPx]

/-- A block step that decodes a block does not end in ERROR. -/
theorem stepped_phase_ne_error {s : State} (hb : s.phase = .busy) : s.stepped.phase ≠ .error := by
  by_cases hx : s.blkX + 1 = s.bxCnt
  · rw [(stepped_rowEnd hb hx).2.2]
    split <;> decide
  · unfold State.stepped State.advance
    rw [nextBlock_neg (by exact hx), endBlock_phase]
    unfold State.closeCall
    split
    · simp
    · show s.phase ≠ .error
      rw [hb]
      decide

/-- Where the block after the current one stands in the stream (44_assembler.md R251). -/
theorem nextBlock_index {x y bx : Nat} (h : x + 1 = bx) : (y + 1) * bx + 0 = y * bx + x + 1 := by
  rw [Nat.add_mul, Nat.one_mul]
  omega

/-- Everything a step can do in a machine that only the spec's two agents drive: the engine's turn on the state `u` with
that turn off the agenda, or a host action. -/
theorem agent_cases {s t : State} (hn : s.noWords) (h : step s = .next t) :
    (∃ u ev, u = { s with agenda := ev } ∧ u.noWords ∧ (s.agenda = [] ∨ ∃ rest, s.agenda = .engine :: rest) ∧
      ((u.phase ≠ .busy ∧ t = u) ∨ (u.phase = .busy ∧ blockStep u = .next t))) ∨
    (∃ a rest, s.agenda = .host a :: rest ∧ ({ s with agenda := rest } : State).noWords ∧
      hostAct a { s with agenda := rest } = .next t) := by
  rcases step_cases h with ⟨ha, he⟩ | ⟨rest, ha, he⟩ | ⟨a, rest, ha, he⟩ | ⟨f, b, rest, ha, -⟩
  · exact .inl ⟨s, s.agenda, rfl, hn, .inl ha, engineTurn_cases he⟩
  · exact .inl ⟨_, rest, rfl, noWords_tail hn ha rfl, .inr ⟨rest, ha⟩, engineTurn_cases he⟩
  · exact .inr ⟨a, rest, ha, noWords_tail hn ha rfl, he⟩
  · exact absurd (by rw [ha]; exact List.mem_cons_self) (hn f b)

end Sys2Proof.Machine
end

