-- ==== Sys2Proof/Laws/PerInstr.lean ====
section
/-! SUPPORT. The shape of every instruction's encoding, one lemma per constructor: how many bytes it has, and that a
selector word and its pixel index lie inside their fields (30_encoding.md R81, R90; 00_scope.md R13). -/

namespace Sys2Proof.Laws.EncodeShape

/-- The number of bits of a selector word (30_encoding.md R90). -/
def selectorBits : Fmt → Nat
  | .dxt1Csel => 3
  | .dxt5Csel => 2
  | .dxt5Asel => 4
  | .cmd | .unit => 0

/-- A command is four bytes; a selector word is two, a word of its width and a pixel index; a unit word begins with its
number and has at most three operand bytes. -/
def Statement (i : Instr) : Prop :=
  match i.fmt with
  | .cmd => (encode i).length = 4
  | .unit => 1 ≤ (encode i).length ∧ (encode i).length ≤ 4 ∧ ((encode i).headD 0).toNat < 8
  | f => (encode i).length = 2 ∧ ((encode i).headD 0).toNat < 2 ^ selectorBits f ∧ ((encode i).getLastD 0).toNat < 16

/-- The shape of a selector's encoding, once for all rows. -/
theorem selector_shape (w : Byte) (i : PixelIx) (n : Nat) (h : w.toNat < 2 ^ n) :
    (encodeSelector w i).length = 2 ∧ ((encodeSelector w i).headD 0).toNat < 2 ^ n ∧
    ((encodeSelector w i).getLastD 0).toNat < 16 := by
  refine ⟨rfl, h, ?_⟩
  show (BitVec.ofNat 8 i.val).toNat < 16
  have := i.isLt
  simp only [BitVec.toNat_ofNat, Nat.reducePow]
  omega

theorem decodeDxt1 : Statement .decodeDxt1 := rfl
theorem decodeDxt5 : Statement .decodeDxt5 := rfl
theorem dxt1C4S0 (i : PixelIx) : Statement (.dxt1C4S0 i) := selector_shape _ i 3 (by decide)
theorem dxt1C4S1 (i : PixelIx) : Statement (.dxt1C4S1 i) := selector_shape _ i 3 (by decide)
theorem dxt1C4S2 (i : PixelIx) : Statement (.dxt1C4S2 i) := selector_shape _ i 3 (by decide)
theorem dxt1C4S3 (i : PixelIx) : Statement (.dxt1C4S3 i) := selector_shape _ i 3 (by decide)
theorem dxt1C3S0 (i : PixelIx) : Statement (.dxt1C3S0 i) := selector_shape _ i 3 (by decide)
theorem dxt1C3S1 (i : PixelIx) : Statement (.dxt1C3S1 i) := selector_shape _ i 3 (by decide)
theorem dxt1C3S2 (i : PixelIx) : Statement (.dxt1C3S2 i) := selector_shape _ i 3 (by decide)
theorem dxt1C3S3 (i : PixelIx) : Statement (.dxt1C3S3 i) := selector_shape _ i 3 (by decide)
theorem dxt5CS0 (i : PixelIx) : Statement (.dxt5CS0 i) := selector_shape _ i 2 (by decide)
theorem dxt5CS1 (i : PixelIx) : Statement (.dxt5CS1 i) := selector_shape _ i 2 (by decide)
theorem dxt5CS2 (i : PixelIx) : Statement (.dxt5CS2 i) := selector_shape _ i 2 (by decide)
theorem dxt5CS3 (i : PixelIx) : Statement (.dxt5CS3 i) := selector_shape _ i 2 (by decide)
theorem dxt5A8S0 (i : PixelIx) : Statement (.dxt5A8S0 i) := selector_shape _ i 4 (by decide)
theorem dxt5A8S1 (i : PixelIx) : Statement (.dxt5A8S1 i) := selector_shape _ i 4 (by decide)
theorem dxt5A8S2 (i : PixelIx) : Statement (.dxt5A8S2 i) := selector_shape _ i 4 (by decide)
theorem dxt5A8S3 (i : PixelIx) : Statement (.dxt5A8S3 i) := selector_shape _ i 4 (by decide)
theorem dxt5A8S4 (i : PixelIx) : Statement (.dxt5A8S4 i) := selector_shape _ i 4 (by decide)
theorem dxt5A8S5 (i : PixelIx) : Statement (.dxt5A8S5 i) := selector_shape _ i 4 (by decide)
theorem dxt5A8S6 (i : PixelIx) : Statement (.dxt5A8S6 i) := selector_shape _ i 4 (by decide)
theorem dxt5A8S7 (i : PixelIx) : Statement (.dxt5A8S7 i) := selector_shape _ i 4 (by decide)
theorem dxt5A6S0 (i : PixelIx) : Statement (.dxt5A6S0 i) := selector_shape _ i 4 (by decide)
theorem dxt5A6S1 (i : PixelIx) : Statement (.dxt5A6S1 i) := selector_shape _ i 4 (by decide)
theorem dxt5A6S2 (i : PixelIx) : Statement (.dxt5A6S2 i) := selector_shape _ i 4 (by decide)
theorem dxt5A6S3 (i : PixelIx) : Statement (.dxt5A6S3 i) := selector_shape _ i 4 (by decide)
theorem dxt5A6S4 (i : PixelIx) : Statement (.dxt5A6S4 i) := selector_shape _ i 4 (by decide)
theorem dxt5A6S5 (i : PixelIx) : Statement (.dxt5A6S5 i) := selector_shape _ i 4 (by decide)
theorem dxt5A6S6 (i : PixelIx) : Statement (.dxt5A6S6 i) := selector_shape _ i 4 (by decide)
theorem dxt5A6S7 (i : PixelIx) : Statement (.dxt5A6S7 i) := selector_shape _ i 4 (by decide)
theorem expand565 (c : BitVec 16) : Statement (.expand565 c) := ⟨by simp [encode], by simp [encode], by simp [encode]⟩
theorem avg2 (a : Byte) (b : Byte) : Statement (.avg2 a b) := ⟨by simp [encode], by simp [encode], by simp [encode]⟩
theorem weighted3 (a : Byte) (b : Byte) : Statement (.weighted3 a b) := ⟨by simp [encode], by simp [encode], by simp [encode]⟩
theorem ramp7 (ai : BitVec 3) (a : Byte) (b : Byte) : Statement (.ramp7 ai a b) := ⟨by simp [encode], by simp [encode], by simp [encode]⟩
theorem ramp5 (ai : BitVec 3) (a : Byte) (b : Byte) : Statement (.ramp5 ai a b) := ⟨by simp [encode], by simp [encode], by simp [encode]⟩
theorem dxt1Block : Statement .dxt1Block := ⟨by decide, by decide, by decide⟩
theorem dxt5Block : Statement .dxt5Block := ⟨by decide, by decide, by decide⟩
theorem assemble : Statement .assemble := ⟨by decide, by decide, by decide⟩

end Sys2Proof.Laws.EncodeShape
end

