-- ==== Sys2Proof/Laws/Run.lean ====
section
/-! SUPPORT. Runs of the engine: `k` block steps of a call, where they leave the counters, and that they are the steps of
the machine (44_assembler.md R251, R262, R264). -/

namespace Sys2Proof.Machine

/-- The state after `k` block steps that each decode a block. -/
def State.afterBlocks (s : State) : Nat → State
  | 0 => s
  | k + 1 => (s.afterBlocks k).stepped

theorem run_succ_of_step {s t : State} (k : Nat) (h : step s = .next t) :
    Host.Core.run core (k + 1) s = Host.Core.run core k t := by
  simp only [Host.Core.run, core, h]

/-- The step when the engine has the next turn: its turn, taken off the agenda (log entry 1). -/
theorem step_of_engineNext {s : State} {rest : List Event} (h : s.EngineNext rest) :
    step s = engineTurn { s with agenda := rest } := by
  rcases h with ⟨ha, rfl⟩ | ha
  · simp only [step, takeTurn, ha]
    rw [← ha]
  · simp only [step, takeTurn, ha, runEvent]

/-- The step of a busy engine that has the next turn is a block step (44_assembler.md R262). -/
theorem step_of_busy {s : State} {rest : List Event} (h : s.EngineNext rest) (hb : s.phase = .busy) :
    step s = blockStep { s with agenda := rest } := by
  rw [step_of_engineNext h]
  exact if_pos hb

/-- With nothing on the agenda the engine has the turn. -/
theorem step_of_quiet {s : State} (h : s.agenda = []) : step s = engineTurn s := by
  rw [step_of_engineNext (.inl ⟨h, rfl⟩), ← h]

/-- The step of a busy engine with a whole block left in the stream. -/
theorem step_stepped {s : State} (ha : s.agenda = []) (hb : s.phase = .busy) (hf : s.outBytes ≤ s.out.capacity)
    (h : s.cursor + s.blockBytes ≤ s.stream.length) : step s = .next s.stepped := by
  rw [step_of_busy (.inl ⟨ha, rfl⟩) hb, ← ha]
  exact blockStep_ok hb hf h

section
variable (s : State) (k : Nat)
@[simp] theorem afterBlocks_cmd : (s.afterBlocks k).cmd = s.cmd := by
  induction k with | zero => rfl | succ k ih => simp [State.afterBlocks, ih]
@[simp] theorem afterBlocks_width : (s.afterBlocks k).width = s.width := by
  induction k with | zero => rfl | succ k ih => simp [State.afterBlocks, ih]
@[simp] theorem afterBlocks_height : (s.afterBlocks k).height = s.height := by
  induction k with | zero => rfl | succ k ih => simp [State.afterBlocks, ih]
@[simp] theorem afterBlocks_errcode : (s.afterBlocks k).errcode = s.errcode := by
  induction k with | zero => rfl | succ k ih => simp [State.afterBlocks, ih]
@[simp] theorem afterBlocks_stream : (s.afterBlocks k).stream = s.stream := by
  induction k with | zero => rfl | succ k ih => simp [State.afterBlocks, ih]
@[simp] theorem afterBlocks_agenda : (s.afterBlocks k).agenda = s.agenda := by
  induction k with | zero => rfl | succ k ih => simp [State.afterBlocks, ih]
@[simp] theorem afterBlocks_call : (s.afterBlocks k).call = s.call := by
  induction k with | zero => rfl | succ k ih => simp [State.afterBlocks, ih]
@[simp] theorem afterBlocks_fieldOrder : (s.afterBlocks k).fieldOrder = s.fieldOrder := by
  induction k with | zero => rfl | succ k ih => simp [State.afterBlocks, ih]
@[simp] theorem afterBlocks_capacity : (s.afterBlocks k).out.capacity = s.out.capacity := by
  induction k with | zero => rfl | succ k ih => simp [State.afterBlocks, ih]
@[simp] theorem afterBlocks_cursor : (s.afterBlocks k).cursor = s.cursor + k * s.blockBytes := by
  induction k with
  | zero => simp [State.afterBlocks]
  | succ k ih =>
    have hb : (s.afterBlocks k).blockBytes = s.blockBytes := by simp only [State.blockBytes, afterBlocks_cmd]
    rw [State.afterBlocks, stepped_cursor, ih, hb, Nat.add_mul, Nat.one_mul, Nat.add_assoc]
@[simp] theorem afterBlocks_blockBytes : (s.afterBlocks k).blockBytes = s.blockBytes := by
  simp only [State.blockBytes, afterBlocks_cmd]
@[simp] theorem afterBlocks_widthPx : (s.afterBlocks k).widthPx = s.widthPx := by
  simp only [State.widthPx, State.widthInt, afterBlocks_width]
@[simp] theorem afterBlocks_heightPx : (s.afterBlocks k).heightPx = s.heightPx := by
  simp only [State.heightPx, State.heightInt, afterBlocks_height]
@[simp] theorem afterBlocks_bxCnt : (s.afterBlocks k).bxCnt = s.bxCnt := by simp only [State.bxCnt, afterBlocks_widthPx]
@[simp] theorem afterBlocks_byCnt : (s.afterBlocks k).byCnt = s.byCnt := by simp only [State.byCnt, afterBlocks_heightPx]
@[simp] theorem afterBlocks_outBytes : (s.afterBlocks k).outBytes = s.outBytes := by
  simp only [State.outBytes, afterBlocks_widthPx, afterBlocks_heightPx]
end

/-- Where `k` block steps of a call leave the counters (44_assembler.md R251): the `k`-th block, or DONE after the
last. -/
theorem afterBlocks_position {s : State} (h : s.CallStarted) {k : Nat} (hk : k ≤ s.nBlocks) :
    (s.afterBlocks k).blkX = k % s.bxCnt ∧ (s.afterBlocks k).blkY = k / s.bxCnt ∧
    (s.afterBlocks k).phase = if k = s.nBlocks then .done else .busy := by
  have hpos := blocks_pos h.legal.width_pos h.legal.height_pos
  induction k with
  | zero =>
    have hn : 0 < s.nBlocks := Nat.mul_pos hpos.1 hpos.2
    rw [if_neg (by omega)]
    exact ⟨by simp [State.afterBlocks, h.x_eq], by simp [State.afterBlocks, h.y_eq], h.busy⟩
  | succ k ih =>
    obtain ⟨ex, ey, ep⟩ := ih (by omega)
    rw [if_neg (by omega)] at ep
    have hlt : k < s.bxCnt * s.byCnt := hk
    have hy : k / s.bxCnt < s.byCnt := Nat.div_lt_of_lt_mul hlt
    have hdm := Nat.div_add_mod k s.bxCnt
    have hmod := Nat.mod_lt k hpos.1
    by_cases hx : k % s.bxCnt + 1 = s.bxCnt
    · obtain ⟨h1, h2, h3⟩ := stepped_rowEnd ep (by rw [ex, afterBlocks_bxCnt]; exact hx)
      have e : k + 1 = s.bxCnt * (k / s.bxCnt + 1) := by rw [Nat.mul_add, Nat.mul_one]; omega
      rw [State.afterBlocks]
      refine ⟨?_, ?_, ?_⟩
      · rw [h1, e, Nat.mul_mod_right]
      · rw [h2, ey, e, Nat.mul_div_cancel_left _ hpos.1]
      · rw [h3, ey, afterBlocks_byCnt, e, State.nBlocks]
        by_cases hl : k / s.bxCnt + 1 = s.byCnt
        · rw [if_pos hl, if_pos (by rw [hl])]
        · rw [if_neg hl, if_neg fun hc => hl (Nat.eq_of_mul_eq_mul_left hpos.1 hc)]
    · obtain ⟨h1, h2, h3⟩ := stepped_within ep (by rw [ex, afterBlocks_bxCnt]; omega) (by rw [ey, afterBlocks_byCnt]; exact hy)
      have e : k + 1 = (k % s.bxCnt + 1) + s.bxCnt * (k / s.bxCnt) := by omega
      have e1 : (k + 1) % s.bxCnt = k % s.bxCnt + 1 := by
        rw [e, Nat.add_mul_mod_self_left, Nat.mod_eq_of_lt (by omega)]
      have e2 : (k + 1) / s.bxCnt = k / s.bxCnt := by
        rw [e, Nat.add_mul_div_left _ _ hpos.1, Nat.div_eq_of_lt (by omega), Nat.zero_add]
      rw [State.afterBlocks]
      refine ⟨by rw [h1, ex, e1], by rw [h2, ey, e2], ?_⟩
      rw [h3, if_neg]
      intro hc
      rw [State.nBlocks] at hc
      rw [hc, Nat.mul_mod_right] at e1
      omega

/-- The first `k` steps of a call whose stream holds `k` blocks are block steps (44_assembler.md R264). -/
theorem run_afterBlocks {s : State} (h : s.CallStarted) {k : Nat} (hk : k ≤ s.nBlocks)
    (hs : k * s.blockBytes ≤ s.stream.length) (m : Nat) :
    Host.Core.run core (k + m) s = Host.Core.run core m (s.afterBlocks k) := by
  induction k generalizing m with
  | zero => rw [Nat.zero_add]; rfl
  | succ k ih =>
    rw [Nat.add_mul, Nat.one_mul] at hs
    rw [show k + 1 + m = k + (m + 1) by omega, ih (by omega) (by omega)]
    apply run_succ_of_step
    have hp := (afterBlocks_position h (k := k) (by omega)).2.2
    rw [if_neg (by omega)] at hp
    apply step_stepped _ hp
    · simpa using h.legal.fits
    · simp only [afterBlocks_cursor, afterBlocks_blockBytes, afterBlocks_stream, h.cursor_eq]
      omega
    · rw [afterBlocks_agenda, h.quiet]

/-- The state that a START with no error leaves, with nothing else on the agenda, is the start of an engine run. -/
theorem callStarted_of_start {s : State} {w : Word} (hw : w = 0x10 ∨ w = 0x11) (hx : 0 < s.width.toInt)
    (hy : 0 < s.height.toInt) (hf : s.outBytes ≤ s.out.capacity) :
    (({ s with agenda := [] } : State).acceptStart w).beginCall.CallStarted where
  busy := rfl
  legal := ⟨hx, hy, hf, hw.imp (fun h => by subst h; rfl) (fun h => by subst h; rfl)⟩
  x_eq := rfl
  y_eq := rfl
  cursor_eq := rfl
  quiet := rfl

end Sys2Proof.Machine
end

