-- ==== Sys2Proof/Laws/Selector.lean ====
section
/-! SUPPORT. What a selector word does: one pixel, or one colour or alpha of it. And where a decoded block's pixels come
from. -/

namespace Sys2Proof.Machine

theorem pixel_setPixel (s : State) (i : PixelIx) (p : Rgba) : (s.setPixel i p).pixel i = p := by simp [State.pixel]

theorem pixel_setPixel_ne (s : State) {i j : PixelIx} (p : Rgba) (h : j ≠ i) : (s.setPixel i p).pixel j = s.pixel j := by
  simp only [State.pixel, setPixel_pix]
  rw [Vector.getElem_set_ne]
  exact fun e => h (Fin.ext e.symm)

theorem onlyPixel_setPixel (s : State) (i : PixelIx) (p : Rgba) : OnlyPixel i s (s.setPixel i p) :=
  ⟨rfl, fun _ h => pixel_setPixel_ne s p h, fun _ => rfl⟩

theorem onlyPixelRgb_setPixelRgb (s : State) (i : PixelIx) (c : Rgb) : OnlyPixelRgb i s (s.setPixelRgb i c) :=
  ⟨onlyPixel_setPixel s i _, by simp only [State.setPixelRgb, pixel_setPixel]⟩

theorem rgbNat_setPixelRgb (s : State) (i : PixelIx) (c : Rgb) :
    rgbNat ((s.setPixelRgb i c).pixel i) = (c.r.toNat, c.g.toNat, c.b.toNat) := by
  simp only [State.setPixelRgb, pixel_setPixel, rgbNat]

theorem onlyPixelAlpha_setPixelAlpha (s : State) (i : PixelIx) (a : Byte) : OnlyPixelAlpha i s (s.setPixelAlpha i a) := by
  refine ⟨onlyPixel_setPixel s i _, ?_⟩
  simp only [State.setPixelAlpha, pixel_setPixel, and_self]

theorem alpha_setPixelAlpha (s : State) (i : PixelIx) (a : Byte) : ((s.setPixelAlpha i a).pixel i).a = a := by
  simp only [State.setPixelAlpha, pixel_setPixel]

/-- Writing a pixel's own value changes nothing. -/
theorem setPixel_self (s : State) (i : PixelIx) : s.setPixel i (s.pixel i) = s := by
  simp only [State.setPixel, State.pixel, Vector.set_getElem_self]

theorem getElem_dxt1Pixels (b : Block) (i : PixelIx) :
    (dxt1Pixels b)[i.val] = dxt1Palette (opaque4Flag b) b (colourSel b.cidx i) := by
  simp only [dxt1Pixels, Vector.getElem_ofFn]

theorem getElem_dxt5Pixels (b : Block) (i : PixelIx) :
    (dxt5Pixels b)[i.val] =
      combine (dxt5Palette b (colourSel b.cidx i)) (alphaPalette (alpha8Flag b) b (alphaSel b.amask i)) := by
  simp only [dxt5Pixels, Vector.getElem_ofFn]

end Sys2Proof.Machine
end

