-- ==== Sys2Proof/Tests/Slice0.lean ====
section
/-! SUPPORT. The model's own tests: the well-formedness smoke, the decoding of words written out from 30_encoding.md, the
vectors of 95_test_vectors.md one step at a time, and a witness for every statement that has hypotheses. The expected
results are the spec's: each test names its vector or its rule. -/

namespace Sys2Proof.Tests

open Sys2Proof Sys2Proof.Machine

/-! Helpers. -/

/-- The reset state of 95_test_vectors.md with OUT_CAPACITY = `n`. -/
def withCapacity (n : Nat) : State := { State.reset with out := ⟨n, 0, []⟩ }

/-- The reset state with OUT_CAPACITY = 4096. -/
def base : State := withCapacity 4096

/-- The next state of a result. -/
def next? : Result → Option State
  | .next t => some t
  | .fault _ => none
  | .refused _ => none

/-- A refusal. -/
def refusal? : Result → Option Refusal
  | .next _ => none
  | .fault _ => none
  | .refused r => some r

/-- The instruction that bytes decode to in a format. -/
def decoded? (f : Fmt) (bytes : List Byte) : Option Instr :=
  match decode f bytes with
  | .ok (i, _) => some i
  | .error _ => none

/-- The refusal of bytes that decode to nothing. -/
def refusedWhy (f : Fmt) (bytes : List Byte) : Option DecodeError :=
  match decode f bytes with
  | .ok _ => none
  | .error e => some e

/-- A block of DXT1 with the running colours of 42_dxt1.md: C0RAW = 0xF800, C1RAW = 0x001F. -/
def redBlue : Block := ⟨0, 0, 0, 0xF800, 0x001F, 0⟩

/-- The same colours swapped (the punch-through example of 42_dxt1.md). -/
def blueRed : Block := ⟨0, 0, 0, 0x001F, 0xF800, 0⟩

/-- A block with the running alphas of the 7-step ramp (43_dxt5.md). -/
def alphaDown : Block := ⟨255, 0, 0, 0xF800, 0x001F, 0⟩

/-- A block with the running alphas of the 5-step ramp (43_dxt5.md). -/
def alphaUp : Block := ⟨0, 255, 0, 0xF800, 0x001F, 0⟩

/-- `base` with a block in BLK and every pixel at (1, 2, 3, 4). -/
def withBlock (b : Block) : State := { base with blk := b, pix := Vector.replicate 16 ⟨1, 2, 3, 4⟩ }

/-- Pixel `i` after an instruction. -/
def pixelAfter (i : Instr) (s : State) (j : PixelIx) : Option Rgba := (next? (exec i s)).map fun t => t.pixel j

/-- STATE and CODE after an instruction. -/
def statusAfter (r : Result) : Option (Phase × ErrCode) := (next? r).map fun t => (t.phase, t.errcode)

/-- The DXT1 block of T5.1. -/
def t51 : List Byte := [0x00, 0xF8, 0x1F, 0x00, 0xE4, 0xE4, 0xE4, 0xE4]

/-- The DXT5 block of T6.1. -/
def t61 : List Byte := [0xFF, 0x00, 0x88, 0xC6, 0xFA, 0x88, 0xC6, 0xFA, 0x00, 0xF8, 0x1F, 0x00, 0xE4, 0xE4, 0xE4, 0xE4]

/-- The DXT5 block of T6.2. -/
def t62 : List Byte := [0x00, 0xFF, 0x88, 0xC6, 0xFA, 0x88, 0xC6, 0xFA, 0xFF, 0xFF, 0xFF, 0xFF, 0x00, 0x00, 0x00, 0x00]

/-! Well-formedness: an ill-formed term for each check. -/

theorem test_illformed_ramp7 : WellFormed (.ramp7 1 0 0) = false ∧ WellFormed (.ramp7 2 0 0) = true := by decide

theorem test_illformed_ramp5_low : WellFormed (.ramp5 1 0 0) = false ∧ WellFormed (.ramp5 2 0 0) = true := by decide

theorem test_illformed_ramp5_high : WellFormed (.ramp5 6 0 0) = false ∧ WellFormed (.ramp5 5 0 0) = true := by decide

/-! Decoding: words written out from 30_encoding.md R81, R90 and the numbering of log entry 12. -/

/-- R81: the command words, least significant byte first. -/
theorem test_decode_commands :
    decoded? .cmd [0x10, 0x00, 0x00, 0x00] = some .decodeDxt1 ∧ decoded? .cmd [0x11, 0x00, 0x00, 0x00] = some .decodeDxt5 := by
  decide

/-- R82: no START, reserved FORMAT 2 and 3, reserved bits 2 and 5 (the command words of T8.9 to T8.12 and T8.18). -/
theorem test_decode_reserved_commands :
    decodeCommand 0x00000002 = .error .noStart ∧ decodeCommand 0x00000012 = .error .reservedFormat ∧
    decodeCommand 0x00000013 = .error .reservedFormat ∧ decodeCommand 0x00000014 = .error .reservedBits ∧
    decodeCommand 0x00000030 = .error .reservedBits ∧ decodeCommand 0x80000010 = .error .reservedBits := by
  decide

/-- R170 to R173: 3'b100 to 3'b111, at pixel 15. -/
theorem test_decode_dxt1_opaque :
    decoded? .dxt1Csel [0b100, 15] = some (.dxt1C4S0 15) ∧ decoded? .dxt1Csel [0b101, 15] = some (.dxt1C4S1 15) ∧
    decoded? .dxt1Csel [0b110, 15] = some (.dxt1C4S2 15) ∧ decoded? .dxt1Csel [0b111, 15] = some (.dxt1C4S3 15) := by
  decide

/-- R174 to R177: 3'b000 to 3'b011, at pixel 1. -/
theorem test_decode_dxt1_punchThrough :
    decoded? .dxt1Csel [0b000, 1] = some (.dxt1C3S0 1) ∧ decoded? .dxt1Csel [0b001, 1] = some (.dxt1C3S1 1) ∧
    decoded? .dxt1Csel [0b010, 1] = some (.dxt1C3S2 1) ∧ decoded? .dxt1Csel [0b011, 1] = some (.dxt1C3S3 1) := by
  decide

/-- R220 to R223: 2'b00 to 2'b11. -/
theorem test_decode_dxt5_colour :
    decoded? .dxt5Csel [0b00, 2] = some (.dxt5CS0 2) ∧ decoded? .dxt5Csel [0b01, 2] = some (.dxt5CS1 2) ∧
    decoded? .dxt5Csel [0b10, 2] = some (.dxt5CS2 2) ∧ decoded? .dxt5Csel [0b11, 2] = some (.dxt5CS3 2) := by
  decide

/-- R230 to R237: 4'b1000 to 4'b1111. -/
theorem test_decode_dxt5_sevenStep :
    decoded? .dxt5Asel [0b1000, 3] = some (.dxt5A8S0 3) ∧ decoded? .dxt5Asel [0b1001, 3] = some (.dxt5A8S1 3) ∧
    decoded? .dxt5Asel [0b1010, 3] = some (.dxt5A8S2 3) ∧ decoded? .dxt5Asel [0b1011, 3] = some (.dxt5A8S3 3) ∧
    decoded? .dxt5Asel [0b1100, 3] = some (.dxt5A8S4 3) ∧ decoded? .dxt5Asel [0b1101, 3] = some (.dxt5A8S5 3) ∧
    decoded? .dxt5Asel [0b1110, 3] = some (.dxt5A8S6 3) ∧ decoded? .dxt5Asel [0b1111, 3] = some (.dxt5A8S7 3) := by
  decide

/-- R240 to R247: 4'b0000 to 4'b0111. -/
theorem test_decode_dxt5_fiveStep :
    decoded? .dxt5Asel [0b0000, 4] = some (.dxt5A6S0 4) ∧ decoded? .dxt5Asel [0b0001, 4] = some (.dxt5A6S1 4) ∧
    decoded? .dxt5Asel [0b0010, 4] = some (.dxt5A6S2 4) ∧ decoded? .dxt5Asel [0b0011, 4] = some (.dxt5A6S3 4) ∧
    decoded? .dxt5Asel [0b0100, 4] = some (.dxt5A6S4 4) ∧ decoded? .dxt5Asel [0b0101, 4] = some (.dxt5A6S5 4) ∧
    decoded? .dxt5Asel [0b0110, 4] = some (.dxt5A6S6 4) ∧ decoded? .dxt5Asel [0b0111, 4] = some (.dxt5A6S7 4) := by
  decide

/-- Log entry 12: the units, numbered in the table's order; a colour with its low byte first. -/
theorem test_decode_units :
    decoded? .unit [0, 0x34, 0x12] = some (.expand565 0x1234) ∧ decoded? .unit [1, 7, 8] = some (.avg2 7 8) ∧
    decoded? .unit [2, 7, 8] = some (.weighted3 7 8) ∧ decoded? .unit [3, 7, 8, 9] = some (.ramp7 7 8 9) ∧
    decoded? .unit [4, 5, 8, 9] = some (.ramp5 5 8 9) ∧ decoded? .unit [5] = some .dxt1Block ∧
    decoded? .unit [6] = some .dxt5Block ∧ decoded? .unit [7] = some .assemble := by
  decide

/-- Log entry 11: a ramp selector for which R143 or R144 states no result decodes too. -/
theorem test_decode_ramp_any_selector :
    decoded? .unit [3, 0, 8, 9] = some (.ramp7 0 8 9) ∧ decoded? .unit [3, 1, 8, 9] = some (.ramp7 1 8 9) ∧
    decoded? .unit [4, 1, 8, 9] = some (.ramp5 1 8 9) ∧ decoded? .unit [4, 6, 8, 9] = some (.ramp5 6 8 9) ∧
    decoded? .unit [4, 7, 8, 9] = some (.ramp5 7 8 9) := by
  decide

/-- Words that no row has, each refused by name. -/
theorem test_decode_refusals :
    refusedWhy .dxt1Csel [0b1000, 0] = some .selectorTooWide ∧ refusedWhy .dxt5Csel [0b100, 0] = some .selectorTooWide ∧
    refusedWhy .dxt5Asel [0b10000, 0] = some .selectorTooWide ∧ refusedWhy .dxt5Asel [0, 16] = some .pixelIndex ∧
    refusedWhy .unit [3, 8, 0, 0] = some .selectorTooWide ∧ refusedWhy .unit [4, 8, 0, 0] = some .selectorTooWide ∧
    refusedWhy .unit [8] = some .unknownUnit ∧
    refusedWhy .cmd [0x10, 0, 0] = some .truncated := by
  decide

/-! Field assembly and bit fields (T4). -/

/-- T4.3: the two byte orders of `00 F8` and of an index table. -/
theorem test_field_orders :
    fieldValue .le [0x00, 0xF8] = 0xF800 ∧ fieldValue .be [0x00, 0xF8] = 0x00F8 ∧
    fieldValue .le [0x88, 0xC6, 0xFA, 0x88, 0xC6, 0xFA] = 0xFAC688FAC688 := by
  decide

/-- T4.1: bytes `C0 00 00 00` select 3 at pixel 3 alone of pixels 2 to 4, `00 00 00 C0` at pixel 15. -/
theorem test_colour_selectors :
    colourSel 0x000000C0 3 = 3 ∧ colourSel 0x000000C0 2 = 0 ∧ colourSel 0x000000C0 4 = 0 ∧ colourSel 0xC0000000 15 = 3 := by
  decide

/-- T4.2: the four alpha selectors that straddle a byte. -/
theorem test_alpha_selectors :
    alphaSel (BitVec.ofNat 48 (leValue [0xC0, 0x01, 0, 0, 0, 0])) 2 = 7 ∧
    alphaSel (BitVec.ofNat 48 (leValue [0, 0x80, 0x03, 0, 0, 0])) 5 = 7 ∧
    alphaSel (BitVec.ofNat 48 (leValue [0, 0, 0, 0xC0, 0x01, 0])) 10 = 7 ∧
    alphaSel (BitVec.ofNat 48 (leValue [0, 0, 0, 0, 0x80, 0x03])) 13 = 7 := by
  decide

/-! The expander and the blends (T1, T2, T3). -/

/-- T1.6, T1.10, T1.12 to T1.15: the example of R120, the sign bit, and the four codes of 90_conflicts.md C2. -/
theorem test_expand565 :
    expand565 0x1234 = ⟨16, 69, 164⟩ ∧ expand565 0x8000 = ⟨132, 0, 0⟩ ∧ expand565 0xA000 = ⟨164, 0, 0⟩ ∧
    expand565 0xC800 = ⟨205, 0, 0⟩ ∧ expand565 0xE800 = ⟨238, 0, 0⟩ ∧ expand565 0x06A0 = ⟨0, 214, 0⟩ := by
  decide

/-- T1.3 through the row of the table. -/
theorem test_exec_expand565 : (next? (exec (.expand565 0xF800) base)).map (·.unitRgb) = some ⟨255, 0, 0⟩ := by decide

/-- T2.1 to T2.4. -/
theorem test_exec_avg2 :
    (next? (exec (.avg2 0 255) base)).map (·.unitVal) = some 127 ∧ (next? (exec (.avg2 254 255) base)).map (·.unitVal) = some 254 ∧
    avg2 255 255 = 255 ∧ avg2 0 1 = 0 := by
  decide

/-- T2.5 to T2.8. -/
theorem test_exec_weighted3 :
    (next? (exec (.weighted3 0 255) base)).map (·.unitVal) = some 170 ∧
    (next? (exec (.weighted3 255 0) base)).map (·.unitVal) = some 85 ∧ weighted3 0 1 = 0 ∧ weighted3 0 2 = 1 := by
  decide

/-- T2.12, T2.14: the lanes do not meet. -/
theorem test_blend_lanes :
    w3Rgb ⟨123, 255, 255⟩ ⟨132, 0, 0⟩ = ⟨129, 85, 85⟩ ∧ avg2Rgb ⟨0, 255, 0⟩ ⟨255, 255, 255⟩ = ⟨127, 255, 127⟩ := by
  decide

/-- R143: the worked example, and the corner cases `RAMP7(2, 255, 0)` and `RAMP7(7, 255, 0)`. -/
theorem test_exec_ramp7 :
    (next? (exec (.ramp7 4 200 100) base)).map (·.unitVal) = some 157 ∧
    (next? (exec (.ramp7 2 255 0) base)).map (·.unitVal) = some 218 ∧ ramp7 7 255 0 = 36 := by
  decide

/-- R144: the worked example, and the corner cases `RAMP5(2, 0, 255)` and `RAMP5(5, 0, 255)`. -/
theorem test_exec_ramp5 :
    (next? (exec (.ramp5 3 10 20) base)).map (·.unitVal) = some 14 ∧
    (next? (exec (.ramp5 2 0 255) base)).map (·.unitVal) = some 51 ∧ ramp5 5 0 255 = 204 := by
  decide

/-! Selectors (the examples of 42_dxt1.md and 43_dxt5.md). -/

theorem test_exec_dxt1C4S0 : pixelAfter (.dxt1C4S0 5) (withBlock redBlue) 5 = some ⟨255, 0, 0, 255⟩ := by decide
theorem test_exec_dxt1C4S1 : pixelAfter (.dxt1C4S1 5) (withBlock redBlue) 5 = some ⟨0, 0, 255, 255⟩ := by decide
theorem test_exec_dxt1C4S2 : pixelAfter (.dxt1C4S2 5) (withBlock redBlue) 5 = some ⟨170, 0, 85, 255⟩ := by decide
theorem test_exec_dxt1C4S3 : pixelAfter (.dxt1C4S3 5) (withBlock redBlue) 5 = some ⟨85, 0, 170, 255⟩ := by decide
theorem test_exec_dxt1C3S0 : pixelAfter (.dxt1C3S0 0) (withBlock blueRed) 0 = some ⟨0, 0, 255, 255⟩ := by decide
theorem test_exec_dxt1C3S1 : pixelAfter (.dxt1C3S1 0) (withBlock blueRed) 0 = some ⟨255, 0, 0, 255⟩ := by decide
theorem test_exec_dxt1C3S2 : pixelAfter (.dxt1C3S2 0) (withBlock blueRed) 0 = some ⟨127, 0, 127, 255⟩ := by decide
theorem test_exec_dxt1C3S3 : pixelAfter (.dxt1C3S3 15) (withBlock blueRed) 15 = some ⟨0, 0, 0, 0⟩ := by decide

/-- A selector leaves the other pixels alone. -/
theorem test_selector_other_pixel : pixelAfter (.dxt1C3S3 15) (withBlock blueRed) 14 = some ⟨1, 2, 3, 4⟩ := by decide

theorem test_exec_dxt5CS0 : pixelAfter (.dxt5CS0 7) (withBlock redBlue) 7 = some ⟨255, 0, 0, 4⟩ := by decide
theorem test_exec_dxt5CS1 : pixelAfter (.dxt5CS1 7) (withBlock redBlue) 7 = some ⟨0, 0, 255, 4⟩ := by decide
/-- R222: also when C0RAW <= C1RAW. -/
theorem test_exec_dxt5CS2 :
    pixelAfter (.dxt5CS2 7) (withBlock redBlue) 7 = some ⟨170, 0, 85, 4⟩ ∧
    pixelAfter (.dxt5CS2 7) (withBlock blueRed) 7 = some ⟨85, 0, 170, 4⟩ := by decide
/-- R223: never transparent black. -/
theorem test_exec_dxt5CS3 :
    pixelAfter (.dxt5CS3 7) (withBlock redBlue) 7 = some ⟨85, 0, 170, 4⟩ ∧
    pixelAfter (.dxt5CS3 7) (withBlock blueRed) 7 = some ⟨170, 0, 85, 4⟩ := by decide

theorem test_exec_dxt5A8S0 : pixelAfter (.dxt5A8S0 9) (withBlock alphaDown) 9 = some ⟨1, 2, 3, 255⟩ := by decide
theorem test_exec_dxt5A8S1 : pixelAfter (.dxt5A8S1 9) (withBlock alphaDown) 9 = some ⟨1, 2, 3, 0⟩ := by decide
theorem test_exec_dxt5A8S2 : pixelAfter (.dxt5A8S2 9) (withBlock alphaDown) 9 = some ⟨1, 2, 3, 218⟩ := by decide
theorem test_exec_dxt5A8S3 : pixelAfter (.dxt5A8S3 9) (withBlock alphaDown) 9 = some ⟨1, 2, 3, 182⟩ := by decide
theorem test_exec_dxt5A8S4 : pixelAfter (.dxt5A8S4 9) (withBlock alphaDown) 9 = some ⟨1, 2, 3, 145⟩ := by decide
theorem test_exec_dxt5A8S5 : pixelAfter (.dxt5A8S5 9) (withBlock alphaDown) 9 = some ⟨1, 2, 3, 109⟩ := by decide
theorem test_exec_dxt5A8S6 : pixelAfter (.dxt5A8S6 9) (withBlock alphaDown) 9 = some ⟨1, 2, 3, 72⟩ := by decide
theorem test_exec_dxt5A8S7 : pixelAfter (.dxt5A8S7 9) (withBlock alphaDown) 9 = some ⟨1, 2, 3, 36⟩ := by decide
theorem test_exec_dxt5A6S0 : pixelAfter (.dxt5A6S0 9) (withBlock alphaUp) 9 = some ⟨1, 2, 3, 0⟩ := by decide
theorem test_exec_dxt5A6S1 : pixelAfter (.dxt5A6S1 9) (withBlock alphaUp) 9 = some ⟨1, 2, 3, 255⟩ := by decide
theorem test_exec_dxt5A6S2 : pixelAfter (.dxt5A6S2 9) (withBlock alphaUp) 9 = some ⟨1, 2, 3, 51⟩ := by decide
theorem test_exec_dxt5A6S3 : pixelAfter (.dxt5A6S3 9) (withBlock alphaUp) 9 = some ⟨1, 2, 3, 102⟩ := by decide
theorem test_exec_dxt5A6S4 : pixelAfter (.dxt5A6S4 9) (withBlock alphaUp) 9 = some ⟨1, 2, 3, 153⟩ := by decide
theorem test_exec_dxt5A6S5 : pixelAfter (.dxt5A6S5 9) (withBlock alphaUp) 9 = some ⟨1, 2, 3, 204⟩ := by decide
theorem test_exec_dxt5A6S6 : pixelAfter (.dxt5A6S6 9) (withBlock alphaUp) 9 = some ⟨1, 2, 3, 0⟩ := by decide
theorem test_exec_dxt5A6S7 : pixelAfter (.dxt5A6S7 9) (withBlock alphaUp) 9 = some ⟨1, 2, 3, 255⟩ := by decide

/-- T3.1 and T3.2: two rows of the alpha palettes, selectors 2 to 5, and the mode boundary of T3.3. -/
theorem test_alpha_palettes :
    [2, 3, 4, 5].map (alphaPalette true ⟨200, 100, 0, 0, 0, 0⟩) = [185, 171, 157, 142] ∧
    [2, 3, 4, 5].map (alphaPalette false ⟨10, 20, 0, 0, 0, 0⟩) = [12, 14, 16, 18] ∧
    alpha8Flag ⟨100, 100, 0, 0, 0, 0⟩ = false ∧ alpha8Flag ⟨101, 100, 0, 0, 0, 0⟩ = true ∧
    alpha8Flag ⟨0x80, 0x7F, 0, 0, 0, 0⟩ = true := by
  decide

/-! Blocks (T5, T6). -/

/-- T5.1: row 0 of the opaque block. -/
theorem test_dxt1_block_opaque :
    (next? (exec .dxt1Block { base with stream := t51 })).map (fun t => (t.opaque4, t.pixel 0, t.pixel 1, t.pixel 2, t.pixel 3))
      = some (true, ⟨255, 0, 0, 255⟩, ⟨0, 0, 255, 255⟩, ⟨170, 0, 85, 255⟩, ⟨85, 0, 170, 255⟩) := by
  decide

/-- T4.3: the same bytes under BE are punch-through. -/
theorem test_dxt1_block_be :
    (next? (exec .dxt1Block { base with stream := t51, fieldOrder := .be })).map
      (fun t => (t.opaque4, t.pixel 0, t.pixel 1, t.pixel 2, t.pixel 3))
      = some (false, ⟨0, 28, 197, 255⟩, ⟨25, 227, 0, 255⟩, ⟨12, 127, 98, 255⟩, ⟨0, 0, 0, 0⟩) := by
  decide

/-- T5.8 and T5.5: the comparison is unsigned, and equality is punch-through. -/
theorem test_dxt1_modes : opaque4Flag ⟨0, 0, 0, 0x8000, 0x7FFF, 0⟩ = true ∧ opaque4Flag ⟨0, 0, 0, 0xF800, 0xF800, 0⟩ = false := by
  decide

/-- T6.1: pixels of rows 0 and 1. -/
theorem test_dxt5_block :
    (next? (exec .dxt5Block { base with stream := t61 })).map (fun t => (t.alpha8, t.blk.amask, t.pixel 2, t.pixel 5, t.pixel 7))
      = some (true, 0xFAC688FAC688, ⟨170, 0, 85, 218⟩, ⟨0, 0, 255, 109⟩, ⟨85, 0, 170, 36⟩) := by
  decide

/-- T6.2: the 5-step ramp, and OPAQUE4 kept. -/
theorem test_dxt5_block_fiveStep :
    (next? (exec .dxt5Block { base with stream := t62, opaque4 := true })).map
      (fun t => (t.alpha8, t.opaque4, t.pixel 3, t.pixel 6, t.pixel 7))
      = some (false, true, ⟨255, 255, 255, 102⟩, ⟨255, 255, 255, 0⟩, ⟨255, 255, 255, 255⟩) := by
  decide

/-! The assembler (T7). -/

/-- `base` at block (x, y) of a w x h image, every pixel (1, 2, 3, 4). -/
def atBlock (w h : Word) (x y : Nat) : State :=
  { base with width := w, height := h, blkX := x, blkY := y, pix := Vector.replicate 16 ⟨1, 2, 3, 4⟩ }

/-- T7.2 to T7.5, T7.8: addresses and clipping. -/
theorem test_clipping :
    (atBlock 6 5 1 0).inBounds 1 = true ∧ (atBlock 6 5 1 0).pixelAddress 1 = 20 ∧ (atBlock 6 5 1 0).inBounds 2 = false ∧
    (atBlock 6 5 0 1).inBounds 3 = true ∧ (atBlock 6 5 0 1).pixelAddress 3 = 108 ∧ (atBlock 6 5 0 1).inBounds 4 = false ∧
    (atBlock 5 5 1 1).inBounds 0 = true ∧ (atBlock 5 5 1 1).pixelAddress 0 = 96 := by
  decide

/-- T7.6: the last block of the 6 x 5 image writes bytes 112 to 119 and no other. -/
theorem test_exec_assemble :
    (next? (exec .assemble (atBlock 6 5 1 1))).map (·.out.cells) =
      some [(112, 1), (113, 2), (114, 3), (115, 4), (116, 1), (117, 2), (118, 3), (119, 4)] := by
  decide

/-- An address at OUT_CAPACITY does not exist. -/
theorem test_assemble_fault :
    exec .assemble { atBlock 1 1 0 0 with out := ⟨3, 0, []⟩ } = .fault (.outAddress 3) := rfl

/-! START and the host (T8). -/

/-- `base` with the dimensions and one write of CMD on the agenda. -/
def startOf (w h cmd : Word) : State := { base with width := w, height := h, agenda := [wr .cmd cmd] }

/-- T8.6 to T8.8: ArgError. -/
theorem test_start_arg :
    statusAfter (step (startOf 0 4 0x10)) = some (.error, .arg) ∧
    statusAfter (step (startOf 4 0xFFFFFFFF 0x10)) = some (.error, .arg) ∧
    statusAfter (step (startOf 0x80000000 4 0x10)) = some (.error, .arg) := by
  decide

/-- T8.9 to T8.13: CmdError, which comes before ArgError. -/
theorem test_start_cmd :
    statusAfter (step (startOf 4 4 0x12)) = some (.error, .cmd) ∧ statusAfter (step (startOf 4 4 0x13)) = some (.error, .cmd) ∧
    statusAfter (step (startOf 4 4 0x14)) = some (.error, .cmd) ∧ statusAfter (step (startOf 4 4 0x30)) = some (.error, .cmd) ∧
    statusAfter (step (startOf 0xFFFFFFFF 4 0x13)) = some (.error, .cmd) := by
  decide

/-- T8.14, T8.15: BufError, which comes after ArgError. -/
theorem test_start_buf :
    statusAfter (step { startOf 8 4 0x10 with out := ⟨64, 0, []⟩ }) = some (.error, .buf) ∧
    statusAfter (step { startOf 0 4 0x10 with out := ⟨0, 0, []⟩ }) = some (.error, .arg) := by
  decide

/-- T8.16, T8.20: an exact fit begins the call, and CMD reads back with bit 4 as 0. -/
theorem test_exec_decodeDxt1 :
    (next? (exec .decodeDxt1 { startOf 4 4 0x10 with out := ⟨64, 0, []⟩, presented := t51 })).map
      (fun t => (t.phase, t.errcode, t.cursor, t.stream, t.readReg 0x00)) = some (.busy, .none, 0, t51, some 0x00000000) := by
  decide

theorem test_exec_decodeDxt5 :
    (next? (exec .decodeDxt5 (startOf 1 1 0x11))).map (fun t => (t.phase, t.readReg 0x00, t.call)) =
      some (.busy, some 0x00000001, ⟨1, 1, 1⟩) := by
  decide

/-- R82: the same words presented by themselves have the effect of their write to CMD. -/
theorem test_command_words_alone :
    statusAfter (step { base with agenda := [.word .cmd [0x12, 0, 0, 0]] }) = some (.error, .cmd) ∧
    (next? (step { base with agenda := [.word .cmd [0x02, 0, 0, 0]] })).map (fun t => (t.phase, t.cmd)) = some (.idle, 2) := by
  decide

/-- R93, R342: STREAM during a call leaves the stream of the call. -/
theorem test_stream_while_busy :
    (next? (step { base with phase := .busy, stream := t51, agenda := [.host (.stream t61)] })).map
      (fun t => (t.stream, t.presented)) = some (t51, t61) := by
  decide

/-- T8.19, T8.20: a word without START is stored; a word that raised CmdError reads back without its START bit. -/
theorem test_cmd_readback :
    (next? (step (startOf 4 4 0x2))).map (fun t => (t.phase, t.errcode, t.readReg 0x00)) = some (.idle, .none, some 0x2) ∧
    (next? (step (startOf 4 4 0x12))).map (·.readReg 0x00) = some (some 0x2) := by
  decide

/-- T8.21: the refused host actions. -/
theorem test_refused_actions :
    refusal? (step { base with agenda := [wr .status 0] }) = some (.readOnlyWrite 0x0C) ∧
    refusal? (step { base with agenda := [wr .errcode 0] }) = some (.readOnlyWrite 0x10) ∧
    refusal? (step { base with agenda := [.host (.read 0x14 32)] }) = some (.hostOffset 0x14) ∧
    refusal? (step { base with agenda := [.host (.read 0x00 16)] }) = some (.hostWidth 16) ∧
    refusal? (step { base with phase := .busy, agenda := [wr .width 4] }) = some .busyWrite ∧
    refusal? (step { startOf 4 4 0x10 with phase := .busy }) = some .busyWrite ∧
    refusal? (step { base with phase := .busy, agenda := [.host (.memRead 0 1)] }) = some .busyOutRead := by
  decide

/-- A 4 x 4 DXT1 call at its only block, with `n` bytes of T5.1. -/
def oneBlock (n : Nat) : State := { base with width := 4, height := 4, phase := .busy, stream := t51.take n }

/-- T8.1, T8.4: one block step ends the call, in DONE with eight bytes and in ERROR with seven. -/
theorem test_block_step :
    (next? (step (oneBlock 8))).map (fun t => (t.phase, t.errcode, t.cursor, t.blkX, t.blkY)) =
      some (.done, .none, 8, 0, 1) ∧
    statusAfter (step (oneBlock 7)) = some (.error, .io) := by
  decide

/-- R93, R262: the turn of the engine that WAIT puts on the agenda is a block step, in a call of each format and on a short
read; the host's WAIT stays. -/
theorem test_engine_turn_in_wait :
    (next? (step { oneBlock 8 with agenda := [.engine, .host .wait] })).map (fun t => (t.phase, t.cursor, t.blkY, t.agenda)) =
      some (.done, 8, 1, [.host .wait]) ∧
    (next? (step { oneBlock 8 with cmd := 1, stream := t61, agenda := [.engine, .host .wait] })).map
      (fun t => (t.phase, t.cursor, t.blkY, t.agenda)) = some (.done, 16, 1, [.host .wait]) ∧
    (next? (step { oneBlock 7 with agenda := [.engine, .host .wait] })).map (fun t => (t.phase, t.errcode, t.agenda)) =
      some (.error, .io, [.host .wait]) := by
  decide

/-- P1, row 0, in one step: the bytes of T5.2 in OUT. -/
theorem test_block_step_out :
    (next? (step { oneBlock 0 with stream := [0xE0, 0x07, 0xFF, 0xFF, 0x1B, 0x1B, 0x1B, 0x1B] })).map
      (fun t => t.out.readBytes 0 16) =
      some [0, 0, 0, 0, 0x7F, 0xFF, 0x7F, 0xFF, 0xFF, 0xFF, 0xFF, 0xFF, 0, 0xFF, 0, 0xFF] := by
  decide

/-- R94: DECODE.DXT5 -1, 4 as host actions. -/
theorem test_decode_pseudo :
    decodeDxt5Program (-1) 4 = [.host (.write 0x04 32 0xFFFFFFFF), .host (.write 0x08 32 4), .host (.write 0x00 32 0x11),
      .host .wait] := by
  decide

/-- R268: DECODE_IMAGE of a 1 x 1 image, with enough bytes and with too few. -/
theorem test_decode_image :
    (match decodeImage 0 .le 1 1 t51 with | .ok out => out | .error _ => []) = [255, 0, 0, 255] ∧
    (match decodeImage 1 .le 1 1 t51 with | .ok _ => false | .error e => e == .ioError) = true := by
  decide

/-- Log entry 1: a table word runs as the first instruction after reset. -/
theorem test_first_instruction :
    statusAfter (step (State.reset.withFetchWord 32 0x10)) = some (.error, .arg) ∧
    (next? (step (State.reset.withFetchWord 3 0b100))).map (fun t => t.pixel 0) = some ⟨0, 0, 0, 255⟩ := by
  decide

/-! Witnesses: for each statement with hypotheses, states and operands that meet them, clause by clause. -/

/-- A next state that passes a check. -/
theorem next_of {r : Result} {p : State → Bool} (h : (next? r).any p = true) : ∃ t, r = .next t ∧ p t = true := by
  cases r with
  | next t => exact ⟨t, rfl, h⟩
  | fault _ => cases h
  | refused _ => cases h

/-- Whether an event is a table word presented by itself. -/
def isWord : Event → Bool
  | .word _ _ => true
  | .host _ => false
  | .engine => false

theorem noWords_of {s : State} (h : s.agenda.all (fun e => !isWord e) = true) : s.noWords := by
  intro f bytes hm
  have h' := List.all_eq_true.mp h _ hm
  cases h'

/-- `base` with one event on the agenda. -/
def withEvent (e : Event) : State := { base with agenda := [e] }

/-- `base` in a phase, with one event on the agenda. -/
def inPhase (p : Phase) (e : Event) : State := { withEvent e with phase := p }

/-- A call in progress at block (x, y) of a w x h DXT1 image, its cursor at `c`, eight bytes a block in `stream`. -/
def midCall (w h : Word) (x y c : Nat) (stream : List Byte) : State :=
  { base with width := w, height := h, phase := .busy, blkX := x, blkY := y, cursor := c, stream := stream }

theorem test_witness_OnlyTwoCommandWords :
    (0x10 : Word).getLsbD 4 = true ∧ (0x11 : Word).getLsbD 4 = true ∧ (0x12 : Word).getLsbD 4 = true ∧
    (0xFFFFFFFF : Word).getLsbD 4 = true := by
  decide

theorem test_witness_StepRunsDecodedInstruction :
    decoded? .dxt5Asel [0b1111, 15] = some (.dxt5A8S7 15) ∧
    (withEvent (.word .dxt5Asel [0b1111, 15])).agenda = .word .dxt5Asel [0b1111, 15] :: [] ∧
    decodeCommand 0x11 = .ok .decodeDxt5 ∧ (withEvent (wr .cmd 0x11)).agenda = wr .cmd 0x11 :: [] ∧
    (withEvent (.word .cmd [0x12, 0, 0, 0])).agenda = .word .cmd (0x12 :: 0 :: 0 :: 0 :: []) :: [] := by
  decide

/-- A state whose host waits: the turn of the engine comes first, then the rest of WAIT. -/
def inWait (s : State) : State := { s with agenda := [.engine, .host .wait] }

/-- Both block decoders, with too few bytes and with enough; ASSEMBLE then answers a next state. -/
theorem test_witness_StepRunsBlockInstructions :
    (oneBlock 7).EngineNext [] ∧ (inWait (oneBlock 7)).EngineNext [.host .wait] ∧
    (oneBlock 7).phase = .busy ∧ (inWait (oneBlock 7)).phase = .busy ∧ cmdFormat (oneBlock 7).cmd = 0 ∧
    statusAfter (exec .dxt1Block (oneBlock 7)) = some (.error, .io) ∧
    statusAfter (exec .dxt1Block (oneBlock 8)) = some (.busy, .none) ∧
    ((next? (exec .dxt1Block (oneBlock 8))).bind fun t => statusAfter (exec .assemble t)) = some (.busy, .none) ∧
    cmdFormat ({ oneBlock 8 with cmd := 1 } : State).cmd ≠ 0 ∧
    statusAfter (exec .dxt5Block { oneBlock 8 with cmd := 1 }) = some (.error, .io) ∧
    statusAfter (exec .dxt5Block { oneBlock 8 with cmd := 1, stream := t61 }) = some (.busy, .none) := by
  exact ⟨.inl ⟨rfl, rfl⟩, .inr rfl, by decide⟩

theorem test_witness_ResetFromAnyState :
    (withEvent (.host .reset)).agenda = .host .reset :: [] ∧
    (inPhase .busy (.host .reset)).agenda = .host .reset :: [] := by
  decide

theorem test_witness_RegisterReads :
    (withEvent (rd .cmd)).agenda = rd .cmd :: [] ∧ (withEvent (rd .width)).agenda = rd .width :: [] ∧
    (withEvent (rd .height)).agenda = rd .height :: [] ∧ (inPhase .error (rd .status)).agenda = rd .status :: [] ∧
    (inPhase .busy (rd .errcode)).agenda = rd .errcode :: [] := by
  decide

theorem test_witness_DimensionsReadBackAsWritten :
    ({ base with agenda := [wr .width 0x80000000, rd .width] } : State).agenda = wr .width 0x80000000 :: rd .width :: [] ∧
    ({ base with agenda := [wr .height 0, rd .height] } : State).agenda = wr .height 0 :: rd .height :: [] ∧
    base.phase ≠ .busy := by
  decide

theorem test_witness_CmdWriteWithoutStart :
    base.phase ≠ .busy ∧ (0xFFFFFFEF : Word).getLsbD 4 = false ∧
    ({ base with agenda := [wr .cmd 0xFFFFFFEF, rd .cmd] } : State).agenda = wr .cmd 0xFFFFFFEF :: rd .cmd :: [] := by
  decide

theorem test_witness_RefusedHostActions :
    (∀ r : HostReg, r.offset ≠ 0x14 ∧ r.offset ≠ 0x01) ∧
    (withEvent (.host (.read 0x14 32))).agenda = .host (.read 0x14 32) :: [] ∧
    (withEvent (.host (.write 0x01 32 0))).agenda = .host (.write 0x01 32 0) :: [] ∧
    (withEvent (.host (.read 0x00 31))).agenda = .host (.read 0x00 31) :: [] ∧ (31 : Nat) ≠ 32 ∧
    (withEvent (.host (.write 0x00 33 0))).agenda = .host (.write 0x00 33 0) :: [] ∧ (33 : Nat) ≠ 32 ∧
    (withEvent (wr .status 0)).agenda = wr .status 0 :: [] ∧ (withEvent (wr .errcode 0)).agenda = wr .errcode 0 :: [] ∧
    (inPhase .busy (wr .height 4)).phase = .busy ∧ (inPhase .busy (wr .height 4)).agenda = wr .height 4 :: [] := by
  refine ⟨fun r => by cases r <;> decide, by decide⟩

/-- One byte past the end, and an exact fit, in DONE and in IDLE. -/
theorem test_witness_OutReads :
    (inPhase .busy (.host (.memRead 0 1))).phase = .busy ∧
    (inPhase .busy (.host (.memRead 0 1))).agenda = .host (.memRead 0 1) :: [] ∧
    base.phase ≠ .busy ∧ base.out.capacity < 4095 + 2 ∧ 4095 + 1 ≤ base.out.capacity ∧
    (inPhase .done (.host (.memRead 4095 1))).phase = .done ∧
    (inPhase .done (.host (.memRead 4095 1))).agenda = .host (.memRead 4095 1) :: [] ∧
    (inPhase .idle (.host (.memRead 4095 2))).agenda = .host (.memRead 4095 2) :: [] := by
  decide

theorem test_witness_WaitPollsStatus :
    [Phase.idle, .busy, .done, .error].all (fun p => (inPhase p (.host .wait)).phase = p ∧
      (inPhase p (.host .wait)).agenda = .host .wait :: []) = true := by
  decide

/-- With a stream already presented, in IDLE and in a call. -/
theorem test_witness_StreamIsPresented :
    ({ withEvent (.host (.stream t51)) with presented := t61 } : State).agenda = .host (.stream t51) :: [] ∧
    ({ inPhase .busy (.host (.stream t51)) with presented := t61 } : State).agenda = .host (.stream t51) :: [] := by
  decide

theorem test_witness_EngineRestsUnlessBusy :
    base.phase ≠ .busy ∧ base.agenda = [] ∧ (inPhase .error .engine).phase ≠ .busy ∧
    (inPhase .error .engine).agenda = .engine :: [] := by
  decide

/-- 4 x 4 in OUT of 64 bytes and 1 x 1 in OUT of 4: both fit exactly. -/
theorem test_witness_CommandsBeginACall :
    (withCapacity 64).phase ≠ .busy ∧ 0 < (4 : Word).toInt ∧ 4 * (4 : Word).toInt * (4 : Word).toInt ≤ (withCapacity 64).out.capacity ∧
    0 < (1 : Word).toInt ∧ 4 * (1 : Word).toInt * (1 : Word).toInt ≤ (withCapacity 4).out.capacity := by
  decide

/-- One state for each branch: a reserved word, dimensions 0, -1 and -2^31, one byte short, and an exact fit. -/
theorem test_witness_StartErrorPriority :
    ([(4, 4, 0x12, 64), (4, 4, 0x14, 64), (4, 4, 0x30, 64), (0, 4, 0x10, 64), (4, 0xFFFFFFFF, 0x11, 64),
      (0x80000000, 4, 0x10, 64), (4, 4, 0x10, 63), (4, 4, 0x11, 64)] : List (Word × Word × Word × Nat)).map
      (fun c => statusAfter (step { startOf c.1 c.2.1 c.2.2.1 with out := ⟨c.2.2.2, 0, []⟩ })) =
      [some (.error, .cmd), some (.error, .cmd), some (.error, .cmd), some (.error, .arg), some (.error, .arg),
        some (.error, .arg), some (.error, .buf), some (.busy, .none)] ∧
    (startOf 4 4 0x12).agenda = wr .cmd 0x12 :: [] ∧ (startOf 4 4 0x12).phase ≠ .busy ∧ (0x12 : Word).getLsbD 4 = true := by
  decide

theorem test_witness_StartErrorAction :
    (startOf 0 4 0x10).agenda = wr .cmd 0x10 :: [] ∧ (0x10 : Word).getLsbD 4 = true ∧
    ∃ t, step (startOf 0 4 0x10) = .next t ∧ decide (t.phase = .error) = true :=
  ⟨by decide, by decide, next_of (by decide)⟩

theorem test_witness_CommandsRefusedWhileBusy : (inPhase .busy (wr .cmd 0x10)).phase = .busy := by decide

theorem test_witness_Avg2Result : (7 : Byte) = 7 ∧ avg2 7 7 = 7 := by decide

theorem test_witness_Weighted3Result : (255 : Byte) = 255 ∧ weighted3 255 255 = 255 := by decide

theorem test_witness_Ramp7Result : 2 ≤ (2 : BitVec 3).toNat ∧ 2 ≤ (7 : BitVec 3).toNat := by decide

theorem test_witness_Ramp5Result :
    2 ≤ (2 : BitVec 3).toNat ∧ (2 : BitVec 3).toNat ≤ 5 ∧ 2 ≤ (5 : BitVec 3).toNat ∧ (5 : BitVec 3).toNat ≤ 5 := by
  decide

theorem test_witness_RampOutsideDomain :
    (0 : BitVec 3).toNat < 2 ∧ (1 : BitVec 3).toNat < 2 ∧ 5 < (6 : BitVec 3).toNat ∧ 5 < (7 : BitVec 3).toNat := by
  decide

theorem test_witness_Dxt1OpaqueSelectors :
    (withBlock redBlue).blk.c1raw.toNat < (withBlock redBlue).blk.c0raw.toNat ∧
    (withBlock ⟨0, 0, 0, 1, 0, 0⟩).blk.c1raw.toNat < (withBlock ⟨0, 0, 0, 1, 0, 0⟩).blk.c0raw.toNat := by
  decide

theorem test_witness_TransparentPixelIsWritten :
    (atBlock 4 4 0 0).outBytes ≤ (atBlock 4 4 0 0).out.capacity ∧ (atBlock 4 4 0 0).inBounds 15 = true := by
  decide

theorem test_witness_BlockPixelsAreSelectorResults :
    (oneBlock 8).cursor + 8 ≤ (oneBlock 8).stream.length ∧
    ({ base with stream := t61 } : State).cursor + 16 ≤ ({ base with stream := t61 } : State).stream.length ∧
    (∃ t, exec .dxt1Block (oneBlock 8) = .next t ∧ t.opaque4 = true) ∧
    ∃ t, exec .dxt5Block { base with stream := t61 } = .next t ∧ t.alpha8 = true :=
  ⟨by decide, by decide, next_of (by decide), next_of (by decide)⟩

/-- One more byte than remain, and exactly as many. -/
theorem test_witness_StreamReadOrIoError :
    1 ≤ 9 ∧ (oneBlock 8).stream.length - (oneBlock 8).cursor < 9 ∧ 1 ≤ 8 ∧
    8 ≤ (oneBlock 8).stream.length - (oneBlock 8).cursor := by
  decide

/-- The 64-bit word of T5.1 and the 128-bit word of T6.1. -/
theorem test_witness_LittleEndianWideWord :
    (∀ j < 8, ({ base with stream := t51 } : State).stream[j]? = some ((0xE4E4E4E4001FF800 : BitVec 64).extractLsb' (8 * j) 8)) ∧
    (∀ j < 16, ({ base with stream := t61 } : State).stream[j]? =
      some ((0xE4E4E4E4001FF800FAC688FAC68800FF : BitVec 128).extractLsb' (8 * j) 8)) ∧
    base.fieldOrder = .le ∧ base.cursor = 0 := by
  decide

/-- The last whole block and one byte too few; all four selectors stand in CIDX, in both modes. -/
theorem test_witness_Dxt1BlockDecodes :
    (oneBlock 8).cursor + 8 ≤ (oneBlock 8).stream.length ∧ (oneBlock 7).stream.length < (oneBlock 7).cursor + 8 ∧
    [0, 1, 2, 3].map (fun i => (0xE4E4E4E4 : BitVec 32).toNat / 4 ^ i % 4) = [0, 1, 2, 3] ∧
    (next? (exec .dxt1Block (oneBlock 8))).map (fun t => (t.blk.cidx, t.opaque4)) = some (0xE4E4E4E4, true) ∧
    (next? (exec .dxt1Block { oneBlock 8 with fieldOrder := .be })).map (fun t => (t.blk.cidx, t.opaque4)) =
      some (0xE4E4E4E4, false) := by
  decide

/-- The last whole block and one byte too few; all eight alpha selectors stand in AMASK, in both modes. -/
theorem test_witness_Dxt5BlockDecodes :
    ({ base with stream := t61 } : State).cursor + 16 ≤ t61.length ∧ (t61.take 15).length < base.cursor + 16 ∧
    [0, 1, 2, 3, 4, 5, 6, 7].map (fun i => (0xFAC688FAC688 : BitVec 48).toNat / 8 ^ i % 8) = [0, 1, 2, 3, 4, 5, 6, 7] ∧
    [0, 1, 2, 3].map (fun i => (0xE4E4E4E4 : BitVec 32).toNat / 4 ^ i % 4) = [0, 1, 2, 3] ∧
    (next? (exec .dxt5Block { base with stream := t61 })).map (fun t => (t.blk.cidx, t.blk.amask, t.alpha8)) =
      some (0xE4E4E4E4, 0xFAC688FAC688, true) ∧
    (next? (exec .dxt5Block { base with stream := t62 })).map (fun t => (t.blk.amask, t.alpha8)) =
      some (0xFAC688FAC688, false) := by
  decide

/-- 6 x 5 in OUT of exactly 120 bytes, at the last block: pixel 1 is in bounds, pixel 2 is not, byte 111 is outside. -/
theorem test_witness_AssembleWritesTheBlock :
    ({ atBlock 6 5 1 1 with out := ⟨120, 0, []⟩ } : State).outBytes ≤ 120 ∧
    (4 * 1 + (1 : PixelIx).val % 4 < (atBlock 6 5 1 1).widthPx ∧ 4 * 1 + (1 : PixelIx).val / 4 < (atBlock 6 5 1 1).heightPx) ∧
    ¬ 4 * 1 + (2 : PixelIx).val % 4 < (atBlock 6 5 1 1).widthPx ∧
    (∀ i : PixelIx, 4 * 1 + i.val % 4 < (atBlock 6 5 1 1).widthPx → 4 * 1 + i.val / 4 < (atBlock 6 5 1 1).heightPx →
      111 < 4 * ((4 * 1 + i.val / 4) * (atBlock 6 5 1 1).widthPx + (4 * 1 + i.val % 4)) ∨
      4 * ((4 * 1 + i.val / 4) * (atBlock 6 5 1 1).widthPx + (4 * 1 + i.val % 4)) + 4 ≤ 111) := by
  decide

/-- A byte that changes: OUT[112] reads 0 before and 1 after. -/
theorem test_witness_NoWriteOutsideTheImage :
    ∃ t, exec .assemble { atBlock 6 5 1 1 with out := ⟨4096, 0, [(112, 0)]⟩ } = .next t ∧
      decide (t.out.read 112 ≠ ({ atBlock 6 5 1 1 with out := ⟨4096, 0, [(112, 0)]⟩ } : State).out.read 112) = true :=
  next_of (by decide)

theorem test_witness_BlocksWriteDisjointAddresses :
    (atBlock 6 5 1 1).width = (atBlock 6 5 0 1).width ∧ (atBlock 6 5 1 1).height = (atBlock 6 5 0 1).height ∧
    (atBlock 6 5 1 1).blkX ≠ (atBlock 6 5 0 1).blkX ∧ (112, 1) ∈ (atBlock 6 5 1 1).cellsOfBlock ∧
    (108, 1) ∈ (atBlock 6 5 0 1).cellsOfBlock := by
  decide

/-- The corner block of the 6 x 5 image: two columns and one row, with the bytes of one block left. -/
theorem test_witness_EdgeBlockRectangle :
    (midCall 6 5 1 1 0 t51).blkX < (midCall 6 5 1 1 0 t51).bxCnt ∧ (midCall 6 5 1 1 0 t51).blkY < (midCall 6 5 1 1 0 t51).byCnt ∧
    min 4 ((midCall 6 5 1 1 0 t51).widthPx - 4 * 1) < 4 ∧ min 4 ((midCall 6 5 1 1 0 t51).heightPx - 4 * 1) < 4 ∧
    (midCall 6 5 1 1 0 t51).cursor + (midCall 6 5 1 1 0 t51).blockBytes ≤ t51.length := by
  decide

/-- The arguments of `midCall` are legal. -/
theorem legalCall_of {s : State} (h : decide (0 < s.widthInt) && decide (0 < s.heightInt) && decide (s.outBytes ≤ s.out.capacity) &&
    decide (cmdFormat s.cmd = 0 ∨ cmdFormat s.cmd = 1) = true) : s.LegalCall := by
  simp only [Bool.and_eq_true, decide_eq_true_eq] at h
  exact ⟨h.1.1.1, h.1.1.2, h.1.2, h.2⟩

theorem atBlock_of {s : State} (h : decide (s.blkX < s.bxCnt) && decide (s.blkY < s.byCnt) &&
    decide (s.cursor = (s.blkY * s.bxCnt + s.blkX) * s.blockBytes) = true) : s.AtBlock := by
  simp only [Bool.and_eq_true, decide_eq_true_eq] at h
  exact ⟨h.1.1, h.1.2, h.2⟩

/-- `n` times the block of T5.1. -/
def blocks (n : Nat) : List Byte := (List.replicate n t51).flatten

/-- A block with another in its row, the end of a row, and the last block of the 6 x 5 image. -/
theorem test_witness_BlockStepDecodesABlock :
    ((midCall 6 5 0 0 0 (blocks 4)).LegalCall ∧ (midCall 6 5 0 0 0 (blocks 4)).AtBlock) ∧
    ((midCall 6 5 1 0 8 (blocks 4)).LegalCall ∧ (midCall 6 5 1 0 8 (blocks 4)).AtBlock) ∧
    ((midCall 6 5 1 1 24 (blocks 4)).LegalCall ∧ (midCall 6 5 1 1 24 (blocks 4)).AtBlock) ∧
    (midCall 6 5 0 0 0 (blocks 4)).blkX + 1 < (midCall 6 5 0 0 0 (blocks 4)).bxCnt ∧
    (midCall 6 5 1 0 8 (blocks 4)).blkX + 1 = (midCall 6 5 1 0 8 (blocks 4)).bxCnt ∧
    (midCall 6 5 1 1 24 (blocks 4)).cursor + (midCall 6 5 1 1 24 (blocks 4)).blockBytes ≤
      (midCall 6 5 1 1 24 (blocks 4)).stream.length ∧
    (midCall 6 5 1 1 24 (blocks 4)).phase = .busy ∧ (midCall 6 5 1 1 24 (blocks 4)).EngineNext [] ∧
    (inWait (midCall 6 5 1 1 24 (blocks 4))).EngineNext [.host .wait] ∧
    (inWait (midCall 6 5 1 1 24 (blocks 4))).LegalCall ∧ (inWait (midCall 6 5 1 1 24 (blocks 4))).AtBlock :=
  ⟨⟨legalCall_of (by decide), atBlock_of (by decide)⟩, ⟨legalCall_of (by decide), atBlock_of (by decide)⟩,
    ⟨legalCall_of (by decide), atBlock_of (by decide)⟩, by decide, by decide, by decide, by decide, .inl ⟨rfl, rfl⟩, .inr rfl,
    legalCall_of (by decide), atBlock_of (by decide)⟩

theorem test_witness_BlockStepShortRead :
    (oneBlock 7).EngineNext [] ∧ (inWait (oneBlock 7)).EngineNext [.host .wait] ∧ (oneBlock 7).phase = .busy ∧
    (oneBlock 7).stream.length < (oneBlock 7).cursor + (oneBlock 7).blockBytes :=
  ⟨.inl ⟨rfl, rfl⟩, .inr rfl, by decide⟩

/-- A block step inside a call, and its next state. -/
theorem test_witness_StepKeepsCallInvariant :
    (midCall 6 5 1 0 8 (blocks 4)).noWords ∧ (midCall 6 5 1 0 8 (blocks 4)).CallInv ∧
    ∃ t, step (midCall 6 5 1 0 8 (blocks 4)) = .next t ∧ decide (t.phase = .busy) = true :=
  ⟨noWords_of (by decide), fun _ => ⟨legalCall_of (by decide), atBlock_of (by decide)⟩, next_of (by decide)⟩

theorem test_witness_StepKeepsCodeInvariant :
    (oneBlock 7).CodeInv ∧ ∃ t, step (oneBlock 7) = .next t ∧ decide (t.errcode = .io) = true :=
  ⟨⟨fun _ => by decide, fun _ => by decide⟩, next_of (by decide)⟩

theorem test_witness_StepKeepsOutCanonical :
    (oneBlock 8).out.wf ∧ ∃ t, step (oneBlock 8) = .next t ∧ decide (t.out.cells.length = 64) = true :=
  ⟨by decide, next_of (by decide)⟩

theorem test_witness_CallEndsAfterLastBlock :
    (oneBlock 8).noWords ∧ (oneBlock 8).CallInv ∧ (oneBlock 8).phase = .busy ∧
    ∃ t, step (oneBlock 8) = .next t ∧ decide (t.phase = .done) = true :=
  ⟨noWords_of (by decide), fun _ => ⟨legalCall_of (by decide), atBlock_of (by decide)⟩, by decide, next_of (by decide)⟩

/-- `oneBlock 8` with its call's arguments as its START read them. -/
def lastBlock : State := { oneBlock 8 with call := ⟨0, 4, 4⟩ }

/-- A call that has ended in DONE, with the host's event `e` next. -/
def ended (e : Event) : State :=
  { base with width := 4, height := 4, call := ⟨0, 4, 4⟩, phase := .done, blkY := 1, cursor := 8, agenda := [e] }

/-- R37 item 3 and R345: after a write of HEIGHT, of WIDTH, and of CMD without START in DONE, the counters still stand at
the end of the call's image, one block of 8 bytes, whatever the registers now say. -/
theorem test_end_after_host_writes :
    [wr .height 100, wr .width 100, wr .cmd 1].all (fun e => (next? (step (ended e))).any fun t =>
      t.phase = .done ∧ t.registers ≠ (ended e).registers ∧ t.blkX = 0 ∧ t.blkY = t.asCalled.byCnt ∧
      t.cursor = t.asCalled.nBlocks * t.asCalled.blockBytes ∧ t.cursor = 8) = true := by
  decide

/-- A host write in DONE, and the block step that leads there. -/
theorem test_witness_EndStateSurvivesHostWrites :
    ((ended (wr .height 100)).noWords ∧ (ended (wr .height 100)).CallInv ∧ (ended (wr .height 100)).EndInv ∧
      ∃ t, step (ended (wr .height 100)) = .next t ∧ decide (t.phase = .done ∧ t.height = 100) = true) ∧
    (lastBlock.noWords ∧ lastBlock.CallInv ∧ lastBlock.EndInv ∧
      ∃ t, step lastBlock = .next t ∧ decide (t.phase = .done) = true) :=
  ⟨⟨noWords_of (by decide), fun h => absurd h (by decide),
      ⟨fun h => absurd h (by decide), fun _ => ⟨by decide, by decide, by decide⟩⟩, next_of (by decide)⟩,
    ⟨noWords_of (by decide), fun _ => ⟨legalCall_of (by decide), atBlock_of (by decide)⟩,
      ⟨fun _ => by decide, fun h => absurd h (by decide)⟩, next_of (by decide)⟩⟩

theorem test_witness_StepKeepsParameters :
    ∃ t, step (oneBlock 8) = .next t ∧ decide (t.out.capacity = 4096) = true := next_of (by decide)

/-- One state for each way. -/
theorem test_witness_StateTransitions :
    (inPhase .busy (rd .status)).noWords ∧ statusAfter (step (inPhase .busy (rd .status))) = some (.busy, .none) ∧
    (inPhase .busy (.host .reset)).noWords ∧ statusAfter (step (inPhase .busy (.host .reset))) = some (.idle, .none) ∧
    (startOf 4 4 0x10).noWords ∧ statusAfter (step (startOf 4 4 0x10)) = some (.busy, .none) ∧
    (startOf 4 4 0x12).noWords ∧ statusAfter (step (startOf 4 4 0x12)) = some (.error, .cmd) ∧
    (oneBlock 8).noWords ∧ statusAfter (step (oneBlock 8)) = some (.done, .none) ∧
    (oneBlock 7).noWords ∧ statusAfter (step (oneBlock 7)) = some (.error, .io) :=
  ⟨noWords_of (by decide), by decide, noWords_of (by decide), by decide, noWords_of (by decide), by decide,
    noWords_of (by decide), by decide, noWords_of (by decide), by decide, noWords_of (by decide), by decide⟩

theorem test_witness_ArgumentsFixedDuringCall :
    (midCall 6 5 0 0 0 (blocks 4)).phase = .busy ∧
    ∃ t, step (midCall 6 5 0 0 0 (blocks 4)) = .next t ∧ decide (t.phase = .busy) = true :=
  ⟨by decide, next_of (by decide)⟩

/-- A block step, an error at START, and reset: each leaves another OUT. -/
theorem test_witness_OnlyTheDecoderWritesOut :
    (oneBlock 8).noWords ∧ (∃ t, step (oneBlock 8) = .next t ∧ decide (t.out ≠ (oneBlock 8).out) = true) ∧
    (startOf 4 4 0x12).noWords ∧ (∃ t, step (startOf 4 4 0x12) = .next t ∧ decide (t.out ≠ (startOf 4 4 0x12).out) = true) ∧
    (0x12 : Word).getLsbD 4 = true ∧ (withEvent (.host .reset)).noWords ∧
    ∃ t, step (withEvent (.host .reset)) = .next t ∧ decide (t.out ≠ (withEvent (.host .reset)).out) = true :=
  ⟨noWords_of (by decide), next_of (by decide), noWords_of (by decide), next_of (by decide), by decide,
    noWords_of (by decide), next_of (by decide)⟩

theorem callStarted_midCall : (midCall 6 5 0 0 0 (blocks 4)).CallStarted :=
  ⟨by decide, legalCall_of (by decide), by decide, by decide, by decide, by decide⟩

/-- Before the first block and after the last. -/
theorem test_witness_BlockOrder :
    (midCall 6 5 0 0 0 (blocks 4)).CallStarted ∧ 0 ≤ (midCall 6 5 0 0 0 (blocks 4)).nBlocks ∧
    (midCall 6 5 0 0 0 (blocks 4)).nBlocks = 4 ∧
    4 * (midCall 6 5 0 0 0 (blocks 4)).blockBytes ≤ (midCall 6 5 0 0 0 (blocks 4)).stream.length :=
  ⟨callStarted_midCall, by decide⟩

/-- A 4 x 4 call with both commands, its stream and its OUT exactly as long as they must be. -/
theorem test_witness_DecodeCallProducesImage :
    ({ startOf 4 4 0x10 with out := ⟨64, 0, []⟩, presented := t51 } : State).outBytes ≤ 64 ∧
    (startOf 4 4 0x10).nBlocks * blockSize (cmdFormat 0x10) ≤ t51.length ∧ (startOf 4 4 0x10).agenda = [wr .cmd 0x10] ∧
    (startOf 4 4 0x11).nBlocks * blockSize (cmdFormat 0x11) ≤ t61.length ∧ (startOf 4 4 0x11).agenda = [wr .cmd 0x11] ∧
    (startOf 4 4 0x10).phase ≠ .busy ∧ 0 < (startOf 4 4 0x10).width.toInt ∧ 0 < (startOf 4 4 0x10).height.toInt ∧
    3 < (startOf 4 4 0x10).widthPx ∧ 3 < (startOf 4 4 0x10).heightPx := by
  decide

theorem test_witness_ShortStreamEndsInIoError :
    ({ startOf 4 4 0x10 with presented := t51.take 7 } : State).presented.length <
      (startOf 4 4 0x10).nBlocks * blockSize (cmdFormat 0x10) ∧
    (startOf 4 4 0x10).agenda = [wr .cmd 0x10] ∧ (startOf 4 4 0x10).phase ≠ .busy ∧ 0 < (startOf 4 4 0x10).width.toInt ∧
    0 < (startOf 4 4 0x10).height.toInt ∧ (startOf 4 4 0x10).outBytes ≤ (startOf 4 4 0x10).out.capacity := by
  decide

/-- One byte too few, and exactly enough, for the four blocks of a 6 x 5 image. -/
theorem test_witness_DecodeImageBytes :
    ((blocks 4).take 31).length < blocksAcross 6 * blocksAcross 5 * blockSize 0 ∧
    blocksAcross 6 * blocksAcross 5 * blockSize 0 ≤ (blocks 4).length := by
  decide

theorem test_witness_TrailingBytesChangeNothing :
    (midCall 6 5 0 0 0 (blocks 4)).CallStarted ∧
    (midCall 6 5 0 0 0 (blocks 4)).nBlocks * (midCall 6 5 0 0 0 (blocks 4)).blockBytes ≤
      (midCall 6 5 0 0 0 (blocks 4)).stream.length ∧ 4 ≤ (midCall 6 5 0 0 0 (blocks 4)).nBlocks :=
  ⟨callStarted_midCall, by decide⟩

theorem test_witness_ResultIndependentOfOldOut :
    (midCall 6 5 0 0 0 (blocks 4)).CallStarted ∧
    (midCall 6 5 0 0 0 (blocks 4)).nBlocks * (midCall 6 5 0 0 0 (blocks 4)).blockBytes ≤
      (midCall 6 5 0 0 0 (blocks 4)).stream.length ∧
    (⟨4096, 0, [(7, 9)]⟩ : Memory).capacity = (midCall 6 5 0 0 0 (blocks 4)).out.capacity :=
  ⟨callStarted_midCall, by decide⟩

end Sys2Proof.Tests
end

/-! The parameters of 00_scope.md R7: each operation of the machine keeps OUT_CAPACITY and FIELD_ORDER. -/

namespace Sys2Proof.Machine

@[simp] theorem forget_capacity (m : Memory) : m.forget.capacity = m.capacity := rfl

/-- `t` has the OUT_CAPACITY and the FIELD_ORDER of `s` (00_scope.md R7). -/
def SameParameters (s t : State) : Prop := t.out.capacity = s.out.capacity ∧ t.fieldOrder = s.fieldOrder

theorem sameParameters_raise (s : State) (e : HwError) : SameParameters s (s.raise e) := ⟨by simp, by simp⟩

/-- Taking an event off the agenda touches no parameter. -/
theorem sameParameters_of_agenda {s t : State} {rest : List Event} (h : SameParameters { s with agenda := rest } t) :
    SameParameters s t := h

/-- START raises an error, which makes OUT undefined, or begins the call, which leaves OUT alone. -/
theorem start_sameParameters {w : Word} {s t : State} (h : start w s = .next t) : SameParameters s t := by
  obtain ⟨-, ⟨e, -, rfl⟩ | ⟨-, rfl⟩⟩ := start_cases h
  · exact sameParameters_raise (s.acceptStart w) e
  · exact ⟨by simp, by simp⟩

theorem writeCmd_sameParameters {w : Word} {s t : State} (h : writeCmd w s = .next t) : SameParameters s t := by
  obtain ⟨-, ⟨-, rfl⟩ | ⟨-, hstart⟩⟩ := writeCmd_cases h
  · exact ⟨rfl, rfl⟩
  · exact start_sameParameters hstart

/-- Also a reset, which leaves OUT with any value (10_state.md R36), keeps the parameters (log entry 7). -/
theorem hostAct_sameParameters {a : HostAction} {s t : State} (h : hostAct a s = .next t) : SameParameters s t := by
  obtain ⟨w, -, hcmd⟩ | ⟨v, -, -, rfl⟩ | ⟨v, -, -, rfl⟩ | ⟨bytes, -, rfl⟩ | ⟨r, rfl⟩ | ⟨r, rfl⟩ | ⟨-, rfl⟩ :=
    hostAct_cases h
  case inl => exact writeCmd_sameParameters hcmd
  all_goals exact ⟨rfl, rfl⟩

/-- Of the rows of the opcode table only START, an IoError and ASSEMBLE touch OUT, and none resizes it. -/
theorem exec_sameParameters {i : Instr} {s t : State} (h : exec i s = .next t) : SameParameters s t := by
  obtain ⟨w, hstart⟩ | ⟨p, rfl⟩ | ⟨c, v, rfl⟩ | ⟨b, o, a, p, n, rfl⟩ | rfl | hasm := exec_effect h
  · exact start_sameParameters hstart
  · exact ⟨rfl, rfl⟩
  · exact ⟨rfl, rfl⟩
  · exact ⟨rfl, rfl⟩
  · exact sameParameters_raise s .ioError
  · obtain ⟨rfl, -⟩ := assemble_ok hasm
    exact ⟨rfl, rfl⟩

/-- The engine rests, runs out of stream, or decodes a block. -/
theorem engineTurn_sameParameters {s t : State} (h : engineTurn s = .next t) : SameParameters s t := by
  obtain ⟨-, rfl⟩ | ⟨hbusy, hblock⟩ := engineTurn_cases h
  · exact ⟨rfl, rfl⟩
  · obtain ⟨-, rfl⟩ | ⟨-, rfl, -⟩ := blockStep_cases hbusy hblock
    · exact sameParameters_raise s .ioError
    · exact ⟨by simp, by simp⟩

/-- Each kind of step keeps the parameters because its operation does, run with the event off the agenda. -/
theorem step_sameParameters {s t : State} (h : step s = .next t) : SameParameters s t := by
  obtain ⟨-, hengine⟩ | ⟨rest, -, hengine⟩ | ⟨a, rest, -, hhost⟩ | ⟨f, bytes, rest, -, ⟨i, hexec⟩ | ⟨w, hcmd⟩⟩ :=
    step_cases h
  · exact engineTurn_sameParameters hengine
  · exact sameParameters_of_agenda (engineTurn_sameParameters hengine)
  · exact sameParameters_of_agenda (hostAct_sameParameters hhost)
  · exact sameParameters_of_agenda (exec_sameParameters hexec)
  · exact sameParameters_of_agenda (writeCmd_sameParameters hcmd)

/-- Settles O50: every kind of step keeps both parameters (`step_sameParameters`). -/
theorem stepKeepsParameters : Obligations.StepKeepsParameters := fun _ _ => step_sameParameters

end Sys2Proof.Machine

/-! The effect of a step, said in two ways. For any machine: what a step can do to STATE, ERRCODE and OUT
(`StatusEffect`). For a machine that only the spec's two agents drive: the whole next state (`AgentStep`). The
invariants of 10_state.md R34 and R37 follow from these case by case. -/

namespace Sys2Proof.Machine

/-! Steps of the host and of an engine at rest. -/

theorem step_host {s : State} {a : HostAction} {rest : List Event} (ha : s.agenda = .host a :: rest) :
    step s = hostAct a { s with agenda := rest } := by
  simp only [step, takeTurn, ha, runEvent]

theorem step_wr {s : State} {r : HostReg} {v : Word} {rest : List Event} (ha : s.agenda = wr r v :: rest) :
    step s = hostWrite r.offset v { s with agenda := rest } := step_host ha

/-- The value of a register as the host reads it (10_state.md R22). -/
def State.regWord (s : State) : HostReg → Word
  | .cmd => clearStart s.cmd
  | .width => s.width
  | .height => s.height
  | .status => statusWord s.phase
  | .errcode => errcodeWord s.errcode

theorem readReg_offset (s : State) (r : HostReg) : s.readReg r.offset = some (s.regWord r) := by
  cases r <;> rfl

theorem readReg_of_no_register (s : State) {offset : Nat} (h : ∀ r : HostReg, r.offset ≠ offset) :
    s.readReg offset = none := by
  simp only [State.readReg, (h _).symm, if_false]

/-- A read of a register is a reply and nothing else (20_memory.md R63). -/
theorem step_rd {s : State} {r : HostReg} {rest : List Event} (ha : s.agenda = rd r :: rest) :
    step s = .next { s with agenda := rest, replies := .reg r.offset (s.regWord r) :: s.replies } := by
  rw [step_host ha]
  show hostRead r.offset _ = _
  rw [hostRead, readReg_offset]
  cases r <;> rfl

theorem hostWrite_width {s : State} (v : Word) (hb : s.phase ≠ .busy) :
    hostWrite HostReg.width.offset v s = .next { s with width := v } := if_neg hb

theorem hostWrite_height {s : State} (v : Word) (hb : s.phase ≠ .busy) :
    hostWrite HostReg.height.offset v s = .next { s with height := v } := if_neg hb

theorem hostWrite_of_no_register (s : State) (v : Word) {offset : Nat} (h : ∀ r : HostReg, r.offset ≠ offset) :
    hostWrite offset v s = .refused (.hostOffset offset) := by
  simp only [hostWrite, (h _).symm, if_false, decide_false, Bool.or_self, Bool.false_eq_true]

theorem start_of_busy {s : State} (w : Word) (hb : s.phase = .busy) : start w s = .refused .busyWrite := if_pos hb

theorem writeCmd_of_noStart {s : State} {w : Word} (hw : w.getLsbD 4 = false) (hb : s.phase ≠ .busy) :
    writeCmd w s = .next { s with cmd := w } := by
  simp only [writeCmd, decodeCommand_of_noStart hw, if_neg hb]

/-- No word is written to CMD while BUSY, a START or not (10_state.md R28). -/
theorem writeCmd_of_busy {s : State} (w : Word) (hb : s.phase = .busy) : writeCmd w s = .refused .busyWrite := by
  cases hw : w.getLsbD 4 with
  | true => rw [writeCmd_of_start s hw, start_of_busy w hb]
  | false => simp only [writeCmd, decodeCommand_of_noStart hw, if_pos hb]

theorem engineTurn_of_not_busy {s : State} (hb : s.phase ≠ .busy) : engineTurn s = .next s := if_neg hb

/-- With nothing on the agenda, no step changes a state that is not BUSY (70_reset_and_hazards.md R331). -/
theorem step_of_quiet_of_not_busy {s : State} (ha : s.agenda = []) (hb : s.phase ≠ .busy) : step s = .next s :=
  (step_of_quiet ha).trans (engineTurn_of_not_busy hb)

/-! What a step can do to STATE, ERRCODE and OUT. -/

/-- The ways in which a step, whatever it runs, can change STATE, ERRCODE and OUT: not at all, by an error
(60_exceptions.md R306), by a START or a reset, which clear ERRCODE, or by writing the bytes of a block. -/
inductive StatusEffect (s t : State) : Prop
  | kept (hphase : t.phase = s.phase) (hcode : t.errcode = s.errcode) (hout : t.out = s.out)
  | raised (e : HwError) (hphase : t.phase = .error) (hcode : t.errcode = e.code) (hout : t.out = s.out.forget)
  | cleared (hphase : t.phase ≠ .error) (hcode : t.errcode = .none) (hout : t.out = s.out ∨ t.out = s.out.forget)
  | wrote (cs : List Host.Cell) (hlt : ∀ c ∈ cs, c.1 < s.out.capacity)
      (hphase : t.phase = s.phase ∨ s.phase = .busy ∧ t.phase = .done) (hcode : t.errcode = s.errcode)
      (hout : t.out = { s.out with cells := insertCells cs s.out.cells })

theorem statusEffect_of_agenda {s t : State} {rest : List Event} (h : StatusEffect { s with agenda := rest } t) :
    StatusEffect s t := by
  cases h with
  | kept hphase hcode hout => exact .kept hphase hcode hout
  | raised e hphase hcode hout => exact .raised e hphase hcode hout
  | cleared hphase hcode hout => exact .cleared hphase hcode hout
  | wrote cs hlt hphase hcode hout => exact .wrote cs hlt hphase hcode hout

theorem start_statusEffect {w : Word} {s t : State} (h : start w s = .next t) : StatusEffect s t := by
  obtain ⟨-, ⟨e, -, rfl⟩ | ⟨-, rfl⟩⟩ := start_cases h
  · exact .raised e rfl rfl rfl
  · exact .cleared (by simp) rfl (.inl rfl)

theorem writeCmd_statusEffect {w : Word} {s t : State} (h : writeCmd w s = .next t) : StatusEffect s t := by
  obtain ⟨-, ⟨-, rfl⟩ | ⟨-, hstart⟩⟩ := writeCmd_cases h
  · exact .kept rfl rfl rfl
  · exact start_statusEffect hstart

theorem hostAct_statusEffect {a : HostAction} {s t : State} (h : hostAct a s = .next t) : StatusEffect s t := by
  obtain ⟨w, -, hcmd⟩ | ⟨v, -, -, rfl⟩ | ⟨v, -, -, rfl⟩ | ⟨bytes, -, rfl⟩ | ⟨r, rfl⟩ | ⟨r, rfl⟩ | ⟨-, rfl⟩ :=
    hostAct_cases h
  · exact writeCmd_statusEffect hcmd
  iterate 5 exact .kept rfl rfl rfl
  · exact .cleared (by simp) rfl (.inr rfl)

theorem exec_statusEffect {i : Instr} {s t : State} (h : exec i s = .next t) : StatusEffect s t := by
  obtain ⟨w, hstart⟩ | ⟨p, rfl⟩ | ⟨c, v, rfl⟩ | ⟨b, o, a, p, n, rfl⟩ | rfl | hasm := exec_effect h
  · exact start_statusEffect hstart
  iterate 3 exact .kept rfl rfl rfl
  · exact .raised .ioError rfl rfl rfl
  · obtain ⟨rfl, hlt⟩ := assemble_ok hasm
    exact .wrote s.cellsOfBlock hlt (.inl rfl) rfl rfl

@[simp] theorem nextBlock_phase (s : State) : s.nextBlock.phase = s.phase := by
  unfold State.nextBlock
  split <;> rfl

/-- A block step that decodes a block changes STATE only by ending the call (44_assembler.md R264). -/
theorem stepped_phase (s : State) : s.stepped.phase = s.phase ∨ s.stepped.phase = .done := by
  simp only [State.stepped, endBlock_phase, State.advance, State.closeCall]
  split
  · exact .inr rfl
  · exact .inl (nextBlock_phase _)

theorem engineTurn_statusEffect {s t : State} (h : engineTurn s = .next t) : StatusEffect s t := by
  obtain ⟨-, rfl⟩ | ⟨hbusy, hblock⟩ := engineTurn_cases h
  · exact .kept rfl rfl rfl
  · obtain ⟨-, rfl⟩ | ⟨-, rfl, hlt⟩ := blockStep_cases hbusy hblock
    · exact .raised .ioError rfl rfl rfl
    · exact .wrote _ hlt ((stepped_phase s).imp_right fun hdone => ⟨hbusy, hdone⟩) (by simp) (by simp [State.outAfter])

/-- What a step does to STATE, ERRCODE and OUT is what its operation does, run with the event off the agenda. -/
theorem step_statusEffect {s t : State} (h : step s = .next t) : StatusEffect s t := by
  obtain ⟨-, hengine⟩ | ⟨rest, -, hengine⟩ | ⟨a, rest, -, hhost⟩ | ⟨f, bytes, rest, -, ⟨i, hexec⟩ | ⟨w, hcmd⟩⟩ :=
    step_cases h
  · exact engineTurn_statusEffect hengine
  · exact statusEffect_of_agenda (engineTurn_statusEffect hengine)
  · exact statusEffect_of_agenda (hostAct_statusEffect hhost)
  · exact statusEffect_of_agenda (exec_statusEffect hexec)
  · exact statusEffect_of_agenda (writeCmd_statusEffect hcmd)

theorem insertCells_wf {m : Memory} {cs : List Host.Cell} (hwf : m.wf) (hlt : ∀ c ∈ cs, c.1 < m.capacity) :
    Memory.wf { m with cells := insertCells cs m.cells } := writeCells_wf (writeCells_of_lt hlt) hwf

theorem HwError.code_ne_none (e : HwError) : e.code ≠ .none := by cases e <;> decide

/-- Settles O46: OUT is kept, forgotten, or gets cells below OUT_CAPACITY in their places. -/
theorem stepKeepsOutCanonical : Obligations.StepKeepsOutCanonical := by
  intro s t hwf hstep
  cases step_statusEffect hstep with
  | kept _ _ hout => rwa [hout]
  | raised e _ _ hout => rw [hout]; exact forget_wf s.out
  | cleared _ _ hout =>
    rcases hout with hout | hout
    · rwa [hout]
    · rw [hout]; exact forget_wf s.out
  | wrote cs hlt _ _ hout => rw [hout]; exact insertCells_wf hwf hlt

/-- Settles O45: only the error rule sets CODE, together with STATE = ERROR; what leaves ERROR clears CODE. -/
theorem stepKeepsCodeInvariant : Obligations.StepKeepsCodeInvariant := by
  intro s t hinv hstep
  cases step_statusEffect hstep with
  | kept hphase hcode _ => rwa [State.CodeInv, hphase, hcode]
  | raised e hphase hcode _ =>
    exact ⟨fun hne => absurd hphase hne, fun hnone => absurd (hcode.symm.trans hnone) e.code_ne_none⟩
  | cleared hphase hcode _ => exact ⟨fun _ => hcode, fun _ => hphase⟩
  | wrote cs _ hphase hcode _ =>
    obtain hphase | ⟨hbusy, hdone⟩ := hphase
    · rwa [State.CodeInv, hphase, hcode]
    · have hnone : s.errcode = .none := hinv.mp (by simp [hbusy])
      exact ⟨fun _ => hcode.trans hnone, fun _ => by simp [hdone]⟩

/-! What a step can do in a machine that only the spec's two agents drive. -/

/-- The next event is a turn of the engine: nothing waits on the agenda, or such a turn stands first (log entry 1). -/
def State.EngineHasTurn (s : State) : Prop := s.agenda = [] ∨ ∃ rest, s.agenda = .engine :: rest

/-- The steps of a machine that only the spec's two agents drive (00_scope.md R5), with the state that each leads to.
`ev` is the agenda that the step leaves. -/
inductive AgentStep (s : State) (ev : List Event) : State → Prop
  /-- a read, WAIT, STREAM, or the turn of an engine at rest -/
  | bookkeeping (rs : List Reply) (p : List Byte) : AgentStep s ev { s with agenda := ev, replies := rs, presented := p }
  /-- a write of a register that is no START -/
  | registers (cmd width height : Word) (hb : s.phase ≠ .busy) :
      AgentStep s ev { s with agenda := ev, cmd := cmd, width := width, height := height }
  /-- a START that fails (60_exceptions.md R307) -/
  | startFails (w : Word) (e : HwError) (ha : s.agenda = wr .cmd w :: ev) (hw : w.getLsbD 4 = true)
      (hb : s.phase ≠ .busy) : AgentStep s ev ((({ s with agenda := ev } : State).acceptStart w).raise e)
  /-- a START that begins a call (44_assembler.md R260) -/
  | startBegins (w : Word) (ha : s.agenda = wr .cmd w :: ev) (hw : w.getLsbD 4 = true) (hb : s.phase ≠ .busy)
      (hok : startError w { s with agenda := ev } = none) :
      AgentStep s ev (({ s with agenda := ev } : State).acceptStart w).beginCall
  /-- a block step that finds too few bytes (60_exceptions.md R304) -/
  | shortRead (ha : s.EngineHasTurn) (hb : s.phase = .busy) :
      AgentStep s ev (({ s with agenda := ev } : State).raise .ioError).endBlock
  /-- a block step that decodes a block (44_assembler.md R262) -/
  | block (ha : s.EngineHasTurn) (hb : s.phase = .busy) : AgentStep s ev ({ s with agenda := ev } : State).stepped
  /-- a reset (70_reset_and_hazards.md R330) -/
  | reset (ha : s.agenda = .host .reset :: ev) : AgentStep s ev ({ s with agenda := ev } : State).hostReset

theorem writeCmd_agentStep {w : Word} {s t : State} {rest : List Event} (ha : s.agenda = wr .cmd w :: rest)
    (h : writeCmd w { s with agenda := rest } = .next t) : AgentStep s rest t := by
  obtain ⟨hb, ⟨-, rfl⟩ | ⟨hw, hstart⟩⟩ := writeCmd_cases h
  · exact .registers w s.width s.height hb
  · obtain ⟨-, ⟨e, -, rfl⟩ | ⟨hok, rfl⟩⟩ := start_cases hstart
    · exact .startFails w e ha hw hb
    · exact .startBegins w ha hw hb hok

/-- WAIT is the one host action that leaves more on the agenda than it found, and it puts no table word there. -/
theorem noWords_wait {s : State} {rest : List Event} (hn : ({ s with agenda := rest } : State).noWords) :
    ({ s with agenda := .engine :: .host .wait :: rest } : State).noWords := by
  intro f bytes
  simpa using hn f bytes

theorem hostAct_agentStep {a : HostAction} {s t : State} {rest : List Event} (ha : s.agenda = .host a :: rest)
    (hn : ({ s with agenda := rest } : State).noWords) (h : hostAct a { s with agenda := rest } = .next t) :
    ∃ ev, ({ s with agenda := ev } : State).noWords ∧ AgentStep s ev t := by
  obtain ⟨w, rfl, hcmd⟩ | ⟨v, -, hb, rfl⟩ | ⟨v, -, hb, rfl⟩ | ⟨bytes, -, rfl⟩ | ⟨r, rfl⟩ | ⟨r, rfl⟩ | ⟨rfl, rfl⟩ :=
    hostAct_cases h
  · exact ⟨rest, hn, writeCmd_agentStep ha hcmd⟩
  · exact ⟨rest, hn, .registers s.cmd v s.height hb⟩
  · exact ⟨rest, hn, .registers s.cmd s.width v hb⟩
  · exact ⟨rest, hn, .bookkeeping s.replies bytes⟩
  · exact ⟨rest, hn, .bookkeeping (r :: s.replies) s.presented⟩
  · exact ⟨_, noWords_wait hn, .bookkeeping (r :: s.replies) s.presented⟩
  · exact ⟨rest, hn, .reset ha⟩

theorem step_agentStep {s t : State} (hn : s.noWords) (h : step s = .next t) :
    ∃ ev, ({ s with agenda := ev } : State).noWords ∧ AgentStep s ev t := by
  obtain ⟨u, ev, rfl, hev, ha, ⟨-, rfl⟩ | ⟨hb, hblock⟩⟩ | ⟨a, rest, ha, hrest, hhost⟩ := agent_cases hn h
  · exact ⟨ev, hev, .bookkeeping s.replies s.presented⟩
  · obtain ⟨-, rfl⟩ | ⟨-, rfl, -⟩ := blockStep_cases hb hblock
    · exact ⟨ev, hev, .shortRead ha hb⟩
    · exact ⟨ev, hev, .block ha hb⟩
  · exact hostAct_agentStep ha hrest hhost

theorem AgentStep.agenda_eq {s t : State} {ev : List Event} (h : AgentStep s ev t) : t.agenda = ev := by
  cases h with
  | block => exact stepped_agenda _
  | _ => rfl

/-! The counters and CURSOR of a call. -/

/-- A decoded block moves the counters on by one in block order (44_assembler.md R251), within a row or to the next. -/
theorem stepped_index {s : State} (hb : s.phase = .busy) (hat : s.AtBlock) :
    s.stepped.blkY * s.bxCnt + s.stepped.blkX = s.blkY * s.bxCnt + s.blkX + 1 := by
  by_cases hx : s.blkX + 1 = s.bxCnt
  · obtain ⟨ex, ey, -⟩ := stepped_rowEnd hb hx
    rw [ex, ey, nextBlock_index hx]
  · obtain ⟨ex, ey, -⟩ := stepped_within hb (by have := hat.x_lt; omega) hat.y_lt
    rw [ex, ey, Nat.add_assoc]

/-- CURSOR follows the counters, also past the last block (10_state.md R37 items 2 and 3). -/
theorem stepped_cursor_eq {s : State} (hb : s.phase = .busy) (hat : s.AtBlock) :
    s.stepped.cursor = (s.stepped.blkY * s.bxCnt + s.stepped.blkX) * s.blockBytes := by
  rw [stepped_index hb hat, stepped_cursor, hat.cursor_eq, Nat.add_mul _ 1, Nat.one_mul]

/-- A decoded block that is not the last leaves the call at a block of the grid (10_state.md R30). -/
theorem stepped_atBlock {s : State} (hb : s.phase = .busy) (hat : s.AtBlock) (hb' : s.stepped.phase = .busy) :
    s.stepped.AtBlock := by
  have hgrid : s.stepped.blkX < s.bxCnt ∧ s.stepped.blkY < s.byCnt := by
    have hxlt := hat.x_lt
    have hylt := hat.y_lt
    by_cases hx : s.blkX + 1 = s.bxCnt
    · obtain ⟨ex, ey, ephase⟩ := stepped_rowEnd hb hx
      have hlast : s.blkY + 1 ≠ s.byCnt := fun hlast => by simp [ephase, hlast] at hb'
      omega
    · obtain ⟨ex, ey, -⟩ := stepped_within hb (by omega) hylt
      omega
  exact ⟨by simpa using hgrid.1, by simpa using hgrid.2, by simpa using stepped_cursor_eq hb hat⟩

/-- The decoded block that ends the call is the last of the grid (10_state.md R37 item 3). -/
theorem stepped_done {s : State} (hb : s.phase = .busy) (hat : s.AtBlock) (hdone : s.stepped.phase = .done) :
    s.stepped.blkX = 0 ∧ s.stepped.blkY = s.byCnt ∧ s.stepped.cursor = s.nBlocks * s.blockBytes := by
  by_cases hx : s.blkX + 1 = s.bxCnt
  · obtain ⟨ex, ey, ephase⟩ := stepped_rowEnd hb hx
    have hlast : s.blkY + 1 = s.byCnt := by
      by_contra hlast
      simp [ephase, hlast] at hdone
    refine ⟨ex, ey.trans hlast, ?_⟩
    rw [stepped_cursor_eq hb hat, ex, ey, hlast, Nat.add_zero, Nat.mul_comm s.byCnt]
    rfl
  · obtain ⟨-, -, ephase⟩ := stepped_within hb (by have := hat.x_lt; omega) hat.y_lt
    simp [ephase] at hdone

theorem stepped_callInv {s : State} (hb : s.phase = .busy) (hinv : s.CallInv) : s.stepped.CallInv := by
  intro hb'
  obtain ⟨hlegal, hat⟩ := hinv hb
  exact ⟨legalCall_congr hlegal (by simp) (by simp) (by simp) (by simp), stepped_atBlock hb hat hb'⟩

/-- A START that raises nothing was written with one of the two command words (30_encoding.md R81). -/
theorem word_of_startError_none {w : Word} {s : State} (hw : w.getLsbD 4 = true) (hok : startError w s = none) :
    w = 0x10 ∨ w = 0x11 := by
  obtain ⟨hres, h2, h3, -⟩ := startError_none hok
  have hnum := word_of_fields hres hw
  have hfmt : ∀ f : BitVec 2, f ≠ 2 → f ≠ 3 → f = 0 ∨ f = 1 := by decide
  refine (hfmt _ h2 h3).imp (fun hf => ?_) (fun hf => ?_) <;>
    exact BitVec.eq_of_toNat_eq (by rw [hnum, hf]; rfl)

/-- A call that has started stands at its first block. -/
theorem State.CallStarted.callInv {s : State} (h : s.CallStarted) : s.CallInv := by
  obtain ⟨hxpos, hypos⟩ := blocks_pos h.legal.width_pos h.legal.height_pos
  refine fun _ => ⟨h.legal, ?_, ?_, ?_⟩
  · rwa [h.x_eq]
  · rwa [h.y_eq]
  · rw [h.x_eq, h.y_eq, h.cursor_eq, Nat.zero_mul, Nat.zero_mul]

theorem startBegins_callInv {s : State} {w : Word} (hw : w.getLsbD 4 = true) (hok : startError w s = none) :
    (s.acceptStart w).beginCall.CallInv := by
  obtain ⟨-, -, -, hx, hy, hfits⟩ := startError_none hok
  have hsize : s.outBytes ≤ s.out.capacity := by
    have hcast := outBytes_cast hx hy
    simp only [State.widthInt, State.heightInt] at hfits
    omega
  have hstarted := callStarted_of_start (word_of_startError_none hw hok) hx hy hsize
  exact callInv_bookkeeping hstarted.callInv s.agenda s.replies []

/-- Settles O44: a START begins at the first block, a block step moves to the next, and nothing else touches a call that
goes on. -/
theorem stepKeepsCallInvariant : Obligations.StepKeepsCallInvariant := by
  intro s t hn hinv hstep
  obtain ⟨ev, hev, hagent⟩ := step_agentStep hn hstep
  refine ⟨noWords_congr hev hagent.agenda_eq, ?_⟩
  cases hagent with
  | bookkeeping rs p => exact callInv_bookkeeping hinv ev rs p
  | registers cmd width height hb => exact callInv_of_not_busy hb
  | startFails w e ha hw hb => exact callInv_of_not_busy (by simp)
  | startBegins w ha hw hb hok => exact startBegins_callInv hw hok
  | shortRead ha hb => exact callInv_of_not_busy (by simp)
  | block ha hb => exact stepped_callInv hb (callInv_bookkeeping hinv ev s.replies s.presented)
  | reset ha => exact callInv_of_not_busy (by simp)

/-- While the registers are those of the call, its last block leaves the counters at its end. -/
theorem stepped_endInv {s : State} (hb : s.phase = .busy) (hat : s.AtBlock) (hargs : s.call = s.registers) :
    s.stepped.EndInv where
  args_eq _ := by simp [hargs, State.registers]
  at_end hdone := by
    obtain ⟨hx, hy, hcursor⟩ := stepped_done hb hat hdone
    have hcalled : s.stepped.asCalled = s.stepped := asCalled_of_registers (by simp [hargs, State.registers])
    exact ⟨hx, by rw [hcalled, hy, stepped_byCnt], by rw [hcalled, hcursor, stepped_nBlocks, stepped_blockBytes]⟩

/-- A state that is neither BUSY nor DONE says nothing of a call. -/
theorem endInv_of_no_call {s : State} (hbusy : s.phase ≠ .busy) (hdone : s.phase ≠ .done) : s.EndInv :=
  ⟨fun hb => absurd hb hbusy, fun hd => absurd hd hdone⟩

/-- Settles O49: the last block step leaves the counters at the end of the call that its START recorded, and the end is
of that record, which no write to the registers changes. -/
theorem endStateSurvivesHostWrites : Obligations.EndStateSurvivesHostWrites := by
  intro s t hn hinv hend hstep
  obtain ⟨ev, -, hagent⟩ := step_agentStep hn hstep
  cases hagent with
  | bookkeeping rs p => exact ⟨hend.args_eq, fun hd => atEnd_congr (hend.at_end hd) rfl rfl rfl rfl⟩
  | registers cmd width height hb =>
    exact ⟨fun hbusy => absurd hbusy hb, fun hd => atEnd_congr (hend.at_end hd) rfl rfl rfl rfl⟩
  | startFails w e ha hw hb => exact endInv_of_no_call (by simp) (by simp)
  | startBegins w ha hw hb hok => exact ⟨fun _ => rfl, fun hd => by simp at hd⟩
  | shortRead ha hb => exact endInv_of_no_call (by simp) (by simp)
  | block ha hb => exact stepped_endInv hb (callInv_bookkeeping hinv ev s.replies s.presented hb).2 (hend.args_eq hb)
  | reset ha => exact endInv_of_no_call (by simp) (by simp)

/-- Settles O48: of the steps in BUSY only a block step leads to DONE, and only after the last block. -/
theorem callEndsAfterLastBlock : Obligations.CallEndsAfterLastBlock := by
  intro s t hn hinv hbusy hstep hdone
  obtain ⟨ev, -, hagent⟩ := step_agentStep hn hstep
  cases hagent with
  | bookkeeping rs p => exact absurd (hbusy.symm.trans hdone) (by decide)
  | registers cmd width height hb => exact absurd hbusy hb
  | startFails w e ha hw hb => exact absurd hbusy hb
  | startBegins w ha hw hb hok => exact absurd hbusy hb
  | shortRead ha hb => simp at hdone
  | block ha hb =>
    have hat := (callInv_bookkeeping hinv ev s.replies s.presented hb).2
    simpa using stepped_done (s := { s with agenda := ev }) hb hat hdone
  | reset ha => simp at hdone

/-- Settles O51: the way of each kind of step. -/
theorem stateTransitions : Obligations.StateTransitions := by
  intro s t hn hstep
  obtain ⟨ev, -, hagent⟩ := step_agentStep hn hstep
  cases hagent with
  | bookkeeping rs p => exact .inl ⟨rfl, rfl⟩
  | registers cmd width height hb => exact .inl ⟨rfl, rfl⟩
  | startFails w e ha hw hb => exact .inr (.inr (.inl ⟨hb, .inr ⟨rfl, e.code_ne_none⟩, w, ev, ha, hw⟩))
  | startBegins w ha hw hb hok => exact .inr (.inr (.inl ⟨hb, .inl ⟨rfl, rfl⟩, w, ev, ha, hw⟩))
  | shortRead ha hb => exact .inr (.inr (.inr ⟨hb, .inr ⟨rfl, rfl⟩, ha⟩))
  | block ha hb =>
    obtain hphase | hdone := stepped_phase { s with agenda := ev }
    · exact .inl ⟨hphase, stepped_errcode _⟩
    · exact .inr (.inr (.inr ⟨hb, .inl ⟨hdone, stepped_errcode _⟩, ha⟩))
  | reset ha => exact .inr (.inl ⟨rfl, rfl, ev, ha⟩)

/-- Settles O53: every other step keeps OUT as it is. -/
theorem onlyTheDecoderWritesOut : Obligations.OnlyTheDecoderWritesOut := by
  intro s t hn hstep hne
  obtain ⟨ev, -, hagent⟩ := step_agentStep hn hstep
  cases hagent with
  | bookkeeping rs p => exact absurd rfl hne
  | registers cmd width height hb => exact absurd rfl hne
  | startFails w e ha hw hb => exact .inr (.inl ⟨rfl, w, ev, ha, hw⟩)
  | startBegins w ha hw hb hok => exact absurd rfl hne
  | shortRead ha hb => exact .inl ⟨hb, ha⟩
  | block ha hb => exact .inl ⟨hb, ha⟩
  | reset ha => exact .inr (.inr ⟨rfl, ev, ha⟩)

/-! The host's registers. -/

/-- Settles O6: the fields of `hostReset`, after which the engine rests. -/
theorem resetFromAnyState : Obligations.ResetFromAnyState := by
  intro s rest ha
  exact ⟨_, step_host ha, rfl, rfl, rfl, rfl, rfl, rfl, rfl, rfl, rfl, rfl, rfl, rfl, rfl,
    step_of_quiet_of_not_busy rfl (by simp)⟩

/-- Settles O7: the value is `State.regWord`, whose bits are read off register by register. -/
theorem registerReads : Obligations.RegisterReads := by
  intro s r rest ha
  refine ⟨s.regWord r, step_rd ha, ?_, ?_, ?_, ?_, ?_⟩
  · rintro rfl
    exact getLsbD_clearStart s.cmd
  · rintro rfl
    rfl
  · rintro rfl
    rfl
  · rintro rfl
    show (statusWord s.phase).toNat = _
    cases s.phase <;> rfl
  · rintro rfl
    show (errcodeWord s.errcode).toNat = _
    cases s.errcode <;> rfl

/-- Settles O8: the write changes its register alone, and the read that follows returns it. -/
theorem dimensionsReadBackAsWritten : Obligations.DimensionsReadBackAsWritten := by
  intro s v rest hb
  refine ⟨fun ha => ⟨_, ?_, rfl, step_rd (r := .width) rfl⟩, fun ha => ⟨_, ?_, rfl, step_rd (r := .height) rfl⟩⟩
  · exact (step_wr ha).trans (hostWrite_width v hb)
  · exact (step_wr ha).trans (hostWrite_height v hb)

/-- Settles O9: a word without START is no command, and reading START as 0 does not change it. -/
theorem cmdWriteWithoutStart : Obligations.CmdWriteWithoutStart := by
  intro s w rest hb hw ha
  refine ⟨_, (step_wr ha).trans (writeCmd_of_noStart hw hb), rfl, ?_⟩
  rw [step_rd rfl, State.regWord, clearStart_of_noStart hw]
  rfl

/-- Settles O10, kind by kind. -/
theorem refusedHostActions : Obligations.RefusedHostActions := by
  intro s rest offset width v
  refine ⟨?badRead, ?badWrite, ?narrowRead, ?narrowWrite, ?status, ?errcode, ?busy⟩
  case badRead =>
    rintro ha rfl hno
    rw [step_host ha]
    show hostRead offset _ = _
    simp only [hostRead, readReg_of_no_register _ hno]
  case badWrite =>
    rintro ha rfl hno
    exact (step_host ha).trans (hostWrite_of_no_register _ v hno)
  case narrowRead => exact fun ha hwidth => (step_host ha).trans (if_neg hwidth)
  case narrowWrite => exact fun ha hwidth => (step_host ha).trans (if_neg hwidth)
  case status => exact fun ha => step_wr ha
  case errcode => exact fun ha => step_wr ha
  case busy =>
    rintro hb r (rfl | rfl | rfl) ha
    · exact (step_wr ha).trans (writeCmd_of_busy v hb)
    · exact (step_wr ha).trans (if_pos hb)
    · exact (step_wr ha).trans (if_pos hb)

/-- Settles O17: both commands are a START, which a busy decoder refuses. -/
theorem commandsRefusedWhileBusy : Obligations.CommandsRefusedWhileBusy :=
  fun _ hb => ⟨start_of_busy _ hb, start_of_busy _ hb⟩

/-- Settles O47: after reset nothing waits, no call goes on or has ended, and OUT lists no cell. -/
theorem resetMeetsInvariants : Obligations.ResetMeetsInvariants :=
  ⟨fun _ _ => List.not_mem_nil, callInv_of_not_busy (by decide), endInv_of_no_call (by decide) (by decide),
    ⟨fun _ => rfl, fun _ => by decide⟩, reset_out_wf, Nat.le_add_right 4 Config.spareCapacity⟩

end Sys2Proof.Machine

/-! The memory of 20_memory.md: StreamRead and host reads of OUT, the value of a field in both byte orders, and which
bytes of the stream a call depends on. -/

namespace Sys2Proof.Machine

/-! StreamRead and MemRead. -/

/-- Settles O33: both closed forms of StreamRead, the bytes read off the stream one by one. -/
theorem streamReadOrIoError : Obligations.StreamReadOrIoError := by
  intro s n hn
  refine ⟨fun hshort => streamRead_error hn (by omega),
    fun hleft => ⟨_, streamRead_ok (by omega), ?length, ?bytes⟩⟩
  case length =>
    rw [List.length_take, List.length_drop]
    omega
  case bytes =>
    intro j hj
    rw [List.getElem?_take_of_lt hj, List.getElem?_drop]

theorem length_hostOutBytes (s : State) (addr n : Nat) : (hostOutBytes s addr n).length = n := by
  unfold hostOutBytes
  split <;> exact length_readBytes _ addr n

theorem getElem?_hostOutBytes_of_done {s : State} {n j : Nat} (addr : Nat) (hdone : s.phase = .done) (hj : j < n) :
    (hostOutBytes s addr n)[j]? = some (s.out.read (addr + j)) := by
  rw [hostOutBytes, if_pos hdone, getElem?_readBytes _ _ _ _ hj]

theorem hostMemRead_of_busy {s : State} (addr n : Nat) (hb : s.phase = .busy) :
    hostMemRead addr n s = .refused .busyOutRead := if_pos hb

theorem hostMemRead_past_end {s : State} {addr n : Nat} (hb : s.phase ≠ .busy) (hn : 1 ≤ n)
    (hend : s.out.capacity < addr + n) : hostMemRead addr n s = .refused .outReadPastEnd := by
  rw [hostMemRead, if_neg hb, if_neg (by omega), if_pos hend]

theorem hostMemRead_ok {s : State} {addr n : Nat} (hb : s.phase ≠ .busy) (hn : 1 ≤ n)
    (hend : addr + n ≤ s.out.capacity) :
    hostMemRead addr n s = .next (s.reply (.mem addr (hostOutBytes s addr n))) := by
  rw [hostMemRead, if_neg hb, if_neg (by omega), if_neg (by omega)]

/-- Settles O11: the three answers of MemRead to a read of at least one byte. -/
theorem outReads : Obligations.OutReads := by
  intro s addr n rest ha
  have hstep : step s = hostMemRead addr n { s with agenda := rest } := step_host ha
  refine ⟨fun hb => hstep.trans (hostMemRead_of_busy addr n hb),
    fun hb hn hend => hstep.trans (hostMemRead_past_end hb hn hend),
    fun hb hn hend => ⟨_, hstep.trans (hostMemRead_ok hb hn hend), length_hostOutBytes _ addr n, ?_⟩⟩
  exact fun hdone j hj => getElem?_hostOutBytes_of_done (s := { s with agenda := rest }) addr hdone hj

/-! The value of a field. -/

/-- The sum of 20_memory.md R53. -/
theorem leValue_eq_sum (bs : List Byte) :
    leValue bs = ∑ j ∈ Finset.range bs.length, (bs.getD j 0).toNat * 2 ^ (8 * j) := by
  induction bs with
  | nil => rfl
  | cons b bs ih =>
    have hshift (j : Nat) : 2 ^ (8 * (j + 1)) = 256 * 2 ^ (8 * j) := by rw [Nat.mul_succ, pow_add, mul_comm]; rfl
    rw [leValue, ih, List.length_cons, Finset.sum_range_succ', Finset.mul_sum, add_comm]
    simp only [List.getD_cons_succ, List.getD_cons_zero, hshift, Nat.mul_zero, pow_zero, mul_one, mul_left_comm]

/-- The sum of 20_memory.md R54: that of R53 read from the other end. -/
theorem beValue_eq_sum (bs : List Byte) :
    beValue bs = ∑ j ∈ Finset.range bs.length, (bs.getD j 0).toNat * 2 ^ (8 * (bs.length - 1 - j)) := by
  rw [beValue, leValue_eq_sum, List.length_reverse, ← Finset.sum_range_reflect]
  refine Finset.sum_congr rfl fun j hj => ?_
  have hj : j < bs.length := Finset.mem_range.mp hj
  have hback : bs.length - 1 - (bs.length - 1 - j) = j := by omega
  rw [List.getD_reverse _ (by omega), hback]

/-- Settles O34: both orders, the second by the first on the reversed bytes. -/
theorem fieldByteOrder : Obligations.FieldByteOrder := fun b => ⟨leValue_eq_sum b, beValue_eq_sum b⟩

/-! The fields of a block as slices of a wide word (20_memory.md R55). -/

/-- Consecutive bytes of a word, the first at bit `8*k`, have as `le` value the slice of the word that they make up. -/
theorem leValue_of_slices {w : Nat} (W : BitVec w) (bs : List Byte) (k : Nat)
    (h : ∀ j < bs.length, bs[j]? = some (W.extractLsb' (8 * (k + j)) 8)) :
    leValue bs = W.toNat / 2 ^ (8 * k) % 2 ^ (8 * bs.length) := by
  induction bs generalizing k with
  | nil => exact (Nat.mod_one _).symm
  | cons b bs ih =>
    have hfirst : b = W.extractLsb' (8 * k) 8 := Option.some.inj (h 0 (Nat.succ_pos _))
    have hrest := ih (k + 1) fun j hj => by
      rw [Nat.add_assoc, Nat.add_comm 1 j]
      exact h (j + 1) (Nat.succ_lt_succ hj)
    rw [leValue, hrest, hfirst, BitVec.extractLsb'_toNat, Nat.shiftRight_eq_div_pow, List.length_cons, Nat.mul_succ,
      Nat.mul_succ, Nat.pow_add, Nat.pow_add, ← Nat.div_div_eq_div_mul, Nat.mul_comm (2 ^ (8 * bs.length)),
      Nat.mod_mul]

/-- The bytes at the cursor are those of the word `W`, least significant first, `n` of them. -/
def State.WordAtCursor (s : State) (n : Nat) {w : Nat} (W : BitVec w) : Prop :=
  ∀ j < n, s.stream[s.cursor + j]? = some (W.extractLsb' (8 * j) 8)

theorem State.WordAtCursor.length_le {s : State} {n w : Nat} {W : BitVec w} (h : s.WordAtCursor n W) (hn : 0 < n) :
    s.cursor + n ≤ s.stream.length := by
  have hlast := (List.getElem?_eq_some_iff.mp (h (n - 1) (by omega))).1
  omega

/-- A field inside the word is its slice. -/
theorem State.WordAtCursor.ofNat_fieldAt {s : State} {m w : Nat} {W : BitVec w} (h : s.WordAtCursor m W)
    (hle : s.fieldOrder = .le) (k n : Nat) (hkn : k + n ≤ m) :
    BitVec.ofNat (8 * n) (fieldAt s k n) = W.extractLsb' (8 * k) (8 * n) := by
  obtain rfl | hn := n.eq_zero_or_pos
  · exact BitVec.eq_of_zero_length rfl
  have hbytes (j : Nat) (hj : j < n) :
      ((s.stream.drop (s.cursor + k)).take n)[j]? = some (W.extractLsb' (8 * (k + j)) 8) := by
    rw [List.getElem?_take_of_lt hj, List.getElem?_drop, Nat.add_assoc]
    exact h (k + j) (by omega)
  have hlength : ((s.stream.drop (s.cursor + k)).take n).length = n := by
    have hwhole := h.length_le (by omega)
    rw [List.length_take, List.length_drop]
    omega
  have hvalue := leValue_of_slices W _ k (by rwa [hlength])
  rw [hlength] at hvalue
  apply BitVec.eq_of_toNat_eq
  rw [fieldAt, hle, fieldValue, hvalue, BitVec.toNat_ofNat, Nat.mod_mod, BitVec.extractLsb'_toNat,
    Nat.shiftRight_eq_div_pow]

/-- Settles O35: each field is the slice at its place in the word (30_encoding.md R85, R86). -/
theorem littleEndianWideWord : Obligations.LittleEndianWideWord := by
  intro s hle
  refine ⟨fun W (h : s.WordAtCursor 8 W) => ?_, fun W (h : s.WordAtCursor 16 W) => ?_⟩
  · have hfield := h.ofNat_fieldAt hle
    exact ⟨_, exec_dxt1Block_ok (h.length_le (by decide)), hfield 0 2 (by decide), hfield 2 2 (by decide),
      hfield 4 4 (by decide)⟩
  · have hfield := h.ofNat_fieldAt hle
    exact ⟨_, exec_dxt5Block_ok (h.length_le (by decide)), hfield 0 1 (by decide), hfield 1 1 (by decide),
      hfield 2 6 (by decide), hfield 8 2 (by decide), hfield 10 2 (by decide), hfield 12 4 (by decide)⟩

/-! Bytes after the blocks of a call (20_memory.md R57). -/

/-- The state with more bytes at the end of the stream of its call. -/
def State.extendStream (s : State) (extra : List Byte) : State := { s with stream := s.stream ++ extra }

section
variable (s : State) (extra : List Byte)
@[simp] theorem extendStream_cmd : (s.extendStream extra).cmd = s.cmd := rfl
@[simp] theorem extendStream_cursor : (s.extendStream extra).cursor = s.cursor := rfl
@[simp] theorem extendStream_blk : (s.extendStream extra).blk = s.blk := rfl
@[simp] theorem extendStream_fieldOrder : (s.extendStream extra).fieldOrder = s.fieldOrder := rfl
@[simp] theorem extendStream_stream : (s.extendStream extra).stream = s.stream ++ extra := rfl
end

/-- A field of bytes that are there does not depend on what follows them. -/
theorem fieldAt_extendStream {s : State} (extra : List Byte) {k n : Nat} (h : s.cursor + (k + n) ≤ s.stream.length) :
    fieldAt (s.extendStream extra) k n = fieldAt s k n := by
  simp only [fieldAt, extendStream_fieldOrder, extendStream_stream, extendStream_cursor]
  rw [List.drop_append_of_le_length (by omega), List.take_append_of_le_length (by rw [List.length_drop]; omega)]

theorem dxt1Fields_extendStream {s : State} (extra : List Byte) (h : s.cursor + 8 ≤ s.stream.length) :
    dxt1Fields (s.extendStream extra) = dxt1Fields s := by
  simp (disch := omega) only [dxt1Fields, extendStream_blk, fieldAt_extendStream]

theorem dxt5Fields_extendStream {s : State} (extra : List Byte) (h : s.cursor + 16 ≤ s.stream.length) :
    dxt5Fields (s.extendStream extra) = dxt5Fields s := by
  simp (disch := omega) only [dxt5Fields, fieldAt_extendStream]

theorem decoded_extendStream {s : State} (extra : List Byte) (h : s.cursor + s.blockBytes ≤ s.stream.length) :
    (s.extendStream extra).decoded = s.decoded := by
  simp only [State.blockBytes, blockSize, State.decoded, extendStream_cmd] at h ⊢
  by_cases hformat : cmdFormat s.cmd = 0
  · simp only [hformat, if_true] at h ⊢
    rw [dxt1Fields_extendStream extra h]
  · simp only [hformat, if_false] at h ⊢
    rw [dxt5Fields_extendStream extra h]

/-- The counters move in the same way whatever the stream holds. -/
theorem advance_extendStream (s : State) (extra : List Byte) :
    (s.extendStream extra).advance = s.advance.extendStream extra := by
  have hnext : (s.extendStream extra).nextBlock = s.nextBlock.extendStream extra := by
    by_cases h : s.blkX + 1 = s.bxCnt
    · rw [nextBlock_pos h, nextBlock_pos (by exact h)]; rfl
    · rw [nextBlock_neg h, nextBlock_neg (by exact h)]; rfl
  rw [State.advance, State.advance, hnext]
  by_cases h : s.nextBlock.blkY = s.nextBlock.byCnt
  · rw [closeCall_pos h, closeCall_pos (by exact h)]; rfl
  · rw [closeCall_neg h, closeCall_neg (by exact h)]

/-- A block step that has its block does not depend on the bytes after the block. -/
theorem stepped_extendStream {s : State} (extra : List Byte) (h : s.cursor + s.blockBytes ≤ s.stream.length) :
    (s.extendStream extra).stepped = s.stepped.extendStream extra := by
  have hout : (s.extendStream extra).outAfter = s.outAfter := by
    rw [State.outAfter, decoded_extendStream extra h]; rfl
  rw [State.stepped, hout]
  exact congrArg State.endBlock
    (advance_extendStream { s with cursor := s.cursor + s.blockBytes, out := s.outAfter } extra)

/-- Nor do `k` block steps that have their blocks depend on the bytes after these. -/
theorem afterBlocks_extendStream {s : State} (extra : List Byte) {k : Nat}
    (h : s.cursor + k * s.blockBytes ≤ s.stream.length) :
    (s.extendStream extra).afterBlocks k = (s.afterBlocks k).extendStream extra := by
  induction k with
  | zero => rfl
  | succ k ih =>
    rw [Nat.add_mul, Nat.one_mul] at h
    rw [State.afterBlocks, ih (by omega)]
    apply stepped_extendStream
    rw [afterBlocks_cursor, afterBlocks_blockBytes, afterBlocks_stream]
    omega

theorem State.CallStarted.extendStream {s : State} (h : s.CallStarted) (extra : List Byte) :
    (s.extendStream extra).CallStarted :=
  ⟨h.busy, legalCall_congr h.legal rfl rfl rfl rfl, h.x_eq, h.y_eq, h.cursor_eq, h.quiet⟩

/-- Settles O58: both runs are block steps that have their blocks, and these do not depend on what follows. -/
theorem trailingBytesChangeNothing : Obligations.TrailingBytesChangeNothing := by
  intro s extra hstarted hblocks k hk
  have hfirst : k * s.blockBytes ≤ s.stream.length := (Nat.mul_le_mul_right _ hk).trans hblocks
  have hlonger : k * s.blockBytes ≤ (s.stream ++ extra).length := by rw [List.length_append]; omega
  refine ⟨s.afterBlocks k, run_afterBlocks hstarted hk hfirst 0, ?_⟩
  calc Host.Core.run core k (s.extendStream extra)
      = .next ((s.extendStream extra).afterBlocks k) := run_afterBlocks (hstarted.extendStream extra) hk hlonger 0
    _ = .next ((s.afterBlocks k).extendStream extra) := by
      rw [afterBlocks_extendStream extra (by rw [hstarted.cursor_eq]; omega)]
    _ = .next { s.afterBlocks k with stream := s.stream ++ extra } := by
      rw [State.extendStream, afterBlocks_stream]

end Sys2Proof.Machine

/-! The encodings of 30_encoding.md: what decoding an encoded instruction gives back, which words are commands, that the
block decoders and the selector words agree, and the host actions STREAM and WAIT. -/

namespace Sys2Proof.Machine

/-! Decoding what was encoded. -/

/-- The selector word `w` comes back as the row `j` that the format's table has for it. -/
theorem decodeSelector_encode_row {n : Nat} {row : BitVec n → PixelIx → Instr} {w : Byte} {i : PixelIx} {j : Instr}
    (rest : List Byte) (hwidth : w.toNat < 2 ^ n) (hrow : row (BitVec.ofNat n w.toNat) i = j) :
    decodeSelector n row (encodeSelector w i ++ rest) = .ok (j, rest) := by
  rw [decodeSelector_encode row w i rest hwidth, hrow]

/-- Settles O1, row by row: the commands and most units decode by computation, a colour is put together again from its
two bytes, and a ramp selector or a selector word comes back from the byte that holds it. -/
theorem decodeOfEncode : Obligations.DecodeOfEncode := by
  intro i rest
  cases i with
  | decodeDxt1 | decodeDxt5 => rfl
  | dxt1C4S0 | dxt1C4S1 | dxt1C4S2 | dxt1C4S3 | dxt1C3S0 | dxt1C3S1 | dxt1C3S2 | dxt1C3S3
  | dxt5CS0 | dxt5CS1 | dxt5CS2 | dxt5CS3
  | dxt5A8S0 | dxt5A8S1 | dxt5A8S2 | dxt5A8S3 | dxt5A8S4 | dxt5A8S5 | dxt5A8S6 | dxt5A8S7
  | dxt5A6S0 | dxt5A6S1 | dxt5A6S2 | dxt5A6S3 | dxt5A6S4 | dxt5A6S5 | dxt5A6S6 | dxt5A6S7 =>
    simp only [Instr.fmt, encode, decode]
    exact decodeSelector_encode_row rest (by decide) rfl
  | expand565 c => exact congrArg (fun c => Except.ok (Instr.expand565 c, rest)) (colour_of_bytes c)
  | ramp7 ai a0 a1 => exact congrArg (Except.map fun ai => (Instr.ramp7 ai a0 a1, rest)) (decodeRampSelector_ok ai)
  | ramp5 ai a0 a1 => exact congrArg (Except.map fun ai => (Instr.ramp5 ai a0 a1, rest)) (decodeRampSelector_ok ai)
  | avg2 | weighted3 | dxt1Block | dxt5Block | assemble => rfl

/-- Settles O2: closed words, one or two of each table of 30_encoding.md. -/
theorem tableWordsDecode : Obligations.TableWordsDecode := by
  unfold Obligations.TableWordsDecode
  decide

/-- The command words, by number (30_encoding.md R81). -/
theorem decodeCommand_isOk_iff (w : Word) : (∃ i, decodeCommand w = .ok i) ↔ w.toNat = 0x10 ∨ w.toNat = 0x11 := by
  constructor
  · rintro ⟨i, hi⟩
    obtain ⟨-, rfl⟩ | ⟨-, rfl⟩ := decodeCommand_ok_word hi
    · exact .inl rfl
    · exact .inr rfl
  · rintro (hw | hw)
    · obtain rfl : w = 0x10 := BitVec.eq_of_toNat_eq hw
      exact ⟨.decodeDxt1, rfl⟩
    · obtain rfl : w = 0x11 := BitVec.eq_of_toNat_eq hw
      exact ⟨.decodeDxt5, rfl⟩

/-- Settles O3: a word with START whose reserved bits are 0 is 0x10 plus its FORMAT (`word_of_fields`), and CmdError
leaves FORMAT 0 and 1. -/
theorem onlyTwoCommandWords : Obligations.OnlyTwoCommandWords := by
  refine ⟨rfl, rfl, fun w hstart => ⟨decodeCommand_isOk_iff w, by omega, fun hlegal => ?_⟩⟩
  have hreserved : cmdReservedZero w = true := (cmdReservedZero_iff w).mpr (by omega)
  have hw := word_of_fields hreserved hstart
  rw [cmdFormat_toNat] at hw
  omega

/-! A selector word writes the entry of the palette that the word names (42_dxt1.md R166, 43_dxt5.md R206, R210). -/

theorem colourSel_cases : ∀ sel : BitVec 2, sel = 0 ∨ sel = 1 ∨ sel = 2 ∨ sel = 3 := by decide

theorem alphaSel_cases :
    ∀ asel : BitVec 3, asel = 0 ∨ asel = 1 ∨ asel = 2 ∨ asel = 3 ∨ asel = 4 ∨ asel = 5 ∨ asel = 6 ∨ asel = 7 := by
  decide

theorem exec_dxt1Selector (opaque4 : Bool) (sel : BitVec 2) (i : PixelIx) (s : State) :
    exec (dxt1Selector (BitVec.ofBool opaque4 ++ sel) i) s = .next (s.setPixel i (dxt1Palette opaque4 s.blk sel)) := by
  cases opaque4 <;> obtain rfl | rfl | rfl | rfl := colourSel_cases sel <;> rfl

theorem exec_dxt5Selector (sel : BitVec 2) (i : PixelIx) (s : State) :
    exec (dxt5Selector sel i) s = .next (s.setPixelRgb i (dxt5Palette s.blk sel)) := by
  obtain rfl | rfl | rfl | rfl := colourSel_cases sel <;> rfl

theorem exec_alphaSelector (alpha8 : Bool) (asel : BitVec 3) (i : PixelIx) (s : State) :
    exec (alphaSelector (BitVec.ofBool alpha8 ++ asel) i) s =
      .next (s.setPixelAlpha i (alphaPalette alpha8 s.blk asel)) := by
  cases alpha8 <;> obtain rfl | rfl | rfl | rfl | rfl | rfl | rfl | rfl := alphaSel_cases asel <;> rfl

/-! Writing what a pixel already holds changes nothing. -/

theorem setPixel_of_eq {s : State} {i : PixelIx} {p : Rgba} (h : s.pixel i = p) : s.setPixel i p = s :=
  h ▸ setPixel_self s i

theorem setPixelRgb_of_eq {s : State} {i : PixelIx} {c : Rgb} {a : Byte} (h : s.pixel i = combine c a) :
    s.setPixelRgb i c = s := by
  rw [State.setPixelRgb, h]
  exact setPixel_of_eq h

theorem setPixelAlpha_of_eq {s : State} {i : PixelIx} {c : Rgb} {a : Byte} (h : s.pixel i = combine c a) :
    s.setPixelAlpha i a = s := by
  rw [State.setPixelAlpha, h]
  exact setPixel_of_eq h

/-! The pixels of a decoded block, in the terms of the state that the block decoder leaves. -/

theorem pixel_of_exec_dxt1Block {s t : State} (i : PixelIx) (hlength : s.cursor + 8 ≤ s.stream.length)
    (h : exec .dxt1Block s = .next t) : t.pixel i = dxt1Palette t.opaque4 t.blk (colourSel t.blk.cidx i) := by
  rw [exec_dxt1Block_ok hlength] at h
  cases h
  exact getElem_dxt1Pixels (dxt1Fields s) i

theorem pixel_of_exec_dxt5Block {s t : State} (i : PixelIx) (hlength : s.cursor + 16 ≤ s.stream.length)
    (h : exec .dxt5Block s = .next t) :
    t.pixel i =
      combine (dxt5Palette t.blk (colourSel t.blk.cidx i)) (alphaPalette t.alpha8 t.blk (alphaSel t.blk.amask i)) := by
  rw [exec_dxt5Block_ok hlength] at h
  cases h
  exact getElem_dxt5Pixels (dxt5Fields s) i

/-- Settles O32: a decoded pixel is the palette entry of its selectors, which is what the selector words write. -/
theorem blockPixelsAreSelectorResults : Obligations.BlockPixelsAreSelectorResults := by
  intro s t i
  refine ⟨fun hlength hblock => ?_, fun hlength hblock => ⟨?_, ?_⟩⟩
  · rw [exec_dxt1Selector, setPixel_of_eq (pixel_of_exec_dxt1Block i hlength hblock)]
  · rw [exec_dxt5Selector, setPixelRgb_of_eq (pixel_of_exec_dxt5Block i hlength hblock)]
  · rw [exec_alphaSelector, setPixelAlpha_of_eq (pixel_of_exec_dxt5Block i hlength hblock)]

/-! The host actions STREAM and WAIT (30_encoding.md R93). -/

/-- Settles O60: the arm of STREAM, with the action off the agenda. -/
theorem streamIsPresented : Obligations.StreamIsPresented := fun _ _ _ => step_host

/-- A poll of WAIT is a read of STATUS, after which WAIT is over or comes back behind a turn of the engine. -/
theorem step_wait {s : State} {rest : List Event} (ha : s.agenda = .host .wait :: rest) :
    step s = .next { s with
      agenda := if callEnded s.phase then rest else .engine :: .host .wait :: rest
      replies := .reg HostReg.status.offset (statusWord s.phase) :: s.replies } := by
  rw [step_host ha]
  show hostWait _ = _
  unfold hostWait
  split <;> rfl

/-- Settles O12: one poll (`step_wait`), phase by phase. -/
theorem waitPollsStatus : Obligations.WaitPollsStatus := by
  intro s rest ha
  refine ⟨_, statusWord s.phase, step_wait ha, rfl, ?done, ?error, ?busy, ?idle⟩
  all_goals
    intro hphase
    rw [hphase]
    exact ⟨rfl, rfl⟩

end Sys2Proof.Machine

/-! The expander of 40_expand565.md: the effect of EXPAND565, its channels as numbers, and the order that it keeps. -/

namespace Sys2Proof.Machine

theorem exec_expand565 (c : BitVec 16) (s : State) :
    exec (.expand565 c) s = .next { s with unitRgb := expand565 c } := rfl

/-- Each channel is the expansion of its own field of the packed number (40_expand565.md R123). -/
theorem expand565_channels (c : BitVec 16) :
    (expand565 c).r.toNat = e5 (c.toNat / 2048) ∧ (expand565 c).g.toNat = e6 (c.toNat / 32 % 64) ∧
      (expand565 c).b.toNat = e5 (c.toNat % 32) := by
  rw [← red5_eq, ← green6_eq, ← blue5_eq]
  exact ⟨expand565_r c, expand565_g c, expand565_b c⟩

/-- Settles O18: only the unit's output is written (`exec_expand565`), and `e5` and `e6` of the fields are the
quotients. -/
theorem expand565Formula : Obligations.Expand565Formula :=
  fun c s => ⟨_, exec_expand565 c s, rfl, fun _ => rfl, expand565_channels c⟩

/-- Settles O19: the two tables, entry by entry, and the channels from `expand565_channels`. -/
theorem expand565Tables : Obligations.Expand565Tables := by
  refine ⟨fun v hv => ⟨rfl, ?e5Table⟩, fun v hv => ⟨rfl, ?e6Table⟩, expand565_channels⟩
  case e5Table => revert v; decide
  case e6Table => revert v; decide

/-! The order of packed colours (40_expand565.md R124, R126). -/

/-- One more in the field raises the sum by at least 255, which is more than the last divisor: the quotient rises. -/
theorem e5_strictMono : StrictMono e5 := strictMono_nat_of_lt_succ fun v => by
  unfold e5
  omega

theorem e6_strictMono : StrictMono e6 := strictMono_nat_of_lt_succ fun v => by
  unfold e6
  omega

/-- The fields sit in the order R, G, B from the most significant bit (30_encoding.md R87). -/
theorem packed_lt_iff_fields (a b : BitVec 16) :
    b.toNat < a.toNat ↔
      red5 b < red5 a ∨ red5 b = red5 a ∧ (green6 b < green6 a ∨ green6 b = green6 a ∧ blue5 b < blue5 a) := by
  simp only [red5_eq, green6_eq, blue5_eq]
  omega

theorem expand565_r_eq_iff (a b : BitVec 16) : (expand565 b).r = (expand565 a).r ↔ red5 b = red5 a := by
  rw [← BitVec.toNat_inj, expand565_r, expand565_r, e5_strictMono.injective.eq_iff]

theorem expand565_g_eq_iff (a b : BitVec 16) : (expand565 b).g = (expand565 a).g ↔ green6 b = green6 a := by
  rw [← BitVec.toNat_inj, expand565_g, expand565_g, e6_strictMono.injective.eq_iff]

/-- Settles O20: packed colours compare field by field (`packed_lt_iff_fields`), and each channel compares as its field
does because `e5` and `e6` are strictly increasing. -/
theorem packedOrderIsLexicographic : Obligations.PackedOrderIsLexicographic := by
  intro a b
  rw [packed_lt_iff_fields, expand565_r_eq_iff, expand565_g_eq_iff]
  simp only [expand565_r, expand565_g, expand565_b, e5_strictMono.lt_iff_lt, e6_strictMono.lt_iff_lt]

end Sys2Proof.Machine

/-! The interpolator of 41_interpolate.md: the effect of its four units, a weighted mean between its operands, and the
ramp selectors for which the spec states no result. -/

namespace Sys2Proof.Machine

theorem exec_avg2 (a b : Byte) (s : State) : exec (.avg2 a b) s = .next { s with unitVal := avg2 a b } := rfl

theorem exec_weighted3 (x y : Byte) (s : State) :
    exec (.weighted3 x y) s = .next { s with unitVal := weighted3 x y } := rfl

theorem exec_ramp7 (ai : BitVec 3) (a0 a1 : Byte) (s : State) :
    exec (.ramp7 ai a0 a1) s = .next { s with unitVal := ramp7 ai a0 a1 } := rfl

theorem exec_ramp5 (ai : BitVec 3) (a0 a1 : Byte) (s : State) :
    exec (.ramp5 ai a0 a1) s = .next { s with unitVal := ramp5 ai a0 a1 } := rfl

/-! Every unit computes a truncated weighted mean, whose divisor is the sum of its weights. -/

/-- Replacing both values by the smaller one, or by the larger one, bounds the sum by a multiple of the divisor. -/
theorem weightedMean_between {p q d : Nat} (a b : Nat) (hsum : p + q = d) (hpos : 0 < d) :
    min a b ≤ (p * a + q * b) / d ∧ (p * a + q * b) / d ≤ max a b := by
  constructor
  · rw [Nat.le_div_iff_mul_le hpos]
    calc min a b * d = p * min a b + q * min a b := by rw [← hsum, Nat.mul_comm, Nat.add_mul]
      _ ≤ p * a + q * b := by gcongr <;> simp
  · apply Nat.div_le_of_le_mul
    calc p * a + q * b ≤ p * max a b + q * max a b := by gcongr <;> simp
      _ = d * max a b := by rw [← hsum, Nat.add_mul]

theorem avg2_between (a b : Byte) :
    min a.toNat b.toNat ≤ (avg2 a b).toNat ∧ (avg2 a b).toNat ≤ max a.toNat b.toNat := by
  rw [avg2_toNat]
  simpa only [Nat.one_mul] using weightedMean_between (p := 1) (q := 1) a.toNat b.toNat rfl (by decide)

theorem weighted3_between (x y : Byte) :
    min x.toNat y.toNat ≤ (weighted3 x y).toNat ∧ (weighted3 x y).toNat ≤ max x.toNat y.toNat := by
  rw [weighted3_toNat]
  simpa only [Nat.one_mul] using weightedMean_between (p := 1) (q := 2) x.toNat y.toNat rfl (by decide)

theorem ramp7_between {ai : BitVec 3} (a0 a1 : Byte) (hai : 2 ≤ ai.toNat) :
    min a0.toNat a1.toNat ≤ (ramp7 ai a0 a1).toNat ∧ (ramp7 ai a0 a1).toNat ≤ max a0.toNat a1.toNat := by
  rw [ramp7_toNat a0 a1 hai]
  exact weightedMean_between _ _ (by omega) (by decide)

theorem ramp5_between {ai : BitVec 3} (a0 a1 : Byte) (hai : 2 ≤ ai.toNat) (hai' : ai.toNat ≤ 5) :
    min a0.toNat a1.toNat ≤ (ramp5 ai a0 a1).toNat ∧ (ramp5 ai a0 a1).toNat ≤ max a0.toNat a1.toNat := by
  rw [ramp5_toNat a0 a1 hai hai']
  exact weightedMean_between _ _ (by omega) (by decide)

/-- What lies between a byte and itself is that byte. -/
theorem eq_of_between_self {v a : Byte} (h : min a.toNat a.toNat ≤ v.toNat ∧ v.toNat ≤ max a.toNat a.toNat) :
    v = a := by
  rw [min_self, max_self] at h
  exact BitVec.eq_of_toNat_eq (h.2.antisymm h.1)

theorem avg2_self (a : Byte) : avg2 a a = a := eq_of_between_self (avg2_between a a)

theorem weighted3_self (x : Byte) : weighted3 x x = x := eq_of_between_self (weighted3_between x x)

theorem avg2_comm (a b : Byte) : avg2 a b = avg2 b a := by
  rw [avg2, avg2, Nat.add_comm]

/-- The second operand has the larger weight: 170 one way, 85 the other. -/
theorem weighted3_not_comm : weighted3 0 255 ≠ weighted3 255 0 := by decide

/-- Settles O21: only the unit's value is written (`exec_avg2`); the rest is about that value. -/
theorem avg2Result : Obligations.Avg2Result := by
  intro a b s
  obtain ⟨hlow, hhigh⟩ := avg2_between a b
  refine ⟨_, exec_avg2 a b s, rfl, fun _ => rfl, avg2_toNat a b, hlow, hhigh, ?exchanged, ?equal⟩
  case exchanged => rw [exec_avg2, avg2_comm]
  case equal =>
    rintro rfl
    exact avg2_self a

/-- Settles O22: as O21 for one pair, and the operands 0 and 255 give another value when exchanged
(`weighted3_not_comm`). -/
theorem weighted3Result : Obligations.Weighted3Result := by
  refine ⟨fun x y s => ?_, 0, 255, fun s hsame => ?_⟩
  · obtain ⟨hlow, hhigh⟩ := weighted3_between x y
    refine ⟨_, exec_weighted3 x y s, rfl, fun _ => rfl, weighted3_toNat x y, hlow, hhigh, ?_⟩
    rintro rfl
    exact weighted3_self x
  · rw [exec_weighted3, exec_weighted3] at hsame
    injection hsame with hstate
    exact weighted3_not_comm (congrArg State.unitVal hstate)

/-- Settles O23: the weights 8 - ai and ai - 1 have the sum 7 (`ramp7_between`). -/
theorem ramp7Result : Obligations.Ramp7Result := fun ai a0 a1 s hai =>
  ⟨_, exec_ramp7 ai a0 a1 s, rfl, fun _ => rfl, ramp7_toNat a0 a1 hai, ramp7_between a0 a1 hai⟩

/-- Settles O24: the weights 6 - ai and ai - 1 have the sum 5 (`ramp5_between`). -/
theorem ramp5Result : Obligations.Ramp5Result := fun ai a0 a1 s hai hai' =>
  ⟨_, exec_ramp5 ai a0 a1 s, rfl, fun _ => rfl, ramp5_toNat a0 a1 hai hai', ramp5_between a0 a1 hai hai'⟩

/-- Settles O25: the words are the encodings of ramp instructions (`decodeOfEncode`), and a unit writes its value alone
whatever its selector is. -/
theorem rampOutsideDomain : Obligations.RampOutsideDomain := fun ai a0 a1 rest s =>
  ⟨fun _ => ⟨decodeOfEncode (.ramp7 ai a0 a1) rest, _, exec_ramp7 ai a0 a1 s, rfl, fun _ => rfl⟩,
    fun _ => ⟨decodeOfEncode (.ramp5 ai a0 a1) rest, _, exec_ramp5 ai a0 a1 s, rfl, fun _ => rfl⟩⟩

end Sys2Proof.Machine

/-! The DXT1 block of 42_dxt1.md: the colours of its selectors in both modes, the transparent pixel as ASSEMBLE writes
it, and DXT1_BLOCK. -/

namespace Sys2Proof.Machine

/-! The lanes of a blended colour (41_interpolate.md R142). -/

theorem w3Rgb_toNat (x y : Rgb) :
    ((w3Rgb x y).r.toNat, (w3Rgb x y).g.toNat, (w3Rgb x y).b.toNat) =
      ((x.r.toNat + 2 * y.r.toNat) / 3, (x.g.toNat + 2 * y.g.toNat) / 3, (x.b.toNat + 2 * y.b.toNat) / 3) := by
  simp only [w3Rgb, weighted3_toNat]

theorem avg2Rgb_toNat (x y : Rgb) :
    ((avg2Rgb x y).r.toNat, (avg2Rgb x y).g.toNat, (avg2Rgb x y).b.toNat) =
      ((x.r.toNat + y.r.toNat) / 2, (x.g.toNat + y.g.toNat) / 2, (x.b.toNat + y.b.toNat) / 2) := by
  simp only [avg2Rgb, avg2_toNat]

/-! The selector words. -/

/-- A selector word completes and sets its pixel to its palette entry (42_dxt1.md R166, R167). -/
theorem dxt1Selector_sets_pixel (opaque4 : Bool) (sel : BitVec 2) (i : PixelIx) (s : State) :
    ∃ t, exec (dxt1Selector (BitVec.ofBool opaque4 ++ sel) i) s = .next t ∧ OnlyPixel i s t ∧
      t.pixel i = dxt1Palette opaque4 s.blk sel :=
  ⟨_, exec_dxt1Selector opaque4 sel i s, onlyPixel_setPixel s i _, pixel_setPixel s i _⟩

/-- When the palette entry is opaque, its colour as numbers. -/
theorem dxt1Selector_sets_colour {opaque4 : Bool} {sel : BitVec 2} (i : PixelIx) {s : State} {c : Rgb}
    (hentry : dxt1Palette opaque4 s.blk sel = withAlpha c 255) :
    ∃ t, exec (dxt1Selector (BitVec.ofBool opaque4 ++ sel) i) s = .next t ∧ OnlyPixel i s t ∧
      rgbNat (t.pixel i) = (c.r.toNat, c.g.toNat, c.b.toNat) ∧ (t.pixel i).a = 255 := by
  obtain ⟨t, hexec, honly, hpixel⟩ := dxt1Selector_sets_pixel opaque4 sel i s
  rw [hentry] at hpixel
  exact ⟨t, hexec, honly, congrArg rgbNat hpixel, congrArg Rgba.a hpixel⟩

/-- Packed colours in strict order expand to different colours: some channel is in strict order. -/
theorem expand565_ne_of_lt {a b : BitVec 16} (h : b.toNat < a.toNat) : expand565 a ≠ expand565 b := by
  intro heq
  have hchannel := (packedOrderIsLexicographic a b).mp h
  rw [heq] at hchannel
  simp only [lt_irrefl, and_false, or_false] at hchannel

/-- Settles O26: each word sets its palette entry (`dxt1Selector_sets_pixel`), and the endpoints of an opaque block are
in strict order (`expand565_ne_of_lt`). -/
theorem dxt1OpaqueSelectors : Obligations.Dxt1OpaqueSelectors := by
  intro s i c0 c1
  refine ⟨⟨rfl, dxt1Selector_sets_pixel true 0 i s⟩, ⟨rfl, dxt1Selector_sets_pixel true 1 i s⟩, ⟨rfl, ?nearC0⟩,
    ⟨rfl, ?nearC1⟩, expand565_ne_of_lt⟩
  case nearC0 =>
    rw [← w3Rgb_toNat c1 c0]
    exact dxt1Selector_sets_colour (opaque4 := true) (sel := 2) i rfl
  case nearC1 =>
    rw [← w3Rgb_toNat c0 c1]
    exact dxt1Selector_sets_colour (opaque4 := true) (sel := 3) i rfl

/-- Settles O27: each word sets its palette entry (`dxt1Selector_sets_pixel`). -/
theorem dxt1PunchThroughSelectors : Obligations.Dxt1PunchThroughSelectors := by
  intro s i c0 c1
  refine ⟨⟨rfl, dxt1Selector_sets_pixel false 0 i s⟩, ⟨rfl, dxt1Selector_sets_pixel false 1 i s⟩, ⟨rfl, ?midpoint⟩,
    ⟨rfl, dxt1Selector_sets_pixel false 3 i s⟩⟩
  case midpoint =>
    rw [← avg2Rgb_toNat c0 c1]
    exact dxt1Selector_sets_colour (opaque4 := false) (sel := 2) i rfl

/-! A transparent pixel in OUT. -/

theorem mem_pixelCells_transparent (addr : Nat) {k : Nat} (hk : k < 4) :
    (addr + k, 0) ∈ pixelCells addr ⟨0, 0, 0, 0⟩ := by
  interval_cases k <;> simp [pixelCells]

/-- Settles O28: the pixel is in bounds whatever its value, so its four bytes are among those that ASSEMBLE writes. -/
theorem transparentPixelIsWritten : Obligations.TransparentPixelIsWritten := by
  intro s i hfits hbounds
  have hpixel := pixel_setPixel s i ⟨0, 0, 0, 0⟩
  refine ⟨s.setPixel i ⟨0, 0, 0, 0⟩, _, exec_dxt1Selector false 3 i s, onlyPixel_setPixel s i _, hpixel,
    exec_assemble_of_fits hfits, fun k hk => read_assemble_of_mem (mem_cellsOfBlock.mpr ⟨i, hbounds, ?_⟩)⟩
  rw [hpixel]
  exact mem_pixelCells_transparent (s.pixelAddress i) hk

/-! DXT1_BLOCK. -/

/-- The four entries of the palette by selector (42_dxt1.md R166, R170-R177). -/
theorem dxt1Palette_entries (opaque4 : Bool) (b : Block) (sel : BitVec 2) :
    (sel = 0 → dxt1Palette opaque4 b sel = withAlpha (blockC0 b) 255) ∧
    (sel = 1 → dxt1Palette opaque4 b sel = withAlpha (blockC1 b) 255) ∧
    (sel = 2 → dxt1Palette opaque4 b sel =
      withAlpha (if opaque4 then w3Rgb (blockC1 b) (blockC0 b) else avg2Rgb (blockC0 b) (blockC1 b)) 255) ∧
    (sel = 3 → dxt1Palette opaque4 b sel =
      if opaque4 then withAlpha (w3Rgb (blockC0 b) (blockC1 b)) 255 else ⟨0, 0, 0, 0⟩) := by
  refine ⟨?_, ?_, ?_, ?_⟩
  all_goals
    rintro rfl
    cases opaque4 <;> rfl

/-- Settles O36: the closed forms of DXT1_BLOCK, the fields of the bytes at the cursor (`toNat_ofNat_fieldAt`), and the
palette entry of each pixel's selector (`dxt1Palette_entries`). -/
theorem dxt1BlockDecodes : Obligations.Dxt1BlockDecodes := by
  intro s
  refine ⟨fun hleft => ?_, fun hshort => ⟨_, exec_dxt1Block_error hshort, rfl, rfl, rfl⟩⟩
  have hexec := exec_dxt1Block_ok hleft
  refine ⟨_, hexec, rfl, fun _ => rfl, rfl, rfl, rfl, toNat_ofNat_fieldAt s 0 rfl, toNat_ofNat_fieldAt s 2 rfl,
    toNat_ofNat_fieldAt s 4 rfl, rfl, fun i => ?_⟩
  rw [pixel_of_exec_dxt1Block i hleft hexec, ← colourSel_toNat]
  obtain ⟨h0, h1, h2, h3⟩ := dxt1Palette_entries (opaque4Flag (dxt1Fields s)) (dxt1Fields s)
    (colourSel (dxt1Fields s).cidx i)
  exact ⟨fun hsel => h0 (BitVec.eq_of_toNat_eq hsel), fun hsel => h1 (BitVec.eq_of_toNat_eq hsel),
    fun hsel => h2 (BitVec.eq_of_toNat_eq hsel), fun hsel => h3 (BitVec.eq_of_toNat_eq hsel)⟩

end Sys2Proof.Machine

/-! The DXT5 block of 43_dxt5.md: the colours and the alphas of its selectors, and DXT5_BLOCK. -/

namespace Sys2Proof.Machine

/-! The selector words. -/

/-- A colour selector word completes and sets its pixel's colour to its palette entry (43_dxt5.md R206). -/
theorem dxt5Selector_sets_colour {sel : BitVec 2} (i : PixelIx) {s : State} {c : Rgb}
    (hentry : dxt5Palette s.blk sel = c) :
    ∃ t, exec (dxt5Selector sel i) s = .next t ∧ OnlyPixelRgb i s t ∧
      rgbNat (t.pixel i) = (c.r.toNat, c.g.toNat, c.b.toNat) := by
  subst hentry
  exact ⟨_, exec_dxt5Selector sel i s, onlyPixelRgb_setPixelRgb s i _, rgbNat_setPixelRgb s i _⟩

/-- An alpha selector word completes and sets its pixel's alpha to its palette entry (43_dxt5.md R210), here as a
number. -/
theorem alphaSelector_sets_alpha {alpha8 : Bool} {asel : BitVec 3} (i : PixelIx) {s : State} {v : Nat}
    (hentry : (alphaPalette alpha8 s.blk asel).toNat = v) :
    ∃ t, exec (alphaSelector (BitVec.ofBool alpha8 ++ asel) i) s = .next t ∧ OnlyPixelAlpha i s t ∧
      (t.pixel i).a.toNat = v := by
  refine ⟨_, exec_alphaSelector alpha8 asel i s, onlyPixelAlpha_setPixelAlpha s i _, ?_⟩
  rw [alpha_setPixelAlpha, hentry]

/-- Settles O29: each word sets its palette entry (`dxt5Selector_sets_colour`), and the palette has no mode. -/
theorem dxt5ColourSelectors : Obligations.Dxt5ColourSelectors := by
  intro s i c0 c1
  refine ⟨⟨rfl, dxt5Selector_sets_colour (sel := 0) i rfl⟩, ⟨rfl, dxt5Selector_sets_colour (sel := 1) i rfl⟩,
    ⟨rfl, ?nearC0⟩, ⟨rfl, ?nearC1⟩⟩
  case nearC0 =>
    rw [← w3Rgb_toNat c1 c0]
    exact dxt5Selector_sets_colour (sel := 2) i rfl
  case nearC1 =>
    rw [← w3Rgb_toNat c0 c1]
    exact dxt5Selector_sets_colour (sel := 3) i rfl

/-! The interpolants of the two alpha ramps. -/

/-- In the 7-step ramp every selector from 2 on is an interpolant (43_dxt5.md R232-R237). -/
theorem alphaPalette_sevenStep (b : Block) {asel : BitVec 3} (hlow : 2 ≤ asel.toNat) :
    alphaPalette true b asel = ramp7 asel b.a0 b.a1 := by
  obtain rfl | rfl | rfl | rfl | rfl | rfl | rfl | rfl := alphaSel_cases asel
  iterate 2 exact absurd hlow (by decide)
  all_goals rfl

/-- In the 5-step ramp the interpolants end at selector 5 (43_dxt5.md R242-R245). -/
theorem alphaPalette_fiveStep (b : Block) {asel : BitVec 3} (hlow : 2 ≤ asel.toNat) (hhigh : asel.toNat ≤ 5) :
    alphaPalette false b asel = ramp5 asel b.a0 b.a1 := by
  obtain rfl | rfl | rfl | rfl | rfl | rfl | rfl | rfl := alphaSel_cases asel
  iterate 2 exact absurd hlow (by decide)
  iterate 4 rfl
  all_goals exact absurd hhigh (by decide)

theorem alphaPalette_sevenStep_toNat (b : Block) {asel : BitVec 3} (hlow : 2 ≤ asel.toNat) :
    (alphaPalette true b asel).toNat = ((8 - asel.toNat) * b.a0.toNat + (asel.toNat - 1) * b.a1.toNat) / 7 := by
  rw [alphaPalette_sevenStep b hlow, ramp7_toNat b.a0 b.a1 hlow]

theorem alphaPalette_fiveStep_toNat (b : Block) {asel : BitVec 3} (hlow : 2 ≤ asel.toNat) (hhigh : asel.toNat ≤ 5) :
    (alphaPalette false b asel).toNat = ((6 - asel.toNat) * b.a0.toNat + (asel.toNat - 1) * b.a1.toNat) / 5 := by
  rw [alphaPalette_fiveStep b hlow hhigh, ramp5_toNat b.a0 b.a1 hlow hhigh]

/-- The word of an interpolant of the 7-step ramp sets the weighted mean. -/
theorem alphaSelector_sets_sevenStep {asel : BitVec 3} (i : PixelIx) (s : State) (hlow : 2 ≤ asel.toNat) :
    ∃ t, exec (alphaSelector (BitVec.ofBool true ++ asel) i) s = .next t ∧ OnlyPixelAlpha i s t ∧
      (t.pixel i).a.toNat = ((8 - asel.toNat) * s.blk.a0.toNat + (asel.toNat - 1) * s.blk.a1.toNat) / 7 :=
  alphaSelector_sets_alpha i (alphaPalette_sevenStep_toNat s.blk hlow)

/-- The word of an interpolant of the 5-step ramp sets the weighted mean. -/
theorem alphaSelector_sets_fiveStep {asel : BitVec 3} (i : PixelIx) (s : State) (hlow : 2 ≤ asel.toNat)
    (hhigh : asel.toNat ≤ 5) :
    ∃ t, exec (alphaSelector (BitVec.ofBool false ++ asel) i) s = .next t ∧ OnlyPixelAlpha i s t ∧
      (t.pixel i).a.toNat = ((6 - asel.toNat) * s.blk.a0.toNat + (asel.toNat - 1) * s.blk.a1.toNat) / 5 :=
  alphaSelector_sets_alpha i (alphaPalette_fiveStep_toNat s.blk hlow hhigh)

/-- Settles O30: words 0 and 1 set an endpoint (`alphaSelector_sets_alpha`), and each word from 2 on sets its
interpolant (`alphaSelector_sets_sevenStep`). -/
theorem dxt5SevenStepSelectors : Obligations.Dxt5SevenStepSelectors := by
  intro s i a0 a1
  exact ⟨⟨rfl, alphaSelector_sets_alpha (alpha8 := true) (asel := 0) i rfl⟩,
    ⟨rfl, alphaSelector_sets_alpha (alpha8 := true) (asel := 1) i rfl⟩,
    ⟨rfl, alphaSelector_sets_sevenStep (asel := 2) i s (by decide)⟩,
    ⟨rfl, alphaSelector_sets_sevenStep (asel := 3) i s (by decide)⟩,
    ⟨rfl, alphaSelector_sets_sevenStep (asel := 4) i s (by decide)⟩,
    ⟨rfl, alphaSelector_sets_sevenStep (asel := 5) i s (by decide)⟩,
    ⟨rfl, alphaSelector_sets_sevenStep (asel := 6) i s (by decide)⟩,
    ⟨rfl, alphaSelector_sets_sevenStep (asel := 7) i s (by decide)⟩⟩

/-- Settles O31: words 0 and 1 set an endpoint and words 6 and 7 a constant (`alphaSelector_sets_alpha`), and the words
between set their interpolants (`alphaSelector_sets_fiveStep`). -/
theorem dxt5FiveStepSelectors : Obligations.Dxt5FiveStepSelectors := by
  intro s i a0 a1
  exact ⟨⟨rfl, alphaSelector_sets_alpha (alpha8 := false) (asel := 0) i rfl⟩,
    ⟨rfl, alphaSelector_sets_alpha (alpha8 := false) (asel := 1) i rfl⟩,
    ⟨rfl, alphaSelector_sets_fiveStep (asel := 2) i s (by decide) (by decide)⟩,
    ⟨rfl, alphaSelector_sets_fiveStep (asel := 3) i s (by decide) (by decide)⟩,
    ⟨rfl, alphaSelector_sets_fiveStep (asel := 4) i s (by decide) (by decide)⟩,
    ⟨rfl, alphaSelector_sets_fiveStep (asel := 5) i s (by decide) (by decide)⟩,
    ⟨rfl, alphaSelector_sets_alpha (alpha8 := false) (asel := 6) i rfl⟩,
    ⟨rfl, alphaSelector_sets_alpha (alpha8 := false) (asel := 7) i rfl⟩⟩

/-! DXT5_BLOCK. -/

/-- The colour palette by the number of a selector (43_dxt5.md R206, R220-R223). -/
theorem dxt5Palette_entries (b : Block) (sel : BitVec 2) :
    (sel.toNat = 0 → dxt5Palette b sel = blockC0 b) ∧
    (sel.toNat = 1 → dxt5Palette b sel = blockC1 b) ∧
    (sel.toNat = 2 → dxt5Palette b sel = w3Rgb (blockC1 b) (blockC0 b)) ∧
    (sel.toNat = 3 → dxt5Palette b sel = w3Rgb (blockC0 b) (blockC1 b)) := by
  exact ⟨fun h => congrArg (dxt5Palette b) (BitVec.eq_of_toNat_eq h : sel = 0),
    fun h => congrArg (dxt5Palette b) (BitVec.eq_of_toNat_eq h : sel = 1),
    fun h => congrArg (dxt5Palette b) (BitVec.eq_of_toNat_eq h : sel = 2),
    fun h => congrArg (dxt5Palette b) (BitVec.eq_of_toNat_eq h : sel = 3)⟩

/-- The alpha palette by the number of a selector: the endpoints, the interpolants of each ramp, and the constants of
the 5-step ramp (43_dxt5.md R210, R230-R237, R240-R247). -/
theorem alphaPalette_entries (alpha8 : Bool) (b : Block) (asel : BitVec 3) :
    (asel.toNat = 0 → alphaPalette alpha8 b asel = b.a0) ∧
    (asel.toNat = 1 → alphaPalette alpha8 b asel = b.a1) ∧
    (2 ≤ asel.toNat → alpha8 = true → (alphaPalette alpha8 b asel).toNat =
      ((8 - asel.toNat) * b.a0.toNat + (asel.toNat - 1) * b.a1.toNat) / 7) ∧
    (2 ≤ asel.toNat → asel.toNat ≤ 5 → alpha8 = false → (alphaPalette alpha8 b asel).toNat =
      ((6 - asel.toNat) * b.a0.toNat + (asel.toNat - 1) * b.a1.toNat) / 5) ∧
    (asel.toNat = 6 → alpha8 = false → alphaPalette alpha8 b asel = 0) ∧
    (asel.toNat = 7 → alpha8 = false → alphaPalette alpha8 b asel = 255) := by
  refine ⟨fun h => ?endpoint0, fun h => ?endpoint1, fun hlow hmode => ?sevenStep, fun hlow hhigh hmode => ?fiveStep,
    fun h hmode => ?zero, fun h hmode => ?full⟩
  case endpoint0 =>
    obtain rfl : asel = 0 := BitVec.eq_of_toNat_eq h
    cases alpha8 <;> rfl
  case endpoint1 =>
    obtain rfl : asel = 1 := BitVec.eq_of_toNat_eq h
    cases alpha8 <;> rfl
  case sevenStep => rw [hmode, alphaPalette_sevenStep_toNat b hlow]
  case fiveStep => rw [hmode, alphaPalette_fiveStep_toNat b hlow hhigh]
  case zero =>
    obtain rfl : asel = 6 := BitVec.eq_of_toNat_eq h
    rw [hmode]
    rfl
  case full =>
    obtain rfl : asel = 7 := BitVec.eq_of_toNat_eq h
    rw [hmode]
    rfl

/-- Settles O37: the closed forms of DXT5_BLOCK, the fields of the bytes at the cursor (`toNat_ofNat_fieldAt`), and the
palette entries of each pixel's two selectors (`dxt5Palette_entries`, `alphaPalette_entries`). -/
theorem dxt5BlockDecodes : Obligations.Dxt5BlockDecodes := by
  intro s
  refine ⟨fun hleft => ?_, fun hshort => ⟨_, exec_dxt5Block_error hshort, rfl, rfl, rfl⟩⟩
  have hexec := exec_dxt5Block_ok hleft
  refine ⟨_, hexec, rfl, fun _ => rfl, toNat_ofNat_fieldAt s 0 rfl, toNat_ofNat_fieldAt s 1 rfl,
    toNat_ofNat_fieldAt s 2 rfl, toNat_ofNat_fieldAt s 8 rfl, toNat_ofNat_fieldAt s 10 rfl,
    toNat_ofNat_fieldAt s 12 rfl, rfl, fun i => ?_⟩
  rw [pixel_of_exec_dxt5Block i hleft hexec, ← colourSel_toNat, ← alphaSel_toNat]
  exact ⟨⟨_, rfl, rfl, rfl, dxt5Palette_entries _ _⟩, alphaPalette_entries _ _ _⟩

end Sys2Proof.Machine

/-! What a step runs and how a call begins (44_assembler.md R260, R262): the instruction of the next event, the block
instructions of a busy engine, and START with its checks. -/

namespace Sys2Proof.Machine

/-! Which instruction a step runs. -/

theorem step_word {s : State} {f : Fmt} {bytes : List Byte} {rest : List Event} (ha : s.agenda = .word f bytes :: rest) :
    step s = runWord f bytes { s with agenda := rest } := by
  simp only [step, takeTurn, ha, runEvent]

theorem runWord_of_decode {f : Fmt} {bytes tail : List Byte} {i : Instr} (s : State)
    (hd : decode f bytes = .ok (i, tail)) : runWord f bytes s = exec i s := by
  simp only [runWord, hd]

theorem writeCmd_of_decode {w : Word} {i : Instr} (s : State) (hd : decodeCommand w = .ok i) :
    writeCmd w s = exec i s := by
  simp only [writeCmd, hd]

theorem step_wr_cmd {s : State} {w : Word} {rest : List Event} (ha : s.agenda = wr .cmd w :: rest) :
    step s = writeCmd w { s with agenda := rest } := step_wr ha

/-- Settles O4: both ways to present an instruction, and a command word presented by itself (`runWord_cmd`). -/
theorem stepRunsDecodedInstruction : Obligations.StepRunsDecodedInstruction := by
  refine ⟨fun s f bytes tail rest i ha hd => ?_, fun s w rest i ha hd => ?_, fun s b0 b1 b2 b3 tail rest ha => ?_⟩
  · rw [step_word ha, runWord_of_decode _ hd]
  · rw [step_wr_cmd ha, writeCmd_of_decode _ hd]
  · rw [step_word ha, runWord_cmd, step_wr_cmd rfl]

/-- Settles O13: the turn of an engine at rest leaves the state that it is given. -/
theorem engineRestsUnlessBusy : Obligations.EngineRestsUnlessBusy := fun _ hb =>
  ⟨fun ha => step_of_quiet_of_not_busy ha hb,
    fun _ ha => (step_of_engineNext (.inr ha)).trans (engineTurn_of_not_busy hb)⟩

/-- A block step after an IoError of the block decoder (60_exceptions.md R306). -/
theorem blockStep_of_error {s t : State} (hdecode : exec s.blockInstr s = .next t) (ht : t.phase = .error) :
    blockStep s = .next t.endBlock := by
  simp only [blockStep, hdecode, ht, if_true]

/-- A block step that goes on to ASSEMBLE and the advance (44_assembler.md R262). -/
theorem blockStep_of_assemble {s t u : State} (hdecode : exec s.blockInstr s = .next t) (ht : t.phase ≠ .error)
    (hassemble : exec .assemble t = .next u) : blockStep s = .next u.advance.endBlock := by
  simp only [blockStep, hdecode, ht, if_false, finishBlock, hassemble]

/-- The block decoder of a call by its FORMAT (44_assembler.md R262). -/
theorem blockInstr_eq {s : State} {i : Instr}
    (h : i = .dxt1Block ∧ cmdFormat s.cmd = 0 ∨ i = .dxt5Block ∧ cmdFormat s.cmd ≠ 0) : s.blockInstr = i := by
  obtain ⟨rfl, hformat⟩ | ⟨rfl, hformat⟩ := h
  · exact if_pos hformat
  · exact if_neg hformat

/-- Settles O5: the step is the engine's block step, whose two branches are those of the statement. -/
theorem stepRunsBlockInstructions : Obligations.StepRunsBlockInstructions := by
  intro s t i rest hnext hb hi hdecode
  obtain rfl := blockInstr_eq hi
  rw [step_of_busy hnext hb]
  exact ⟨blockStep_of_error hdecode, fun ht _ => blockStep_of_assemble hdecode ht⟩

/-! START. -/

theorem start_of_not_busy {s : State} (w : Word) (hb : s.phase ≠ .busy) : start w s = .next (startCall w s) := if_neg hb

theorem startCall_of_error {w : Word} {s : State} {e : HwError} (h : startError w s = some e) :
    startCall w s = (s.acceptStart w).raise e := by
  simp only [startCall, h]

theorem startCall_of_none {w : Word} {s : State} (h : startError w s = none) :
    startCall w s = (s.acceptStart w).beginCall := by
  simp only [startCall, h]

/-- Settles O14: START with a command word raises nothing for such arguments (`startError_of_legal`). -/
theorem commandsBeginACall : Obligations.CommandsBeginACall := by
  intro s hb hx hy hfits
  have hbegin (w : Word) (hw : w = 0x10 ∨ w = 0x11) : start w s = .next (s.acceptStart w).beginCall := by
    rw [start_of_not_busy w hb, startCall_of_none (startError_of_legal hw hx hy hfits)]
  exact ⟨hbegin 0x10 (.inl rfl), hbegin 0x11 (.inr rfl)⟩

theorem startCall_cmd (w : Word) (s : State) : (startCall w s).cmd = clearStart w := by
  unfold startCall
  split <;> rfl

theorem startCall_raises {w : Word} {s : State} {e : HwError} (h : startError w s = some e) :
    (startCall w s).phase = .error ∧ (startCall w s).errcode = e.code := by
  rw [startCall_of_error h]
  exact ⟨rfl, rfl⟩

/-- Settles O15: the checks of START are this chain of conditions (`startError_eq`). -/
theorem startErrorPriority : Obligations.StartErrorPriority := by
  intro s w rest ha hw hb
  refine ⟨_, step_start ha hw hb, fun k => by rw [startCall_cmd, getLsbD_clearStart], ?_⟩
  have herror := startError_eq w { s with agenda := rest }
  split_ifs at herror ⊢
  · exact startCall_raises herror
  · exact startCall_raises herror
  · exact startCall_raises herror
  · rw [startCall_of_none herror]
    exact ⟨rfl, rfl⟩

end Sys2Proof.Machine

/-! The assembler and the block step (44_assembler.md R250-R264): which bytes of OUT ASSEMBLE writes and which pixels
they are, and the step of a call in progress. -/

namespace Sys2Proof.Machine

/-! The pixels of a block in OUT. -/

/-- The four bytes of OUT from `addr` on are those of the pixel `p` (20_memory.md R58). -/
def Memory.HoldsPixel (m : Memory) (addr : Nat) (p : Rgba) : Prop :=
  m.read addr = p.r ∧ m.read (addr + 1) = p.g ∧ m.read (addr + 2) = p.b ∧ m.read (addr + 3) = p.a

theorem exists_pixel_of_mem_cellsOfBlock {s : State} {c : Host.Cell} (hc : c ∈ s.cellsOfBlock) :
    ∃ i : PixelIx, s.inBounds i = true ∧ s.pixelAddress i ≤ c.1 ∧ c.1 < s.pixelAddress i + 4 := by
  obtain ⟨i, hbounds, hc⟩ := mem_cellsOfBlock.mp hc
  exact ⟨i, hbounds, mem_pixelCells hc⟩

/-- OUT after ASSEMBLE holds each pixel in bounds at its address (44_assembler.md R256). -/
theorem holdsPixel_assemble {s : State} {i : PixelIx} (hbounds : s.inBounds i = true) :
    Memory.HoldsPixel { s.out with cells := insertCells s.cellsOfBlock s.out.cells } (s.pixelAddress i) (s.pixel i) := by
  have hread {a : Nat} {b : Byte} (h : (a, b) ∈ pixelCells (s.pixelAddress i) (s.pixel i)) :=
    read_assemble_of_mem (mem_cellsOfBlock.mpr ⟨i, hbounds, h⟩)
  exact ⟨hread (by simp [pixelCells]), hread (by simp [pixelCells]), hread (by simp [pixelCells]),
    hread (by simp [pixelCells])⟩

/-- ASSEMBLE leaves every byte alone that belongs to no pixel in bounds. -/
theorem read_assemble_of_no_pixel {s : State} {a : Nat}
    (h : ∀ i, s.inBounds i = true → a < s.pixelAddress i ∨ s.pixelAddress i + 4 ≤ a) :
    Memory.read { s.out with cells := insertCells s.cellsOfBlock s.out.cells } a = s.out.read a := by
  refine read_assemble_of_not_mem fun c hc hca => ?_
  obtain ⟨i, hbounds, hlow, hhigh⟩ := exists_pixel_of_mem_cellsOfBlock hc
  have := h i hbounds
  omega

/-- Settles O38: what OUT reads as after ASSEMBLE, at a pixel in bounds and elsewhere. -/
theorem assembleWritesTheBlock : Obligations.AssembleWritesTheBlock := by
  intro s hfits
  refine ⟨_, exec_assemble_of_fits hfits, rfl, fun i hx hy => ?_, fun a ha => ?_⟩
  · exact holdsPixel_assemble (inBounds_iff.mpr ⟨hx, hy⟩)
  · refine read_assemble_of_no_pixel fun i hbounds => ?_
    obtain ⟨hx, hy⟩ := inBounds_iff.mp hbounds
    exact ha i hx hy

theorem assemble_of_exec {s t : State} (h : exec .assemble s = .next t) : assemble s = .ok t := by
  rw [exec_assemble, execAssemble] at h
  split at h
  · cases h
    assumption
  · cases h

/-- A pixel of the block lies in its four columns (44_assembler.md R252). -/
theorem pixelX_div (s : State) (i : PixelIx) : s.pixelX i / 4 = s.blkX := by
  simp only [State.pixelX, pixelCol]
  omega

/-- A pixel of the block lies in its four rows (44_assembler.md R252). -/
theorem pixelY_div (s : State) (i : PixelIx) : s.pixelY i / 4 = s.blkY := by
  simp only [State.pixelY, pixelRow]
  omega

/-- Settles O39: a byte that changes is one that ASSEMBLE writes, for a pixel in bounds. -/
theorem noWriteOutsideTheImage : Obligations.NoWriteOutsideTheImage := by
  intro s t hexec a hchanged
  obtain ⟨rfl, -⟩ := assemble_ok (assemble_of_exec hexec)
  obtain ⟨c, hc, rfl⟩ : ∃ c ∈ s.cellsOfBlock, c.1 = a := by
    by_contra hnone
    exact hchanged (read_assemble_of_not_mem fun c hc hca => hnone ⟨c, hc, hca⟩)
  obtain ⟨i, hbounds, hlow, hhigh⟩ := exists_pixel_of_mem_cellsOfBlock hc
  obtain ⟨hx, hy⟩ := inBounds_iff.mp hbounds
  exact ⟨cellsOfBlock_lt hc, s.pixelX i, s.pixelY i, hx, hy, pixelX_div s i, pixelY_div s i, hlow, hhigh⟩

/-- Settles O40: an address belongs to one pixel of the image (`pixelAddr_injective`), and a pixel to one block. -/
theorem blocksWriteDisjointAddresses : Obligations.BlocksWriteDisjointAddresses := by
  intro s s' hwidth _ hblock c hc c' hc' hsame
  obtain ⟨i, hbounds, hlow, hhigh⟩ := exists_pixel_of_mem_cellsOfBlock hc
  obtain ⟨i', hbounds', hlow', hhigh'⟩ := exists_pixel_of_mem_cellsOfBlock hc'
  have hx := (inBounds_iff.mp hbounds).1
  have hx' := (inBounds_iff.mp hbounds').1
  rw [State.pixelAddress, widthPx_congr hwidth, ← hsame] at hlow' hhigh'
  rw [widthPx_congr hwidth] at hx'
  obtain ⟨hpx, hpy⟩ := pixelAddr_injective hx hx' hlow hhigh hlow' hhigh'
  have hcolumn : s.blkX = s'.blkX := by rw [← pixelX_div s i, hpx, pixelX_div]
  have hrow : s.blkY = s'.blkY := by rw [← pixelY_div s i, hpy, pixelY_div]
  exact hblock.elim (fun h => h hcolumn.symm) fun h => h hrow.symm

/-- The pixels in bounds are those of the first columns and rows of the block (44_assembler.md R253, R254). -/
theorem inBounds_iff_rectangle (s : State) (i : PixelIx) : s.inBounds i = true ↔
    i.val % 4 < min 4 (s.widthPx - 4 * s.blkX) ∧ i.val / 4 < min 4 (s.heightPx - 4 * s.blkY) := by
  rw [inBounds_iff]
  simp only [State.pixelX, State.pixelY, pixelCol, pixelRow]
  omega

/-- A block `k` of the `ceil(n/4)` along one side of the image reaches into it, and only the last, where `n` leaves a
remainder, reaches out of it (44_assembler.md R250, R254). -/
theorem side_of_block {n k : Nat} (hk : k < blocksAcross n) :
    1 ≤ min 4 (n - 4 * k) ∧ (min 4 (n - 4 * k) < 4 → k = blocksAcross n - 1 ∧ n % 4 ≠ 0) := by
  unfold blocksAcross at *
  omega

/-- Settles O41: the two sides of the rectangle (`side_of_block`), its pixels, and the cursor after the block decoder. -/
theorem edgeBlockRectangle : Obligations.EdgeBlockRectangle := by
  intro s hx hy
  obtain ⟨hcols, hlastColumn⟩ := side_of_block hx
  obtain ⟨hrows, hlastRow⟩ := side_of_block hy
  refine ⟨hcols, hrows, inBounds_iff_rectangle s, hlastColumn, hlastRow, fun hleft => ?_⟩
  obtain ⟨b, o, a, hdecode⟩ := exec_blockInstr_ok hleft
  exact ⟨_, hdecode, rfl⟩

/-! The block step. -/

/-- OUT after a block step holds the pixels of its block that are in bounds. -/
theorem holdsPixel_outAfter {s : State} {i : PixelIx} (hbounds : s.inBounds i = true) :
    s.outAfter.HoldsPixel (s.pixelAddress i) s.decoded[i.val] :=
  holdsPixel_assemble (s := { s with pix := s.decoded }) hbounds

theorem read_outAfter_of_no_pixel {s : State} {a : Nat}
    (h : ∀ i, s.inBounds i = true → a < s.pixelAddress i ∨ s.pixelAddress i + 4 ≤ a) :
    s.outAfter.read a = s.out.read a :=
  read_assemble_of_no_pixel (s := { s with pix := s.decoded }) h

/-- Settles O42: the step is `State.stepped`, with the pixels of the block's bytes (`blockPixels_eq`). -/
theorem blockStepDecodesABlock : Obligations.BlockStepDecodesABlock := by
  intro s rest hnext hb hlegal hat hleft
  have hstep : step s = .next ({ s with agenda := rest } : State).stepped := by
    rw [step_of_busy hnext hb]
    exact blockStep_ok hb hlegal.fits hleft
  refine ⟨_, s.decoded, hstep, blockPixels_eq hleft, fun i hbounds => ?_, fun a ha => ?_, stepped_cursor _,
    fun hx => stepped_within hb hx hat.y_lt, fun hx => stepped_rowEnd hb hx, ?registers⟩
  · rw [stepped_out]
    exact holdsPixel_outAfter (s := { s with agenda := rest }) hbounds
  · rw [stepped_out]
    exact read_outAfter_of_no_pixel (s := { s with agenda := rest }) ha
  case registers => simp

/-- Settles O43: the error action of a step that finds too few bytes (`blockStep_error`), after which the engine rests. -/
theorem blockStepShortRead : Obligations.BlockStepShortRead := by
  intro s rest hnext hb hshort
  have hstep : step s = .next (({ s with agenda := rest } : State).raise .ioError).endBlock := by
    rw [step_of_busy hnext hb]
    exact blockStep_error hshort
  exact ⟨_, hstep, rfl, rfl, rfl, rfl, rfl, rfl, rfl, rfl, rfl, rfl, rfl, rfl, rfl, rfl,
    step_of_quiet_of_not_busy rfl (by simp)⟩

/-- Settles O54: the run is `State.afterBlocks`, whose counters are those of `afterBlocks_position`. -/
theorem blockOrder : Obligations.BlockOrder := by
  intro s k hstarted hk hleft
  obtain ⟨hx, hy, hphase⟩ := afterBlocks_position hstarted hk
  refine ⟨_, run_afterBlocks hstarted hk hleft 0, hx, hy, ?_, hphase⟩
  rw [afterBlocks_cursor, hstarted.cursor_eq, Nat.zero_add]

end Sys2Proof.Machine

/-! Whole calls (44_assembler.md R264-R271): OUT after the blocks of a call, and the call from its START to DONE or to
IoError. -/

namespace Sys2Proof.Machine

/-! The blocks of an image and the pixels of its blocks. -/

theorem blocksAcross_of_lt {n k : Nat} (h : k < n) : k / 4 < blocksAcross n := by
  unfold blocksAcross
  omega

/-- The block that holds a pixel, by its counters (44_assembler.md R251, R268). -/
theorem blockIndex_eq_iff {w px py k : Nat} (hpx : px < w) :
    blockIndex w px py = k ↔ px / 4 = k % blocksAcross w ∧ py / 4 = k / blocksAcross w := by
  have hcolumn := blocksAcross_of_lt hpx
  have hunique := Nat.div_mod_unique (a := k) (c := px / 4) (d := py / 4) (Nat.zero_lt_of_lt hcolumn)
  rw [blockIndex, Nat.mul_comm, Nat.add_comm]
  constructor
  · intro hk
    obtain ⟨hrow, hcol⟩ := hunique.mpr ⟨hk, hcolumn⟩
    exact ⟨hcol.symm, hrow.symm⟩
  · rintro ⟨hcol, hrow⟩
    exact (hunique.mp ⟨hrow.symm, hcol.symm⟩).1

theorem blockIndex_lt {w h px py : Nat} (hpx : px < w) (hpy : py < h) :
    blockIndex w px py < blocksAcross w * blocksAcross h := by
  have hcolumn := blocksAcross_of_lt hpx
  calc blockIndex w px py < (py / 4) * blocksAcross w + blocksAcross w := Nat.add_lt_add_left hcolumn _
    _ = blocksAcross w * (py / 4 + 1) := by ring
    _ ≤ blocksAcross w * blocksAcross h := Nat.mul_le_mul_left _ (blocksAcross_of_lt hpy)

theorem pixelX_indexInBlock {s : State} {px : Nat} (py : Nat) (h : px / 4 = s.blkX) :
    s.pixelX (indexInBlock px py) = px := by
  simp only [State.pixelX, pixelCol, indexInBlock]
  omega

theorem pixelY_indexInBlock {s : State} {py : Nat} (px : Nat) (h : py / 4 = s.blkY) :
    s.pixelY (indexInBlock px py) = py := by
  simp only [State.pixelY, pixelRow, indexInBlock]
  omega

/-! OUT after `k` blocks of a call. -/

theorem Memory.HoldsPixel.of_read_eq {m m' : Memory} {addr : Nat} {p : Rgba} (h : m.HoldsPixel addr p)
    (hread : ∀ a, addr ≤ a → a < addr + 4 → m'.read a = m.read a) : m'.HoldsPixel addr p := by
  obtain ⟨hr, hg, hb, ha⟩ := h
  exact ⟨(hread _ (by omega) (by omega)).trans hr, (hread _ (by omega) (by omega)).trans hg,
    (hread _ (by omega) (by omega)).trans hb, (hread _ (by omega) (by omega)).trans ha⟩

/-- A block step writes each pixel of the image that lies in its block. -/
theorem outAfter_holds_own_pixel {s : State} {px py : Nat} (hpx : px < s.widthPx) (hpy : py < s.heightPx)
    (hcol : px / 4 = s.blkX) (hrow : py / 4 = s.blkY) :
    s.outAfter.HoldsPixel (pixelAddr s.widthPx px py) s.decoded[(indexInBlock px py).val] := by
  have hx := pixelX_indexInBlock py hcol
  have hy := pixelY_indexInBlock px hrow
  have hbounds : s.inBounds (indexInBlock px py) = true := inBounds_iff.mpr (by rw [hx, hy]; exact ⟨hpx, hpy⟩)
  have hholds := holdsPixel_outAfter hbounds
  rwa [State.pixelAddress, hx, hy] at hholds

/-- A block step keeps each pixel of the image that lies in another block (44_assembler.md R258). -/
theorem outAfter_keeps_other_pixel {s : State} {px py : Nat} {p : Rgba} (hpx : px < s.widthPx)
    (hother : ¬ (px / 4 = s.blkX ∧ py / 4 = s.blkY)) (h : s.out.HoldsPixel (pixelAddr s.widthPx px py) p) :
    s.outAfter.HoldsPixel (pixelAddr s.widthPx px py) p := by
  refine h.of_read_eq fun a hlow hhigh => read_outAfter_of_no_pixel fun i hbounds => ?_
  by_contra hin
  rw [not_or, not_lt, not_le] at hin
  obtain ⟨rfl, rfl⟩ := pixelAddr_injective hpx (inBounds_iff.mp hbounds).1 hlow hhigh hin.1 hin.2
  exact hother ⟨pixelX_div s i, pixelY_div s i⟩

/-- OUT holds the pixels of the image of the call's stream that lie in its first `k` blocks (44_assembler.md R268). -/
def State.HoldsBlocks (s : State) (k : Nat) (m : Memory) : Prop :=
  ∀ px py, px < s.widthPx → py < s.heightPx → blockIndex s.widthPx px py < k →
    ∃ p : Rgba, imagePixel (cmdFormat s.cmd) s.fieldOrder s.widthPx s.stream px py = .ok p ∧
      m.HoldsPixel (pixelAddr s.widthPx px py) p

/-- What the block step after `k` others decodes is the block rule on the `k`-th block's bytes. -/
theorem blockPixels_blockBytesAt {s : State} {k : Nat} (hcursor : s.cursor = 0)
    (hleft : (k + 1) * s.blockBytes ≤ s.stream.length) :
    blockPixels (cmdFormat s.cmd) s.fieldOrder (blockBytesAt (cmdFormat s.cmd) s.stream k) =
      .ok (s.afterBlocks k).decoded := by
  rw [Nat.add_mul, Nat.one_mul] at hleft
  have hpixels := blockPixels_eq (s := s.afterBlocks k) (by simpa [hcursor] using hleft)
  simpa [hcursor, blockBytesAt, State.blockBytes] using hpixels

/-- The key fact of a decode call: after `k` block steps OUT holds the first `k` blocks of the image. The `k`-th block is
written by the last step, which keeps those before it. -/
theorem afterBlocks_holdsBlocks {s : State} (h : s.CallStarted) {k : Nat} (hk : k ≤ s.nBlocks)
    (hleft : k * s.blockBytes ≤ s.stream.length) : s.HoldsBlocks k (s.afterBlocks k).out := by
  induction k with
  | zero => exact fun _ _ _ _ hnone => absurd hnone (Nat.not_lt_zero _)
  | succ k ih =>
    intro px py hpx hpy hindex
    obtain ⟨hblkX, hblkY, -⟩ := afterBlocks_position h (k := k) (by omega)
    have hblock : blockIndex s.widthPx px py = k ↔
        px / 4 = (s.afterBlocks k).blkX ∧ py / 4 = (s.afterBlocks k).blkY := by
      rw [hblkX, hblkY]
      exact blockIndex_eq_iff hpx
    rw [State.afterBlocks, stepped_out, ← afterBlocks_widthPx s k]
    by_cases hlast : blockIndex s.widthPx px py = k
    · obtain ⟨hcol, hrow⟩ := hblock.mp hlast
      refine ⟨_, ?_, outAfter_holds_own_pixel (by simpa using hpx) (by simpa using hpy) hcol hrow⟩
      rw [imagePixel, afterBlocks_widthPx, hlast, blockPixels_blockBytesAt h.cursor_eq hleft]
      rfl
    · have hbefore : k * s.blockBytes ≤ s.stream.length := (Nat.mul_le_mul_right _ k.le_succ).trans hleft
      obtain ⟨p, hpixel, hholds⟩ := ih (by omega) hbefore px py hpx hpy (by omega)
      rw [← afterBlocks_widthPx s k] at hpixel hholds
      exact ⟨p, hpixel, outAfter_keeps_other_pixel (by simpa using hpx) (fun hc => hlast (hblock.mpr hc)) hholds⟩

/-- No block step writes at or above 4*width*height (44_assembler.md R257). -/
theorem read_afterBlocks_of_outside (s : State) (k : Nat) {a : Nat} (ha : s.outBytes ≤ a) :
    (s.afterBlocks k).out.read a = s.out.read a := by
  induction k with
  | zero => rfl
  | succ k ih =>
    rw [State.afterBlocks, stepped_out, ← ih]
    refine read_outAfter_of_no_pixel fun i hbounds => .inr ?_
    obtain ⟨hx, hy⟩ := inBounds_iff.mp hbounds
    calc (s.afterBlocks k).pixelAddress i + 4 ≤ (s.afterBlocks k).outBytes := pixelAddr_lt hx hy
      _ ≤ a := by rwa [afterBlocks_outBytes]

/-- After all its blocks a call holds its whole image. -/
theorem afterBlocks_holdsImage {s : State} (h : s.CallStarted) (hleft : s.nBlocks * s.blockBytes ≤ s.stream.length)
    {px py : Nat} (hpx : px < s.widthPx) (hpy : py < s.heightPx) :
    ∃ p : Rgba, imagePixel (cmdFormat s.cmd) s.fieldOrder s.widthPx s.stream px py = .ok p ∧
      (s.afterBlocks s.nBlocks).out.HoldsPixel (pixelAddr s.widthPx px py) p :=
  afterBlocks_holdsBlocks h le_rfl hleft px py hpx hpy (blockIndex_lt hpx hpy)

/-! Calls from their START. -/

/-- The state after a START that begins a call, written to CMD as the last event of the agenda. -/
def State.started (s : State) (w : Word) : State := (({ s with agenda := [] } : State).acceptStart w).beginCall

theorem run_started {s : State} {w : Word} (hw : w = 0x10 ∨ w = 0x11) (ha : s.agenda = [wr .cmd w])
    (hb : s.phase ≠ .busy) (hx : 0 < s.width.toInt) (hy : 0 < s.height.toInt) (hfits : s.outBytes ≤ s.out.capacity)
    (k : Nat) : Host.Core.run core (k + 1) s = Host.Core.run core k (s.started w) := by
  have hsize : 4 * s.width.toInt * s.height.toInt ≤ s.out.capacity := by
    rw [← outBytes_cast hx hy]
    exact_mod_cast hfits
  have hstart : w.getLsbD 4 = true := by obtain rfl | rfl := hw <;> rfl
  apply run_succ_of_step
  rw [step_start ha hstart hb]
  exact congrArg Host.Outcome.next (startCall_of_none (startError_of_legal hw hx hy hsize))

theorem cmdFormat_clearStart (w : Word) : cmdFormat (clearStart w) = cmdFormat w := by
  apply BitVec.eq_of_getLsbD_eq
  intro k hk
  simp [cmdFormat, BitVec.getLsbD_extractLsb', getLsbD_clearStart, show k ≠ 4 by omega]

@[simp] theorem started_format (s : State) (w : Word) : cmdFormat (s.started w).cmd = cmdFormat w :=
  cmdFormat_clearStart w

@[simp] theorem started_blockBytes (s : State) (w : Word) : (s.started w).blockBytes = blockSize (cmdFormat w) := by
  rw [State.blockBytes, started_format]

/-- Settles O55: the call begins (`run_started`), and its block steps leave its image (`afterBlocks_holdsImage`). -/
theorem decodeCallProducesImage : Obligations.DecodeCallProducesImage := by
  intro s w hw ha hb hx hy hfits hleft
  have hstarted : (s.started w).CallStarted := callStarted_of_start hw hx hy hfits
  have hstream : (s.started w).nBlocks * (s.started w).blockBytes ≤ (s.started w).stream.length := by
    rwa [started_blockBytes]
  have hrun : Host.Core.run core (s.nBlocks + 1) s = .next ((s.started w).afterBlocks s.nBlocks) :=
    (run_started hw ha hb hx hy hfits _).trans (run_afterBlocks hstarted le_rfl hstream 0)
  obtain ⟨hblkX, hblkY, hphase⟩ := afterBlocks_position hstarted le_rfl
  have hpos := (blocks_pos hx hy).1
  refine ⟨_, hrun, hphase.trans (if_pos rfl), afterBlocks_errcode _ _, ?cursor, hblkX.trans (Nat.mul_mod_right _ _),
    hblkY.trans (Nat.mul_div_cancel_left _ hpos), fun px py hpx hpy => ?pixel,
    fun a => read_afterBlocks_of_outside (s.started w) _⟩
  case cursor => rw [afterBlocks_cursor, started_blockBytes, hstarted.cursor_eq, Nat.zero_add]
  case pixel =>
    obtain ⟨p, hpixel, hholds⟩ := afterBlocks_holdsImage hstarted hstream hpx hpy
    rw [started_format] at hpixel
    exact ⟨p, hpixel, hholds⟩

theorem blockSize_pos (fmt : BitVec 2) : 0 < blockSize fmt := by
  unfold blockSize
  split <;> decide

/-- Settles O56: the whole blocks of the stream are decoded, and the next step finds the rest of the stream too short. -/
theorem shortStreamEndsInIoError : Obligations.ShortStreamEndsInIoError := by
  intro s w hw ha hb hx hy hfits hshort
  have hstarted : (s.started w).CallStarted := callStarted_of_start hw hx hy hfits
  have hpos := blockSize_pos (cmdFormat w)
  generalize hk : s.presented.length / blockSize (cmdFormat w) = k
  have hlt : k < s.nBlocks := hk ▸ (Nat.div_lt_iff_lt_mul hpos).mpr hshort
  have hwhole : k * (s.started w).blockBytes ≤ s.presented.length := by
    rw [started_blockBytes, ← hk]
    exact Nat.div_mul_le_self _ _
  have hrest : s.presented.length < k * blockSize (cmdFormat w) + blockSize (cmdFormat w) := by
    rw [← hk]
    exact Nat.lt_div_mul_add hpos
  have hbusy := (afterBlocks_position hstarted hlt.le).2.2.trans (if_neg hlt.ne)
  have hlast : step ((s.started w).afterBlocks k) = .next (((s.started w).afterBlocks k).raise .ioError).endBlock := by
    rw [step_of_quiet (by rw [afterBlocks_agenda]; rfl), engineTurn, if_pos hbusy]
    apply blockStep_error
    rw [afterBlocks_stream, afterBlocks_cursor, afterBlocks_blockBytes, started_blockBytes, hstarted.cursor_eq,
      Nat.zero_add]
    exact hrest
  refine ⟨(((s.started w).afterBlocks k).raise .ioError).endBlock, ?_, rfl, rfl⟩
  rw [run_started hw ha hb hx hy hfits (k + 1), run_afterBlocks hstarted hlt.le hwhole 1, run_succ_of_step 0 hlast]
  rfl

/-- Every address below 4*width*height is that of a byte of a pixel of the image (20_memory.md R60). -/
theorem exists_pixel_of_lt {w h a : Nat} (ha : a < 4 * w * h) :
    ∃ px py, px < w ∧ py < h ∧ pixelAddr w px py ≤ a ∧ a < pixelAddr w px py + 4 := by
  have hnumber : a / 4 < w * h := by rw [Nat.mul_assoc] at ha; omega
  have hw : 0 < w := Nat.pos_of_mul_pos_right (Nat.zero_lt_of_lt hnumber)
  refine ⟨a / 4 % w, a / 4 / w, Nat.mod_lt _ hw, Nat.div_lt_of_lt_mul hnumber, ?_⟩
  rw [pixelAddr, Nat.div_add_mod']
  omega

/-- Two memories that hold one pixel at an address agree on its four bytes. -/
theorem Memory.HoldsPixel.read_eq {m m' : Memory} {addr a : Nat} {p : Rgba} (h : m.HoldsPixel addr p)
    (h' : m'.HoldsPixel addr p) (hlow : addr ≤ a) (hhigh : a < addr + 4) : m'.read a = m.read a := by
  obtain ⟨hr, hg, hb, ha⟩ := h
  obtain ⟨hr', hg', hb', ha'⟩ := h'
  obtain rfl | rfl | rfl | rfl : a = addr ∨ a = addr + 1 ∨ a = addr + 2 ∨ a = addr + 3 := by omega
  · rw [hr, hr']
  · rw [hg, hg']
  · rw [hb, hb']
  · rw [ha, ha']

/-- Settles O59: both runs hold the image of the same stream (`afterBlocks_holdsImage`), which fills the bytes below
4*width*height. -/
theorem resultIndependentOfOldOut : Obligations.ResultIndependentOfOldOut := by
  intro s m hstarted hleft hcapacity
  have hstarted' : ({ s with out := m } : State).CallStarted :=
    ⟨hstarted.busy, legalCall_congr hstarted.legal rfl rfl rfl hcapacity, hstarted.x_eq, hstarted.y_eq,
      hstarted.cursor_eq, hstarted.quiet⟩
  refine ⟨_, _, run_afterBlocks hstarted le_rfl hleft 0, run_afterBlocks hstarted' le_rfl hleft 0,
    (afterBlocks_position hstarted le_rfl).2.2.trans (if_pos rfl),
    (afterBlocks_position hstarted' le_rfl).2.2.trans (if_pos rfl), fun a ha => ?_⟩
  obtain ⟨px, py, hpx, hpy, hlow, hhigh⟩ := exists_pixel_of_lt ha
  obtain ⟨p, hpixel, hholds⟩ := afterBlocks_holdsImage hstarted hleft hpx hpy
  obtain ⟨p', hpixel', hholds'⟩ := afterBlocks_holdsImage hstarted' hleft hpx hpy
  obtain rfl : p = p' := Except.ok.inj (hpixel.symm.trans hpixel')
  exact hholds.read_eq hholds' hlow hhigh

end Sys2Proof.Machine

/-! DECODE_IMAGE (44_assembler.md R268): its pixels, and where their bytes stand. -/

namespace Sys2Proof.Machine

/-! Lists of chunks of one length, and lists of answers. -/

/-- Position `j` of chunk `k` in a list of chunks of length `n`. -/
theorem getElem?_flatMap_of_length {α β : Type} {f : α → List β} {n : Nat} (hf : ∀ x, (f x).length = n) (l : List α)
    (k : Nat) {j : Nat} (hj : j < n) : (l.flatMap f)[k * n + j]? = l[k]?.bind fun x => (f x)[j]? := by
  induction l generalizing k with
  | nil => simp
  | cons x l ih =>
    rw [List.flatMap_cons]
    cases k with
    | zero => rw [List.getElem?_append_left (by rw [hf]; omega), Nat.zero_mul, Nat.zero_add]; rfl
    | succ k =>
      have hskip : (k + 1) * n + j - n = k * n + j := by rw [Nat.add_mul, Nat.one_mul]; omega
      rw [List.getElem?_append_right (by rw [hf, Nat.add_mul]; omega), hf, hskip, ih]
      rfl

theorem length_flatMap_of_length {α β : Type} {f : α → List β} {n : Nat} (hf : ∀ x, (f x).length = n) (l : List α) :
    (l.flatMap f).length = l.length * n := by
  simp [List.length_flatMap, hf]

/-- When every element has an answer, the answers in order are the answer of the whole list. -/
theorem exists_mapM_eq_ok {α β ε : Type} {f : α → Except ε β} {l : List α} (h : ∀ x ∈ l, ∃ y, f x = .ok y) :
    ∃ ys, l.mapM f = .ok ys ∧ List.Forall₂ (fun x y => f x = .ok y) l ys := by
  induction l with
  | nil => exact ⟨[], rfl, .nil⟩
  | cons x l ih =>
    obtain ⟨y, hy⟩ := h x List.mem_cons_self
    obtain ⟨ys, hys, hall⟩ := ih fun x' hx' => h x' (List.mem_cons_of_mem x hx')
    refine ⟨y :: ys, ?_, .cons hy hall⟩
    rw [List.mapM_cons, hy, hys]
    rfl

theorem exists_getElem?_of_forall₂ {α β : Type} {R : α → β → Prop} {l : List α} {ys : List β}
    (h : List.Forall₂ R l ys) {k : Nat} {x : α} (hx : l[k]? = some x) : ∃ y, R x y ∧ ys[k]? = some y := by
  obtain ⟨hk, rfl⟩ := List.getElem?_eq_some_iff.mp hx
  have hk' : k < ys.length := h.length_eq ▸ hk
  exact ⟨ys[k], h.get hk hk', List.getElem?_eq_getElem hk'⟩

/-! The pixels of DECODE_IMAGE. -/

theorem blockPixels_isOk {fmt : BitVec 2} {blk : List Byte} (o : FieldOrder) (hlength : blk.length = blockSize fmt) :
    ∃ p, blockPixels fmt o blk = .ok p := by
  have hleft : (blockState o blk).cursor + blockSize fmt ≤ (blockState o blk).stream.length :=
    (Nat.zero_add _).trans_le hlength.ge
  unfold blockSize at hleft
  unfold blockPixels
  split_ifs at hleft ⊢
  · exact ⟨_, by rw [dxt1Block_ok hleft]; rfl⟩
  · exact ⟨_, by rw [dxt5Block_ok hleft]; rfl⟩

theorem length_blockBytesAt {fmt : BitVec 2} {stream : List Byte} {k n : Nat} (hk : k < n)
    (hleft : n * blockSize fmt ≤ stream.length) : (blockBytesAt fmt stream k).length = blockSize fmt := by
  have hblock : (k + 1) * blockSize fmt ≤ n * blockSize fmt := Nat.mul_le_mul_right _ hk
  rw [Nat.add_mul, Nat.one_mul] at hblock
  rw [blockBytesAt, List.length_take, List.length_drop]
  omega

/-- Every pixel of the image has a value when the stream is long enough. -/
theorem imagePixel_isOk {fmt : BitVec 2} {w h px py : Nat} {stream : List Byte} (o : FieldOrder) (hpx : px < w)
    (hpy : py < h) (hleft : blocksAcross w * blocksAcross h * blockSize fmt ≤ stream.length) :
    ∃ p, imagePixel fmt o w stream px py = .ok p := by
  obtain ⟨p, hp⟩ := blockPixels_isOk o (length_blockBytesAt (blockIndex_lt hpx hpy) hleft)
  exact ⟨p[(indexInBlock px py).val], by rw [imagePixel, hp]; rfl⟩

theorem mem_imageCoords {w h : Nat} {c : Nat × Nat} (hc : c ∈ imageCoords w h) : c.1 < w ∧ c.2 < h := by
  simp only [imageCoords, List.mem_flatMap, List.mem_map, List.mem_range] at hc
  obtain ⟨py, hpy, px, hpx, rfl⟩ := hc
  exact ⟨hpx, hpy⟩

theorem length_imageCoords (w h : Nat) : (imageCoords w h).length = h * w := by
  rw [imageCoords, length_flatMap_of_length (n := w) (by simp), List.length_range]

/-- The coordinates stand in the order of the addresses (20_memory.md R60). -/
theorem getElem?_imageCoords {w h px py : Nat} (hpx : px < w) (hpy : py < h) :
    (imageCoords w h)[py * w + px]? = some (px, py) := by
  rw [imageCoords, getElem?_flatMap_of_length (by simp) _ py hpx]
  simp [hpx, hpy]

theorem length_pixelBytes (p : Rgba) : (pixelBytes p).length = 4 := rfl

/-- The four bytes of pixel number `k` in the bytes of a list of pixels. -/
theorem getElem?_flatMap_pixelBytes {ps : List Rgba} {k : Nat} {p : Rgba} (hp : ps[k]? = some p) {j : Nat} (hj : j < 4) :
    (ps.flatMap pixelBytes)[4 * k + j]? = (pixelBytes p)[j]? := by
  rw [Nat.mul_comm, getElem?_flatMap_of_length length_pixelBytes ps k hj, hp]
  rfl

/-- Settles O57: every pixel has a value (`imagePixel_isOk`), and the pixels stand in the order of their addresses. -/
theorem decodeImageBytes : Obligations.DecodeImageBytes := by
  intro fmt o w h stream
  refine ⟨fun hshort => if_pos hshort, fun hleft => ?_⟩
  obtain ⟨ps, hps, hall⟩ := exists_mapM_eq_ok (l := imageCoords w h)
    (f := fun c => imagePixel fmt o w stream c.1 c.2) fun c hc =>
      imagePixel_isOk o (mem_imageCoords hc).1 (mem_imageCoords hc).2 hleft
  refine ⟨ps.flatMap pixelBytes, ?value, ?length, fun px py hpx hpy => ?pixel⟩
  case value =>
    rw [decodeImage, if_neg (by omega), hps]
    rfl
  case length =>
    rw [length_flatMap_of_length length_pixelBytes, ← hall.length_eq, length_imageCoords]
    ring
  case pixel =>
    obtain ⟨p, hp, hget⟩ := exists_getElem?_of_forall₂ hall (getElem?_imageCoords hpx hpy)
    have hbyte {j : Nat} (hj : j < 4) := getElem?_flatMap_pixelBytes hget hj
    exact ⟨p, hp, hbyte (j := 0) (by decide), hbyte (j := 1) (by decide), hbyte (j := 2) (by decide),
      hbyte (j := 3) (by decide)⟩

end Sys2Proof.Machine

/-! Errors at START (60_exceptions.md R306). -/

namespace Sys2Proof.Machine

@[simp] theorem forget_cells (m : Memory) : m.forget.cells = [] := rfl

/-- A write of CMD with START = 1 that ends in ERROR is an accepted START whose checks raise an error: one that passes
them leaves BUSY, not ERROR (44_assembler.md R260). -/
theorem step_start_raises {s t : State} {w : Word} {rest : List Event} (ha : s.agenda = wr .cmd w :: rest)
    (hw : w.getLsbD 4 = true) (h : step s = .next t) (ht : t.phase = .error) :
    ∃ e, startError w { s with agenda := rest } = some e ∧
      t = (({ s with agenda := rest } : State).acceptStart w).raise e := by
  rw [step_wr_cmd ha, writeCmd_of_start _ hw] at h
  obtain ⟨-, hraised | ⟨-, rfl⟩⟩ := start_cases h
  · exact hraised
  · cases ht

/-- Settles O16: the state after the step is an accepted START and an error (`step_start_raises`), which change only CMD,
the stream, STATE, ERRCODE, CURSOR and OUT; in ERROR the engine is at rest. -/
theorem startErrorAction : Obligations.StartErrorAction := by
  intro s t w rest ha hw h ht
  have hrest : step { t with agenda := [] } = .next { t with agenda := [] } :=
    step_of_quiet_of_not_busy rfl (by simp [ht])
  obtain ⟨e, -, rfl⟩ := step_start_raises ha hw h ht
  simpa using hrest

end Sys2Proof.Machine

/-! The arguments of a call in progress (70_reset_and_hazards.md R341, R342). -/

namespace Sys2Proof.Machine

/-- CMD, WIDTH, HEIGHT and the stream of the call are the same in both states. -/
structure SameArguments (s t : State) : Prop where
  cmd_eq : t.cmd = s.cmd
  width_eq : t.width = s.width
  height_eq : t.height = s.height
  stream_eq : t.stream = s.stream

theorem sameArguments_of_agenda {s t : State} {rest : List Event} (h : SameArguments { s with agenda := rest } t) :
    SameArguments s t := ⟨h.cmd_eq, h.width_eq, h.height_eq, h.stream_eq⟩

/-- A row of the opcode table keeps the arguments while BUSY: the two commands are refused, and no other row writes
them, also when it raises IoError. -/
theorem exec_sameArguments {i : Instr} {s t : State} (hb : s.phase = .busy) (h : exec i s = .next t) :
    SameArguments s t := by
  obtain ⟨w, hstart⟩ | ⟨p, rfl⟩ | ⟨c, v, rfl⟩ | ⟨b, o, a, p, n, rfl⟩ | rfl | hasm := exec_effect h
  · exact absurd hb (start_cases hstart).1
  iterate 4 exact ⟨rfl, rfl, rfl, rfl⟩
  · obtain ⟨rfl, -⟩ := assemble_ok hasm
    exact ⟨rfl, rfl, rfl, rfl⟩

/-- The engine keeps the arguments, also in the block step that ends the call or raises IoError. -/
theorem engineTurn_sameArguments {s t : State} (h : engineTurn s = .next t) : SameArguments s t := by
  obtain ⟨-, rfl⟩ | ⟨hb, hblock⟩ := engineTurn_cases h
  · exact ⟨rfl, rfl, rfl, rfl⟩
  · obtain ⟨-, rfl⟩ | ⟨-, rfl, -⟩ := blockStep_cases hb hblock
    · exact ⟨rfl, rfl, rfl, rfl⟩
    · exact ⟨stepped_cmd s, stepped_width s, stepped_height s, stepped_stream s⟩

/-- The one host action that changes an argument while BUSY is reset; register writes are refused (10_state.md R28), and
STREAM presents bytes for the next START only (20_memory.md R51). -/
theorem hostAct_sameArguments_or_idle {a : HostAction} {s t : State} (hb : s.phase = .busy)
    (h : hostAct a s = .next t) : SameArguments s t ∨ t.phase = .idle := by
  obtain ⟨w, -, hcmd⟩ | ⟨v, -, hnb, -⟩ | ⟨v, -, hnb, -⟩ | ⟨bytes, -, rfl⟩ | ⟨r, rfl⟩ | ⟨r, rfl⟩ | ⟨-, rfl⟩ :=
    hostAct_cases h
  · exact absurd hb (writeCmd_cases hcmd).1
  iterate 2 exact absurd hb hnb
  iterate 3 exact .inl ⟨rfl, rfl, rfl, rfl⟩
  · exact .inr (hostReset_phase s)

/-- A step from BUSY keeps the arguments unless it is a reset, which leaves IDLE. -/
theorem step_sameArguments_or_idle {s t : State} (hb : s.phase = .busy) (h : step s = .next t) :
    SameArguments s t ∨ t.phase = .idle := by
  obtain ⟨-, hengine⟩ | ⟨rest, -, hengine⟩ | ⟨a, rest, -, hhost⟩ | ⟨f, bytes, rest, -, ⟨i, hexec⟩ | ⟨w, hcmd⟩⟩ :=
    step_cases h
  · exact .inl (engineTurn_sameArguments hengine)
  · exact .inl (sameArguments_of_agenda (engineTurn_sameArguments hengine))
  · exact (hostAct_sameArguments_or_idle (by exact hb) hhost).imp_left sameArguments_of_agenda
  · exact .inl (sameArguments_of_agenda (exec_sameArguments (by exact hb) hexec))
  · exact absurd hb (writeCmd_cases hcmd).1

/-- Settles O52: of the steps from BUSY only a reset changes an argument (`step_sameArguments_or_idle`), and a reset does
not lead to BUSY. -/
theorem argumentsFixedDuringCall : Obligations.ArgumentsFixedDuringCall := by
  intro s t hb hb' hstep
  obtain ⟨hcmd, hwidth, hheight, hstream⟩ | hidle := step_sameArguments_or_idle hb hstep
  · exact ⟨hcmd, hwidth, hheight, hstream⟩
  · rw [hb'] at hidle
    cases hidle

end Sys2Proof.Machine
